-- ==== Sys2Proof/Word.lean ====
section
/-! DEFINITION. The widths of the block (spec/00_scope.md R5): bytes and symbols, bus words, bus addresses, node
indices and node frequencies, bit strings, and a table of one entry per symbol value. -/

namespace Sys2Proof

/-- A symbol, a container byte, an opcode: SYM_W = HDR_W = 8 bits (R5). -/
abbrev Byte := BitVec 8

/-- A bus word, a register, a frequency table entry: BUS_DW = FREQ_W = 32 bits (R5). -/
abbrev Word := BitVec 32

/-- A bus byte address: BUS_AW = 26 bits (R5, R60). -/
abbrev Addr := BitVec 26

/-- An index into the node memory of NODE_CAP = 511 entries: the 9-bit fields LEFT and RIGHT (R33). -/
abbrev NodeIdx := BitVec 9

/-- The frequency of a tree node: NFREQ_W = 40 bits (R5, R33). -/
abbrev NodeFreq := BitVec 40

/-- A bit string, its first bit at the head (R12). -/
abbrev Bits := List Bool

/-- A table of NSYM = 256 entries, one per symbol value (R5, R30, R34). -/
abbrev Table (α : Type) := Vector α 256

end Sys2Proof
end

