-- ==== Sys2Proof/Config.lean ====
section
/-! DEFINITION. What is fixed for one block and is not state (spec/00_scope.md R5, R9): the two OPEN capacities, and the
constants every block shares. -/

namespace Sys2Proof

/-- The OPEN parameters of R5: TEXT_CAP in symbols and CONT_CAP in bytes. Their ranges are `Config.WellFormed`. -/
structure Config where
  textCap : Nat
  contCap : Nat
deriving DecidableEq, Repr

/-- ID_VALUE (R5, R23). -/
def Config.idValue : Word := 0x48554631

/-- NODE_CAP, the entries of the node memory, 2 * NSYM - 1 (R5). -/
def Config.nodeCap : Nat := 511

/-- CODE_MAXLEN, the longest possible code in bits, NSYM - 1 (R5). -/
def Config.codeMaxLen : Nat := 255

/-- The capacities of the chip that `State.reset` describes, less their least values: TEXT_CAP - 1 and CONT_CAP - 2. The
spec leaves both OPEN within R5's ranges, so they have no body: nothing in Lean knows more of them than the range
(DESIGN CHOICE, safe: log 4). -/
opaque Config.chipCapacities : Fin 4194304 × Fin 4194303

/-- The parameters of the chip that `State.reset` describes: any TEXT_CAP from 1 to 2^22 and any CONT_CAP from 2 to
2^22 (R5; log 4). -/
def Config.chip : Config :=
  { textCap := Config.chipCapacities.1.val + 1, contCap := Config.chipCapacities.2.val + 2 }

end Sys2Proof
end

