-- ==== Sys2Proof/Syntax.lean ====
section
/-! DEFINITION. The commands of HUFC-CMD 1.0 (spec/30_encoding.md R101), one constructor per row of
spec/opcode_table.json. -/

namespace Sys2Proof

/-- The single operand field of a command, MODE (R100, R102): 0 = match against the Reverse Code Table, 1 = walk the
tree. -/
inductive Mode where
  | table
  | tree
deriving DecidableEq, Repr

/-- The ten commands (R101). Only DECODE and DECOMPRESS carry an operand; every other operand of a command is one of the
block's own tables, buffers or length registers (R100). -/
inductive Instr where
  /-- 0x00, R237 -/
  | nop
  /-- 0x01, R238 -/
  | clr
  /-- 0x02, R150 -/
  | count
  /-- 0x03, R160 -/
  | build
  /-- 0x04, R180 -/
  | gen
  /-- 0x05, R190 -/
  | pack
  /-- 0x06, R205 -/
  | unpack
  /-- 0x07, R215: DECODE.TBL, DECODE.TREE -/
  | decode (mode : Mode)
  /-- 0x08, R235 -/
  | compress
  /-- 0x09, R236: DECOMPRESS.TBL, DECOMPRESS.TREE -/
  | decompress (mode : Mode)
deriving DecidableEq, Repr

end Sys2Proof
end

