-- ==== Sys2Proof/WellFormed.lean ====
section
/-! DEFINITION. What a well-formed instruction and a well-formed configuration are. -/

namespace Sys2Proof

/-- Every term of `Instr` is a legal command. The one operand, MODE, is a 1-bit number and both of its values are legal
with the two commands that carry it (R100, R101), and `Mode` has exactly those two values; so there is nothing to check
and no ill-formed term. Spelled out per constructor so that a new command cannot slip past. -/
def Instr.wellFormed : Instr → Bool
  | .nop => true
  | .clr => true
  | .count => true
  | .build => true
  | .gen => true
  | .pack => true
  | .unpack => true
  | .decode m => m = .table ∨ m = .tree
  | .compress => true
  | .decompress m => m = .table ∨ m = .tree

abbrev Instr.WellFormed (i : Instr) : Prop := i.wellFormed = true

/-- The ranges of the OPEN parameters: 1 ≤ TEXT_CAP ≤ 2^22 and 2 ≤ CONT_CAP ≤ 2^22 (R5). -/
abbrev Config.WellFormed (c : Config) : Prop :=
  (1 ≤ c.textCap ∧ c.textCap ≤ 4194304) ∧ (2 ≤ c.contCap ∧ c.contCap ≤ 4194304)

end Sys2Proof
end

