-- ==== Sys2Proof/Decode.lean ====
section
/-! DEFINITION. The command word (spec/30_encoding.md R100 to R103): its fields, the decoder, total on all 2^32 words and
rejecting by name, and the encoder. -/

namespace Sys2Proof

/-- Why a command word is illegal: the three reasons of R103. -/
inductive Illegal where
  /-- OP is 0x0A to 0xFF -/
  | opcode
  /-- ZERO, bits 31:9, is not 0 -/
  | zeroField
  /-- MODE = 1 with an OP other than 0x07 and 0x09 -/
  | modeField
deriving DecidableEq, Repr

/-- OP, bits 7:0 (R100). -/
def opField (w : Word) : Byte := w.extractLsb' 0 8

/-- MODE, bit 8 (R100). -/
def modeField (w : Word) : Bool := w.getLsbD 8

/-- ZERO, bits 31:9 (R100). -/
def zeroField (w : Word) : BitVec 23 := w.extractLsb' 9 23

/-- MODE = 0 is table mode, MODE = 1 is tree mode (R102). -/
def Mode.ofBit : Bool → Mode
  | false => .table
  | true => .tree

def Mode.bit : Mode → Bool
  | .table => false
  | .tree => true

/-- A command whose MODE must be 0 (R101). -/
def withoutMode (mode : Bool) (i : Instr) : Except Illegal Instr :=
  if mode then .error .modeField else .ok i

/-- The opcode map (R101): the command that OP names, with `mode` as its only operand field (R131). -/
def decodeOp (op : Nat) (mode : Bool) : Except Illegal Instr :=
  match op with
  | 0 => withoutMode mode .nop
  | 1 => withoutMode mode .clr
  | 2 => withoutMode mode .count
  | 3 => withoutMode mode .build
  | 4 => withoutMode mode .gen
  | 5 => withoutMode mode .pack
  | 6 => withoutMode mode .unpack
  | 7 => .ok (.decode (Mode.ofBit mode))
  | 8 => withoutMode mode .compress
  | 9 => .ok (.decompress (Mode.ofBit mode))
  | _ => .error .opcode

/-- Decoding a command word (R131): the command it encodes, or why it is illegal (R103). -/
def decodeWord (w : Word) : Except Illegal Instr :=
  if zeroField w = 0 then decodeOp (opField w).toNat (modeField w) else .error .zeroField

/-- The opcode of a command (R101). -/
def Instr.opcode : Instr → Byte
  | .nop => 0x00
  | .clr => 0x01
  | .count => 0x02
  | .build => 0x03
  | .gen => 0x04
  | .pack => 0x05
  | .unpack => 0x06
  | .decode _ => 0x07
  | .compress => 0x08
  | .decompress _ => 0x09

/-- The MODE bit of a command, 0 where it carries none (R101, R102). -/
def Instr.modeBit : Instr → Bool
  | .nop => false
  | .clr => false
  | .count => false
  | .build => false
  | .gen => false
  | .pack => false
  | .unpack => false
  | .decode m => m.bit
  | .compress => false
  | .decompress m => m.bit

/-- The command word of a command: ZERO, MODE, OP from the top (R100). -/
def encode (i : Instr) : Word := 0#23 ++ BitVec.ofBool i.modeBit ++ i.opcode

/-- The rows of spec/opcode_table.json as (mask, match), in the table's order. A word belongs to a row when the bits under
the mask are the match. -/
def opcodeRows : List (Word × Word) :=
  [(0xFFFFFFFF, 0x00000000), (0xFFFFFFFF, 0x00000001), (0xFFFFFFFF, 0x00000002), (0xFFFFFFFF, 0x00000003),
   (0xFFFFFFFF, 0x00000004), (0xFFFFFFFF, 0x00000005), (0xFFFFFFFF, 0x00000006), (0xFFFFFEFF, 0x00000007),
   (0xFFFFFFFF, 0x00000008), (0xFFFFFEFF, 0x00000009)]

/-- The command read from a table word: its low `nbits` bits, all bits above 0, as one 32-bit command word; none where the
decoder refuses it, or where it does not fit the one format of 32 bits (R100, R111). -/
def decodeTableWord (nbits w : Nat) : Option Instr :=
  let v := w % 2 ^ nbits
  if v < 4294967296 then
    match decodeWord (BitVec.ofNat 32 v) with
    | .ok i => some i
    | .error _ => none
  else none

end Sys2Proof
end

