-- ==== Sys2Proof/Machine/State.lean ====
section
/-! DEFINITION. The state of the block as plain data (spec/10_state.md), the host's side of the bus, the reset state, and
the reasons a step could stop. -/

namespace Sys2Proof.Machine

/-- STATUS.ERR: the outcomes of the most recent command (spec/60_exceptions.md R251). Values 8 to 15 never occur (R251). -/
inductive ErrCode where
  /-- 0: the command succeeded -/
  | none
  /-- 1, R252 -/
  | malformedContainer
  /-- 2, R253 -/
  | undecodableTail
  /-- 3, R254 -/
  | missingSymbol
  /-- 4, R255 -/
  | contOverflow
  /-- 5, R256 -/
  | textOverflow
  /-- 6, R257 -/
  | sequence
  /-- 7, R258 -/
  | illegalCmd
deriving DecidableEq, Repr

/-- One valid entry of the NODE memory, a Tree Node (R33). The fields a kind does not hold read as 0; `Node.sym`,
`Node.left`, `Node.right` say so. -/
inductive Node where
  /-- KIND = 0: the symbol and its frequency -/
  | leaf (sym : Byte) (freq : NodeFreq)
  /-- KIND = 1: the sum of the two children's FREQ, and their node indices -/
  | internal (freq : NodeFreq) (left right : NodeIdx)
deriving DecidableEq, Repr

/-- What the host can do to the block: one bus transaction (spec/20_memory.md R62), or the assertion of reset
(spec/70_reset_and_hazards.md R290; log 10). -/
inductive HostAction where
  | read (addr : Addr)
  | write (addr : Addr) (v : Word)
  | reset
deriving DecidableEq, Repr

/-- The response of a transaction (R62): ok(data) of a read, ok of a write, or buserror. -/
inductive Response where
  | data (d : Word)
  | ok
  | buserror
deriving DecidableEq, Repr

/-- The state of the block, and beside it the host's actions still to come and the last response. TEXT, CONT and NODE are
held as sequences of exactly TLEN, CLEN and NNODES entries, since entries above are not state (R33, R35, R36; log 5). -/
structure State where
  /-- the OPEN parameters TEXT_CAP and CONT_CAP, constant (R5, R9), which TCAP and CCAP read (R37; log 4) -/
  cfg : Config
  /-- STATUS.ERR (R25) -/
  err : ErrCode
  /-- STATUS.ESTICKY (R25) -/
  esticky : Bool
  /-- STATUS.BVALID (R25) -/
  bvalid : Bool
  /-- STATUS.LASTOP (R25) -/
  lastop : Byte
  /-- EINFO (R26) -/
  einfo : Word
  /-- BLEN (R29) -/
  blen : Word
  /-- PAD (R31) -/
  pad : Byte
  /-- ROOT (R32) -/
  root : NodeIdx
  /-- FREQ, the Frequency Table (R30) -/
  freq : Table Word
  /-- NODE[0..NNODES-1], the tree (R33) -/
  node : List Node
  /-- CODE, the Code Table: the bit string `code(s)` of each symbol, empty when it has none (R34) -/
  code : Table Bits
  /-- TEXT[0..TLEN-1], the text buffer (R35) -/
  text : List Byte
  /-- CONT[0..CLEN-1], the container buffer (R36) -/
  cont : List Byte
  /-- the model's own: the host's actions still to come, oldest first (R62, R85; log 1) -/
  bus : List HostAction
  /-- the model's own: the response of the most recent transaction, none before the first (R62, R10; log 11) -/
  resp : Option Response
deriving DecidableEq, Repr

/-- TLEN (R27, R35). -/
def State.tlen (s : State) : Nat := s.text.length

/-- CLEN (R28, R36). -/
def State.clen (s : State) : Nat := s.cont.length

/-- NNODES (R32, R33). -/
def State.nnodes (s : State) : Nat := s.node.length

/-- The reset state of a block with parameters `c` (R40, R290): no error, empty text, empty container, empty frequency
table, empty tree, empty code table. -/
def State.resetWith (c : Config) : State :=
  { cfg := c
    err := .none
    esticky := false
    bvalid := false
    lastop := 0
    einfo := 0
    blen := 0
    pad := 0
    root := 0
    freq := Vector.replicate 256 0
    node := []
    code := Vector.replicate 256 []
    text := []
    cont := []
    bus := []
    resp := none }

/-- The machine right after reset (R40), for whatever parameters the chip has within R5 (log 4), with no host action
given yet. -/
def State.reset : State := State.resetWith Config.chip

/-- The form of the two buffers: 0 ≤ TLEN ≤ TEXT_CAP and 0 ≤ CLEN ≤ CONT_CAP (R27, R28, R39 (a)). A sequence holds exactly
its valid bytes, so equal buffers are equal data. -/
def Memory.wf (s : State) : Bool :=
  decide (s.text.length ≤ s.cfg.textCap) && decide (s.cont.length ≤ s.cfg.contCap)

/-- Why a step could stop with a fault: never. A failing command is recorded in STATUS and the block goes on (R250; log 3);
a refused transaction is answered with buserror and the block goes on (R262; log 2); no transaction can leave the block
stuck (R11 (c), R310). Safe: there is no constructor, so no step stops here. -/
inductive Fault where
deriving DecidableEq, Repr

/-- Why a step could be refused. -/
inductive Refusal where
  /-- raised by an arm of `exec` for an instruction that has no meaning yet; no arm raises it. Safe: the model stops. -/
  | notModelled (mnemonic : String)
deriving DecidableEq, Repr

end Sys2Proof.Machine
end

