-- ==== Sys2Proof/Machine/Flags.lean ====
section
/-! DEFINITION. The status register (spec/10_state.md R25, R41): the numbers of the error codes and the word the host
reads. BVALID is set by UNPACK alone and cleared as `State.contChanged` says. -/

namespace Sys2Proof.Machine

/-- The number of an error code (R251). -/
def ErrCode.code : ErrCode → BitVec 4
  | .none => 0
  | .malformedContainer => 1
  | .undecodableTail => 2
  | .missingSymbol => 3
  | .contOverflow => 4
  | .textOverflow => 5
  | .sequence => 6
  | .illegalCmd => 7

/-- STATUS as the host reads it: LASTOP in 15:8, BVALID in 5, ESTICKY in 4, ERR in 3:0, all else 0 (R25). -/
def State.statusWord (s : State) : Word :=
  0#16 ++ s.lastop ++ 0#2 ++ BitVec.ofBool s.bvalid ++ BitVec.ofBool s.esticky ++ s.err.code

/-- An accepted host write to the CONT window or to CLEN: the container is now `cont`, and BLEN and PAD no longer describe
it, so BVALID is cleared (R25, R68 (c), R73). -/
def State.contChanged (s : State) (cont : List Byte) : State := { s with cont := cont, bvalid := false }

end Sys2Proof.Machine
end

