-- ==== Sys2Proof/Machine/Operands.lean ====
section
/-! DEFINITION. How a command reads its operands (spec/00_scope.md R13): table entries, node entries, bits of bytes, the
Encoded Bitstream, the Reverse Code Table. -/

namespace Sys2Proof

/-- Entry `s` of a table indexed by symbol value (R30, R34). -/
def Table.entry {α : Type} (t : Table α) (s : Byte) : α := Vector.get t s.toFin

/-- The table with entry `s` set to `v`. -/
def Table.put {α : Type} (t : Table α) (s : Byte) (v : α) : Table α := Vector.set t s.toNat v s.isLt

namespace Machine

/-- The 256 symbol values in ascending order (R5, R161). -/
def symbols : List Byte := (List.range 256).map (BitVec.ofNat 8)

/-- The eight bits of a byte, bit 7 first (R80). -/
def bitsOfByte (b : Byte) : Bits :=
  [b.getLsbD 7, b.getLsbD 6, b.getLsbD 5, b.getLsbD 4, b.getLsbD 3, b.getLsbD 2, b.getLsbD 1, b.getLsbD 0]

/-- The byte that holds eight bits, the first in bit 7 (R80). -/
def byteOfBits (b0 b1 b2 b3 b4 b5 b6 b7 : Bool) : Byte :=
  BitVec.ofNat 8
    (b0.toNat * 128 + b1.toNat * 64 + b2.toNat * 32 + b3.toNat * 16 + b4.toNat * 8 + b5.toNat * 4 + b6.toNat * 2 + b7.toNat)

/-- A byte sequence as one bit sequence, every byte expanded first bit 7 (R80, R82). -/
def bitsOfBytes (bs : List Byte) : Bits := bs.flatMap bitsOfByte

/-- A bit sequence grouped into consecutive chunks of eight, each one byte (R193). Bits after the last whole chunk are
not used; PACK leaves none. -/
def bytesOfBits : Bits → List Byte
  | b0 :: b1 :: b2 :: b3 :: b4 :: b5 :: b6 :: b7 :: rest => byteOfBits b0 b1 b2 b3 b4 b5 b6 b7 :: bytesOfBits rest
  | _ => []

/-- The Encoded Bitstream: container bits 8 to 8 + BLEN - 1 (R29, R82). -/
def encodedBits (s : State) : Bits := ((bitsOfBytes s.cont).drop 8).take s.blen.toNat

/-- The Reverse Code Table (R34, R185): the symbol whose code is the non-empty bit string `p`, none where there is none.
At most one exists in every reachable state (R39 (c)); elsewhere the lowest is taken (log 8). -/
def rev (code : Table Bits) (p : Bits) : Option Byte :=
  if p = [] then none else symbols.find? fun s => decide (code.entry s = p)

/-- The kind of a node: 0 for a leaf, 1 for an internal node (R33). -/
def Node.kind : Node → Bool
  | .leaf _ _ => false
  | .internal _ _ _ => true

/-- SYM, 0 for an internal node (R33). -/
def Node.sym : Node → Byte
  | .leaf s _ => s
  | .internal _ _ _ => 0

/-- FREQ (R33). -/
def Node.freq : Node → NodeFreq
  | .leaf _ f => f
  | .internal f _ _ => f

/-- LEFT, 0 for a leaf (R33). -/
def Node.left : Node → NodeIdx
  | .leaf _ _ => 0
  | .internal _ l _ => l

/-- RIGHT, 0 for a leaf (R33). -/
def Node.right : Node → NodeIdx
  | .leaf _ _ => 0
  | .internal _ _ r => r

/-- NODE[i] for i < NNODES; none above, where there is no entry (R33; log 6). -/
def nodeAt (nodes : List Node) (i : NodeIdx) : Option Node := nodes[i.toNat]?

/-- The branch a bit takes: LEFT for 0, RIGHT for 1 (R164, R181). -/
def branch (left right : NodeIdx) (b : Bool) : NodeIdx := if b then right else left

end Machine

end Sys2Proof
end

