-- ==== Sys2Proof/Machine/Ops.lean ====
section
/-! DEFINITION. How a command ends (spec/40_command_execution.md): success, failure, an illegal word. Recording a failure
is the one exception mechanism of the block (spec/60_exceptions.md R250). It saves no pc and changes no mode, and there is
no return from it (R265): the next command overwrites ERR and EINFO, and CLR clears ESTICKY. -/

namespace Sys2Proof.Machine

/-- `fail E(info)` of a command's rule (R13, R134). -/
structure Failure where
  err : ErrCode
  info : Word
deriving DecidableEq, Repr

/-- Success (R133): LASTOP, ERR = 0, EINFO = 0; ESTICKY is left as it was. -/
def State.succeed (op : Byte) (s : State) : State :=
  { s with lastop := op, err := .none, einfo := 0 }

/-- Failure, the block's exception entry (R134, R250): LASTOP, ERR, EINFO, ESTICKY = 1, and nothing else (R135). -/
def State.fail (op : Byte) (f : Failure) (s : State) : State :=
  { s with lastop := op, err := f.err, einfo := f.info, esticky := true }

/-- How a command with opcode `op` issued in `s` ends: with the state its rule computed and the success update, or with
`s` itself and the failure update, so that no write of a failed command takes effect (R133 to R135). -/
def finish (op : Byte) (s : State) : Except Failure State → Host.Outcome State Fault Refusal
  | .ok t => .next (t.succeed op)
  | .error f => .next (s.fail op f)

/-- An illegal command word (R132): LASTOP = w[7:0], ERR = 7, EINFO = w, ESTICKY = 1, nothing else. -/
def State.illegal (w : Word) (s : State) : State :=
  s.fail (w.extractLsb' 0 8) { err := .illegalCmd, info := w }

/-- The empty frequency table: no symbol is a key (R30). -/
def emptyFreq : Table Word := Vector.replicate 256 0

/-- The empty code table: no symbol has a code (R34). -/
def emptyCode : Table Bits := Vector.replicate 256 []

end Sys2Proof.Machine
end

