-- ==== Sys2Proof/Machine/BitPacker.lean ====
section
/-! DEFINITION. The Bit Packer, PACK (spec/44_bit_packer.md R190 to R198). -/

namespace Sys2Proof.Machine

/-- Step 1, encode (R190, R191, R194): from position `i` on, with `bits` produced so far. At each position the missing code
is checked before the overflow. -/
def packBits (code : Table Bits) (contCap : Nat) : Nat → Bits → List Byte → Except Failure Bits
  | _, bits, [] => .ok bits
  | i, bits, s :: rest =>
    if code.entry s = [] then
      .error { err := .missingSymbol, info := (s.setWidth 32 <<< 24) ||| BitVec.ofNat 32 i }
    else
      let bits' := bits ++ code.entry s
      if 2 + bits'.length / 8 > contCap then .error { err := .contOverflow, info := BitVec.ofNat 32 i }
      else packBits code contCap (i + 1) bits' rest

/-- Step 2, pad (R192): 1 to 8 padding bits. -/
def padding (len : Nat) : Nat := 8 - len % 8

/-- Steps 2 and 3, pad and pack (R192, R193): the header byte, then the bits and their zero padding in bytes. -/
def container (bits : Bits) : List Byte :=
  BitVec.ofNat 8 (padding bits.length) :: bytesOfBits (bits ++ List.replicate (padding bits.length) false)

/-- The state writes of PACK, or its failure (R190). -/
def packState (s : State) : Except Failure State :=
  match packBits s.code s.cfg.contCap 0 [] s.text with
  | .error f => .error f
  | .ok bits =>
    .ok { s with
      cont := container bits, blen := BitVec.ofNat 32 bits.length, pad := BitVec.ofNat 8 (padding bits.length),
      bvalid := false }

/-- PACK (R190). -/
def execPack (s : State) : Host.Outcome State Fault Refusal := finish Instr.pack.opcode s (packState s)

end Sys2Proof.Machine
end

