-- ==== Sys2Proof/Machine/BitUnpacker.lean ====
section
/-! DEFINITION. The Bit Unpacker, UNPACK (spec/45_bit_unpacker.md R205 to R209). -/

namespace Sys2Proof.Machine

/-- The state writes of UNPACK, or its failure (R205, R206). -/
def unpackState (s : State) : Except Failure State :=
  match s.cont with
  | [] => .error { err := .malformedContainer, info := 0 }
  | h :: rest =>
    if h.toNat > 8 * rest.length then
      .error { err := .malformedContainer, info := (h.setWidth 32 <<< 8) ||| 1 }
    else
      .ok { s with pad := h, blen := BitVec.ofNat 32 (8 * rest.length - h.toNat), bvalid := true }

/-- UNPACK (R205). -/
def execUnpack (s : State) : Host.Outcome State Fault Refusal := finish Instr.unpack.opcode s (unpackState s)

end Sys2Proof.Machine
end

