-- ==== Sys2Proof/Machine/CodeTableGenerator.lean ====
section
/-! DEFINITION. The Code Table Generator, GEN (spec/43_code_table_generator.md R180 to R186). -/

namespace Sys2Proof.Machine

/-- `walk(i, p)` (R180, R181): depth first, left before right, writing each leaf's path as its symbol's code. A path visits
indices that only fall, so `fuel` = NNODES is enough (log 7); an index that names no node writes nothing (log 6). -/
def walk (nodes : List Node) : Nat → NodeIdx → Bits → Table Bits → Table Bits
  | 0, _, _, code => code
  | fuel + 1, i, p, code =>
    match nodeAt nodes i with
    | none => code
    | some (.leaf s _) => code.put s p
    | some (.internal _ l r) => walk nodes fuel r (p ++ [true]) (walk nodes fuel l (p ++ [false]) code)

/-- The code table of a tree (R180): empty for the empty tree (R183), the one-bit code "0" for a tree that is one leaf
(R182), the leaves' paths otherwise (R181). -/
def genTable (nodes : List Node) (root : NodeIdx) : Table Bits :=
  match nodeAt nodes root with
  | none => emptyCode
  | some (.leaf s _) => emptyCode.put s [false]
  | some (.internal _ _ _) => walk nodes nodes.length root [] emptyCode

/-- The state writes of GEN (R180). -/
def genState (s : State) : State := { s with code := genTable s.node s.root }

/-- GEN (R180). It cannot fail. -/
def execGen (s : State) : Host.Outcome State Fault Refusal := finish Instr.gen.opcode s (.ok (genState s))

end Sys2Proof.Machine
end

