-- ==== Sys2Proof/Machine/FrequencyCounter.lean ====
section
/-! DEFINITION. The Frequency Counter, COUNT (spec/41_frequency_counter.md R150 to R152). -/

namespace Sys2Proof.Machine

/-- FREQ[s] <- FREQ[s] + 1 (R150). -/
def bump (f : Table Word) (s : Byte) : Table Word := f.put s (f.entry s + 1)

/-- The frequency table of a text: counted from the empty table (R150, R151). -/
def countText (text : List Byte) : Table Word := text.foldl bump emptyFreq

/-- The state writes of COUNT (R150). -/
def countState (s : State) : State := { s with freq := countText s.text }

/-- COUNT (R150). It cannot fail. -/
def execCount (s : State) : Host.Outcome State Fault Refusal := finish Instr.count.opcode s (.ok (countState s))

end Sys2Proof.Machine
end

