-- ==== Sys2Proof/Machine/SymbolDecoder.lean ====
section
/-! DEFINITION. The symbol Decoder, DECODE (spec/46_symbol_decoder.md R215 to R222). -/

namespace Sys2Proof.Machine

/-- The failure at the end of a bitstream with a leftover candidate that began at bit `start` (R219 (c)). -/
def tailFailure (start : Nat) : Failure := { err := .undecodableTail, info := BitVec.ofNat 32 start }

/-- The failure of a symbol that does not fit, whose code began at bit `start` (R219 (b)). -/
def overflowFailure (start : Nat) : Failure := { err := .textOverflow, info := BitVec.ofNat 32 start }

/-- Table mode (R216): over the bits from offset `j` on, with the candidate `cand` that began at `start` and the symbols
`out` emitted so far. -/
def scanTable (code : Table Bits) (textCap : Nat) :
    Nat → Nat → Bits → List Byte → Bits → Except Failure (List Byte)
  | _, start, cand, out, [] => if cand = [] then .ok out else .error (tailFailure start)
  | j, start, cand, out, b :: bs =>
    match rev code (cand ++ [b]) with
    | some s =>
      if out.length = textCap then .error (overflowFailure start)
      else scanTable code textCap (j + 1) (j + 1) [] (out ++ [s]) bs
    | none => scanTable code textCap (j + 1) start (cand ++ [b]) out bs

/-- What one bit does to the walk of tree mode (R217). -/
inductive TreeMove where
  /-- the candidate can never match -/
  | dead
  /-- a leaf is reached and its symbol is emitted -/
  | emit (s : Byte)
  /-- the candidate goes on at this node -/
  | go (i : NodeIdx)
deriving DecidableEq, Repr

/-- The move of bit `b` at node `cur` (R217): with no tree every candidate is dead; with a tree of one leaf the only code
is "0"; otherwise the branch of `b` is taken. An index that names no node, or a leaf as `cur`, leaves no code to match
(log 6). -/
def treeMove (nodes : List Node) (root cur : NodeIdx) (b : Bool) : TreeMove :=
  match nodeAt nodes root with
  | none => .dead
  | some (.leaf s _) => if b then .dead else .emit s
  | some (.internal _ _ _) =>
    match nodeAt nodes cur with
    | some (.internal _ l r) =>
      match nodeAt nodes (branch l r b) with
      | some (.leaf s _) => .emit s
      | some (.internal _ _ _) => .go (branch l r b)
      | none => .dead
    | some (.leaf _ _) => .dead
    | none => .dead

/-- Tree mode (R217): over the bits from offset `j` on, with the current node `cur`. -/
def scanTree (nodes : List Node) (root : NodeIdx) (textCap : Nat) :
    Nat → Nat → Bool → NodeIdx → List Byte → Bits → Except Failure (List Byte)
  | _, start, dead, cur, out, [] => if dead ∨ cur ≠ root then .error (tailFailure start) else .ok out
  | j, start, true, cur, out, _ :: bs => scanTree nodes root textCap (j + 1) start true cur out bs
  | j, start, false, cur, out, b :: bs =>
    match treeMove nodes root cur b with
    | .dead => scanTree nodes root textCap (j + 1) start true cur out bs
    | .go i => scanTree nodes root textCap (j + 1) start false i out bs
    | .emit s =>
      if out.length = textCap then .error (overflowFailure start)
      else scanTree nodes root textCap (j + 1) (j + 1) false root (out ++ [s]) bs

/-- The symbols of the Encoded Bitstream by the mode's scan, or its failure (R216, R217). -/
def decodeBits (mode : Mode) (s : State) : Except Failure (List Byte) :=
  match mode with
  | .table => scanTable s.code s.cfg.textCap 0 0 [] [] (encodedBits s)
  | .tree => scanTree s.node s.root s.cfg.textCap 0 0 false s.root [] (encodedBits s)

/-- The state writes of DECODE, or its failure (R215, R219). -/
def decodeState (mode : Mode) (s : State) : Except Failure State :=
  if s.bvalid then
    match decodeBits mode s with
    | .error f => .error f
    | .ok out => .ok { s with text := out }
  else .error { err := .sequence, info := 0 }

/-- DECODE (R215). -/
def execDecode (mode : Mode) (s : State) : Host.Outcome State Fault Refusal :=
  finish (Instr.decode mode).opcode s (decodeState mode s)

end Sys2Proof.Machine
end

