-- ==== Sys2Proof/Machine/TreeBuilder.lean ====
section
/-! DEFINITION. The Tree Builder, BUILD (spec/42_tree_builder.md R160 to R170). -/

namespace Sys2Proof.Machine

/-- `key(i)` of a live node i: its FREQ and its index (R160, R163). -/
structure Key where
  freq : NodeFreq
  idx : NodeIdx
deriving DecidableEq, Repr

/-- The order of the collection: by FREQ, then by node index (R163). -/
def Key.before (a b : Key) : Bool := decide (a.freq < b.freq ∨ a.freq = b.freq ∧ a.idx < b.idx)

/-- The smallest of `k` and the keys of a collection, and the collection of all the others. -/
def popFrom (k : Key) : List Key → Key × List Key
  | [] => (k, [])
  | x :: xs =>
    if x.before k then
      let r := popFrom x xs
      (r.1, k :: r.2)
    else
      let r := popFrom k xs
      (r.1, x :: r.2)

/-- `the i in Q with the smallest key(i)`, and Q without it; none when Q is empty (R160). -/
def popMin : List Key → Option (Key × List Key)
  | [] => none
  | k :: ks => some (popFrom k ks)

/-- One merge (R162, R164): the first removed is LEFT, the second removed is RIGHT, the new node's FREQ is their sum. -/
def mergeNode (a b : Key) : Node := .internal (a.freq + b.freq) a.idx b.idx

/-- The merge loop (R160, R162): while the collection has two nodes or more, remove the two smallest and insert their
parent, which takes the next node index. Each turn shortens the collection by one, so `fuel` = |Q| is enough (log 7). -/
def mergeLoop : Nat → List Node → List Key → List Node
  | 0, nodes, _ => nodes
  | fuel + 1, nodes, q =>
    match popMin q with
    | none => nodes
    | some (a, q1) =>
      match popMin q1 with
      | none => nodes
      | some (b, q2) =>
        mergeLoop fuel (nodes ++ [mergeNode a b])
          ({ freq := a.freq + b.freq, idx := BitVec.ofNat 9 nodes.length } :: q2)

/-- The symbols that are keys of the frequency table, ascending (R30, R161). -/
def keySymbols (freq : Table Word) : List Byte := symbols.filter fun s => decide (freq.entry s ≠ 0)

/-- The leaves, one per key in ascending order of symbol value, FREQ zero-extended to 40 bits (R160, R161). -/
def leavesOf (freq : Table Word) : List Node :=
  (keySymbols freq).map fun s => .leaf s ((freq.entry s).setWidth 40)

/-- The keys of nodes whose first has index `i`. -/
def keysFrom : Nat → List Node → List Key
  | _, [] => []
  | i, n :: ns => { freq := n.freq, idx := BitVec.ofNat 9 i } :: keysFrom (i + 1) ns

/-- The node memory BUILD leaves (R160): the leaves, then the internal nodes in order of creation. -/
def buildTree (freq : Table Word) : List Node :=
  let leaves := leavesOf freq
  mergeLoop leaves.length leaves (keysFrom 0 leaves)

/-- ROOT: 0 for the empty tree, else the node created last (R160, R165). -/
def rootOf (nodes : List Node) : NodeIdx := BitVec.ofNat 9 (nodes.length - 1)

/-- The state writes of BUILD (R160). -/
def buildState (s : State) : State :=
  let nodes := buildTree s.freq
  { s with node := nodes, root := rootOf nodes }

/-- BUILD (R160). It cannot fail. -/
def execBuild (s : State) : Host.Outcome State Fault Refusal := finish Instr.build.opcode s (.ok (buildState s))

end Sys2Proof.Machine
end

