-- ==== Sys2Proof/Machine/Composite.lean ====
section
/-! DEFINITION. The composite commands COMPRESS and DECOMPRESS (spec/47_composite_and_control.md R235, R236). Each is all
or nothing per step, with one status update at the end. -/

namespace Sys2Proof.Machine

/-- The writes of COUNT, BUILD and GEN in this order, which cannot fail (R235). -/
def tablesState (s : State) : State := genState (buildState (countState s))

/-- COMPRESS (R235): the tables always, then the PACK step, whose failure leaves the new tables. -/
def execCompress (s : State) : Host.Outcome State Fault Refusal :=
  let t := tablesState s
  finish Instr.compress.opcode t (packState t)

/-- DECOMPRESS (R236): the UNPACK step, then, if it succeeded, the DECODE step, whose failure leaves what UNPACK wrote. -/
def execDecompress (mode : Mode) (s : State) : Host.Outcome State Fault Refusal :=
  match unpackState s with
  | .error f => finish (Instr.decompress mode).opcode s (.error f)
  | .ok t => finish (Instr.decompress mode).opcode t (decodeState mode t)

end Sys2Proof.Machine
end

