-- ==== Sys2Proof/Machine/Control.lean ====
section
/-! DEFINITION. The control commands NOP and CLR (spec/47_composite_and_control.md R237, R238). -/

namespace Sys2Proof.Machine

/-- NOP (R237): the success update and nothing else. -/
def execNop (s : State) : Host.Outcome State Fault Refusal := finish Instr.nop.opcode s (.ok s)

/-- What CLR clears beyond ERR, EINFO and LASTOP, which the success update writes (R238). -/
def clrState (s : State) : State :=
  { s with
    freq := emptyFreq, code := emptyCode, node := [], root := 0, text := [], cont := [], blen := 0, pad := 0,
    bvalid := false, esticky := false }

/-- CLR (R238). -/
def execClr (s : State) : Host.Outcome State Fault Refusal := finish Instr.clr.opcode s (.ok (clrState s))

end Sys2Proof.Machine
end

