-- ==== Sys2Proof/Machine/Bus.lean ====
section
/-! DEFINITION. The host bus (spec/20_memory.md): the address map, reads, writes, and the issue of a command by a write to
CMD (spec/40_command_execution.md R130). -/

namespace Sys2Proof.Machine

/-- The twelve registers, in the order of their offsets (spec/10_state.md R22). -/
inductive Reg where
  | id | cmd | status | einfo | tlen | clen | blen | pad | nnodes | root | tcap | ccap
deriving DecidableEq, Repr

/-- A mapped location (R61). -/
inductive Loc where
  | reg (r : Reg)
  | freq (s : Byte)
  | codeLen (s : Byte)
  | codeBits (s : Byte) (w : BitVec 3)
  | node (i : NodeIdx) (f : BitVec 2)
  | text (i : Nat)
  | cont (i : Nat)
deriving DecidableEq, Repr

/-- Why a transaction is answered with buserror, in the order of the checks (R75, R262). The block records none of this. -/
inductive BusError where
  /-- R63 -/
  | misaligned
  /-- R65 -/
  | unmapped
  /-- R66 -/
  | readOnly
  /-- R71, R72, R73 -/
  | outOfRange
  /-- R68 (b), (c) -/
  | lengthTooLarge
deriving DecidableEq, Repr

/-- The register at word offset `r` (R22, R61). -/
def Reg.ofNat? : Nat → Option Reg
  | 0 => some .id
  | 1 => some .cmd
  | 2 => some .status
  | 3 => some .einfo
  | 4 => some .tlen
  | 5 => some .clen
  | 6 => some .blen
  | 7 => some .pad
  | 8 => some .nnodes
  | 9 => some .root
  | 10 => some .tcap
  | 11 => some .ccap
  | _ => none

/-- The word offset of a register (R22). -/
def Reg.toNat : Reg → Nat
  | .id => 0
  | .cmd => 1
  | .status => 2
  | .einfo => 3
  | .tlen => 4
  | .clen => 5
  | .blen => 6
  | .pad => 7
  | .nnodes => 8
  | .root => 9
  | .tcap => 10
  | .ccap => 11

/-- The location at a 4-byte aligned byte address, none where the map has no entry (R61, R65). -/
def mapped (c : Config) (a : Nat) : Option Loc :=
  if a < 0x400 then
    match Reg.ofNat? (a / 4) with
    | some r => some (.reg r)
    | none => none
  else if a < 0x800 then some (.freq (BitVec.ofNat 8 ((a - 0x400) / 4)))
  else if a < 0x1000 then none
  else if a < 0x5000 then
    let s := BitVec.ofNat 8 ((a - 0x1000) / 0x40)
    let off := (a - 0x1000) % 0x40
    if off = 0 then some (.codeLen s)
    else if off < 0x20 then none
    else some (.codeBits s (BitVec.ofNat 3 ((off - 0x20) / 4)))
  else if a < 0x8000 then none
  else if a < 0x8000 + 0x10 * Config.nodeCap then
    some (.node (BitVec.ofNat 9 ((a - 0x8000) / 0x10)) (BitVec.ofNat 2 ((a - 0x8000) % 0x10 / 4)))
  else if a < 0x1000000 then none
  else if a < 0x2000000 then
    if (a - 0x1000000) / 4 < c.textCap then some (.text ((a - 0x1000000) / 4)) else none
  else if (a - 0x2000000) / 4 < c.contCap then some (.cont ((a - 0x2000000) / 4))
  else none

/-- The first two checks of a transaction: alignment, then the map (R75 (1), (2)). -/
def locate (c : Config) (a : Addr) : Except BusError Loc :=
  if a.toNat % 4 = 0 then
    match mapped c a.toNat with
    | some l => .ok l
    | none => .error .unmapped
  else .error .misaligned

/-- The byte address of a location (R61). -/
def Loc.addr : Loc → Addr
  | .reg r => BitVec.ofNat 26 (4 * r.toNat)
  | .freq s => BitVec.ofNat 26 (0x400 + 4 * s.toNat)
  | .codeLen s => BitVec.ofNat 26 (0x1000 + 0x40 * s.toNat)
  | .codeBits s w => BitVec.ofNat 26 (0x1000 + 0x40 * s.toNat + 0x20 + 4 * w.toNat)
  | .node i f => BitVec.ofNat 26 (0x8000 + 0x10 * i.toNat + 4 * f.toNat)
  | .text i => BitVec.ofNat 26 (0x1000000 + 4 * i)
  | .cont i => BitVec.ofNat 26 (0x2000000 + 4 * i)

/-- A register as the host reads it, reserved bits 0 (R66, R67 and spec/10_state.md R23 to R37). -/
def readReg (s : State) : Reg → Word
  | .id => Config.idValue
  | .cmd => 0
  | .status => s.statusWord
  | .einfo => s.einfo
  | .tlen => BitVec.ofNat 32 s.tlen
  | .clen => BitVec.ofNat 32 s.clen
  | .blen => s.blen
  | .pad => s.pad.setWidth 32
  | .nnodes => BitVec.ofNat 32 s.nnodes
  | .root => s.root.setWidth 32
  | .tcap => BitVec.ofNat 32 s.cfg.textCap
  | .ccap => BitVec.ofNat 32 s.cfg.contCap

/-- Word `w` of CODE[s].BITS: bit b is code bit 32w + b, 0 at and above LEN (R70). -/
def codeWord (p : Bits) (w : Nat) : Word :=
  (BitVec.ofBoolListLE ((p.drop (32 * w)).take 32)).setWidth 32

/-- Word `f` of a node entry (R71): SYM and KIND, FREQ[31:0], FREQ[39:32], LEFT and RIGHT. -/
def nodeWord (n : Node) (f : BitVec 2) : Word :=
  match f.toNat with
  | 0 => 0#23 ++ BitVec.ofBool n.kind ++ n.sym
  | 1 => n.freq.extractLsb' 0 32
  | 2 => 0#24 ++ n.freq.extractLsb' 32 8
  | _ => 0#7 ++ n.right ++ 0#7 ++ n.left

/-- A byte of a buffer as the host reads it, where it is valid (R72, R73). -/
def bufferRead (buf : List Byte) (i : Nat) : Except BusError Word :=
  match buf[i]? with
  | some b => .ok (b.setWidth 32)
  | none => .error .outOfRange

/-- A read of a mapped location (R67, R69 to R73). -/
def readLoc (s : State) : Loc → Except BusError Word
  | .reg r => .ok (readReg s r)
  | .freq y => .ok (s.freq.entry y)
  | .codeLen y => .ok (BitVec.ofNat 8 (s.code.entry y).length |>.setWidth 32)
  | .codeBits y w => .ok (codeWord (s.code.entry y) w.toNat)
  | .node i f =>
    match nodeAt s.node i with
    | some n => .ok (nodeWord n f)
    | none => .error .outOfRange
  | .text i => bufferRead s.text i
  | .cont i => bufferRead s.cont i

/-- `BusRead(addr)` (R62): the data, or why the response is buserror. A read has no side effect (R67). -/
def busRead (s : State) (a : Addr) : Except BusError Word :=
  match locate s.cfg a with
  | .ok l => readLoc s l
  | .error e => .error e

/-- A byte written to position `i` of a buffer: modified below the length, appended at the length, refused above it (R72,
R73). -/
def bufferWrite (buf : List Byte) (i : Nat) (b : Byte) : Except BusError (List Byte) :=
  if i < buf.length then .ok (buf.set i b)
  else if i = buf.length then .ok (buf ++ [b])
  else .error .outOfRange

/-- A length register written with `v`: the buffer is cut to `v` entries, refused when `v` exceeds its length, all 32 bits
compared (R68 (b), (c)). -/
def lengthWrite (buf : List Byte) (v : Word) : Except BusError (List Byte) :=
  if v.toNat ≤ buf.length then .ok (buf.take v.toNat) else .error .lengthTooLarge

/-- A write to TEXT or TLEN (R68 (b), R72): no flag is affected. -/
def State.withText (s : State) : Except BusError (List Byte) → Except BusError State
  | .ok text => .ok { s with text := text }
  | .error e => .error e

/-- A write to CONT or CLEN (R68 (c), R73): BVALID is cleared. -/
def State.withCont (s : State) : Except BusError (List Byte) → Except BusError State
  | .ok cont => .ok (s.contChanged cont)
  | .error e => .error e

/-- The effect of a write to a register other than CMD (R66, R68). -/
def writeReg (s : State) (v : Word) : Reg → Except BusError State
  | .id => .error .readOnly
  | .cmd => .ok s
  | .status => .error .readOnly
  | .einfo => .error .readOnly
  | .tlen => s.withText (lengthWrite s.text v)
  | .clen => s.withCont (lengthWrite s.cont v)
  | .blen => .error .readOnly
  | .pad => .error .readOnly
  | .nnodes => .error .readOnly
  | .root => .error .readOnly
  | .tcap => .error .readOnly
  | .ccap => .error .readOnly

/-- The storing effect of a write to a mapped location (R66, R68, R69, R70 to R73). CMD stores nothing (R24); what a write
to it executes is `issue`. -/
def writeLoc (s : State) (v : Word) : Loc → Except BusError State
  | .reg r => writeReg s v r
  | .freq y => .ok { s with freq := s.freq.put y v }
  | .codeLen _ => .error .readOnly
  | .codeBits _ _ => .error .readOnly
  | .node _ _ => .error .readOnly
  | .text i => s.withText (bufferWrite s.text i (v.setWidth 8))
  | .cont i => s.withCont (bufferWrite s.cont i (v.setWidth 8))

/-- The transaction's response, which the host sees (R62). -/
def State.respond (r : Response) (s : State) : State := { s with resp := some r }

/-- The issue of command word `w` (R130, R131): the command it encodes is executed completely; an illegal word is recorded
as a failure (R132). -/
def issue (w : Word) (s : State) : Host.Outcome State Fault Refusal :=
  match decodeWord w with
  | .ok i => exec i s
  | .error _ => .next (s.illegal w)

/-- `BusRead(addr)` as a step: only the response changes (R62, R67). -/
def readTransaction (a : Addr) (s : State) : State :=
  match busRead s a with
  | .ok d => s.respond (.data d)
  | .error _ => s.respond .buserror

/-- `BusWrite(addr, v)` of a location other than CMD: the stored state with response ok, or the same state with response
buserror (R62). -/
def storeTransaction (l : Loc) (v : Word) (s : State) : State :=
  match writeLoc s v l with
  | .ok t => t.respond .ok
  | .error _ => s.respond .buserror

/-- `BusWrite(addr, v)` (R62, R68): a write to CMD returns ok whether its command succeeded, failed or was illegal
(R130). -/
def writeTransaction (a : Addr) (v : Word) (s : State) : Host.Outcome State Fault Refusal :=
  match locate s.cfg a with
  | .error _ => .next (s.respond .buserror)
  | .ok (.reg .cmd) => issue v (s.respond .ok)
  | .ok l => .next (storeTransaction l v s)

/-- Reset (R290): the reset state of R40, for the same parameters; the host's later actions still stand (log 10). -/
def hostReset (s : State) : State := { State.resetWith s.cfg with bus := s.bus }

/-- One action of the host (R8, R62, R290). -/
def act (h : HostAction) (s : State) : Host.Outcome State Fault Refusal :=
  match h with
  | .read a => .next (readTransaction a s)
  | .write a v => writeTransaction a v s
  | .reset => .next (hostReset s)

/-- The state in which the host's oldest action is being served: it is no longer to come. -/
def State.taken (rest : List HostAction) (s : State) : State := { s with bus := rest }

/-- The host's action that issues command word `w` (R130). -/
def cmdWrite (w : Word) : HostAction := .write (Loc.reg .cmd).addr w

end Sys2Proof.Machine
end

