-- ==== Sys2Proof/Machine/Step.lean ====
section
/-! DEFINITION. One step of the machine (spec/00_scope.md R8): the host's oldest action that is still to come. -/

namespace Sys2Proof.Machine

/-- One step (R8, R85): the oldest host action, completely; with none to come the block is idle and keeps all state
(R269; log 9). -/
def step (s : State) : Host.Outcome State Fault Refusal :=
  match s.bus with
  | [] => .next s
  | h :: rest => act h (s.taken rest)

/-- `s` with the host about to issue the command word `w`: its low `nbits` bits, all bits above 0. The block fetches
nothing (R21): its next command is the next word the host writes to CMD (R130; log 1). -/
def State.withFetchWord (s : State) (nbits w : Nat) : State :=
  { s with bus := cmdWrite (BitVec.ofNat 32 (w % 2 ^ nbits)) :: s.bus }

end Sys2Proof.Machine
end

