-- ==== Sys2Proof/Safety.lean ====
section
/-! DEFINITION. What claims about the block speak of: the invariants of every reachable state (spec/10_state.md R39), paths
in the tree, and runs in which no command failed. -/

namespace Sys2Proof.Machine

/-- The node indices a node points at: LEFT and RIGHT of an internal node (R33). -/
def Node.children : Node → List Nat
  | .leaf _ _ => []
  | .internal _ l r => [l.toNat, r.toNat]

/-- The symbol a leaf carries. -/
def Node.symbol? : Node → Option Byte
  | .leaf s _ => some s
  | .internal _ _ _ => none

/-- The symbols of the leaves, in node order. -/
def leafSymbols (nodes : List Node) : List Byte := nodes.filterMap Node.symbol?

/-- The indices that are children of some node, in node order, with repetitions. -/
def childIndices (nodes : List Node) : List Nat := nodes.flatMap Node.children

/-- Where the path `p` leads from node `i`: LEFT for 0, RIGHT for 1 (R181); none where it leaves the tree. -/
def follow (nodes : List Node) : NodeIdx → Bits → Option NodeIdx
  | i, [] => some i
  | i, b :: p =>
    match nodeAt nodes i with
    | some (.internal _ l r) => follow nodes (branch l r b) p
    | some (.leaf _ _) => none
    | none => none

/-- The path `p` leads from node `i` to a leaf that carries `s`. -/
def LeadsTo (nodes : List Node) (i : NodeIdx) (p : Bits) (s : Byte) : Prop :=
  ∃ j f, follow nodes i p = some j ∧ nodeAt nodes j = some (.leaf s f)

/-- The tree is empty or a strict binary tree rooted at NNODES - 1 (R39 (b), R32, R165, R168). -/
structure TreeInv (nodes : List Node) (root : NodeIdx) : Prop where
  /-- every leaf carries a distinct symbol -/
  symbols_nodup : (leafSymbols nodes).Nodup
  /-- every node but the last is the child of exactly one internal node, on one side; the last is no child -/
  parents : (childIndices nodes).Perm (List.range (nodes.length - 1))
  /-- children have smaller indices than their parent -/
  ordered : ∀ (k : Nat) (n : Node), nodes[k]? = some n → ∀ j ∈ n.children, j < k
  /-- an internal node's FREQ is the sum of its children's, without wrapping (R6) -/
  sums : ∀ (k : Nat) (f : NodeFreq) (l r : NodeIdx), nodes[k]? = some (Node.internal f l r) →
    ∃ a b : Node, nodeAt nodes l = some a ∧ nodeAt nodes r = some b ∧ f.toNat = a.freq.toNat + b.freq.toNat
  /-- with NNODES = 2n - 1, nodes 0 to n - 1 are the leaves and nodes n to 2n - 2 the internal nodes (R165) -/
  leaves_first : ∀ (k : Nat) (n : Node), nodes[k]? = some n → (n.kind = false ↔ 2 * k < nodes.length)
  /-- ROOT = NNODES - 1, or 0 for the empty tree -/
  root_last : root.toNat = nodes.length - 1
  /-- NNODES ≤ NODE_CAP -/
  length_le : nodes.length ≤ Config.nodeCap

/-- The FREQ of node `i`, 0 where there is no node. -/
def freqAt (nodes : List Node) (i : Nat) : Nat := (nodes[i]?.map fun n => n.freq.toNat).getD 0

/-- `key(i)` is smaller than `key(j)`: by FREQ, then by node index (R163). -/
def KeyLt (nodes : List Node) (i j : Nat) : Prop :=
  freqAt nodes i < freqAt nodes j ∨ freqAt nodes i = freqAt nodes j ∧ i < j

/-- Node `i` is in the collection when node `k` is created: it exists and no node before `k` has it as a child (R162). -/
def LiveAt (nodes : List Node) (k i : Nat) : Prop := i < k ∧ i ∉ childIndices (nodes.take k)

/-- Every internal node was made from the two smallest of the collection: LEFT the smallest, RIGHT the smallest of the
others (R162, R163, R164). -/
def MergesTwoSmallest (nodes : List Node) : Prop :=
  ∀ (k : Nat) (f : NodeFreq) (l r : NodeIdx), nodes[k]? = some (Node.internal f l r) →
    LiveAt nodes k l.toNat ∧ LiveAt nodes k r.toNat ∧ l ≠ r ∧
      (∀ i, LiveAt nodes k i → i ≠ l.toNat → KeyLt nodes l.toNat i) ∧
      (∀ i, LiveAt nodes k i → i ≠ l.toNat → i ≠ r.toNat → KeyLt nodes r.toNat i)

/-- A node memory that R161 to R164 allow for a frequency table: one leaf per key in ascending order of symbol value, then
n - 1 internal nodes, each the parent of the two smallest of the collection and with the sum of their FREQ, whatever
realises the collection (R169). -/
structure GreedyTree (freq : Table Word) (nodes : List Node) : Prop where
  leaves : nodes.take (keySymbols freq).length = (keySymbols freq).map fun y => Node.leaf y ((freq.entry y).setWidth 40)
  inner : ∀ (k : Nat) (n : Node), (keySymbols freq).length ≤ k → nodes[k]? = some n →
    ∃ (l r : NodeIdx) (a b : Node), nodeAt nodes l = some a ∧ nodeAt nodes r = some b ∧
      n = Node.internal (a.freq + b.freq) l r
  merges : MergesTwoSmallest nodes
  length : nodes.length = 2 * (keySymbols freq).length - 1

/-- The bit string by which tree mode reaches symbol `y` (R217): the path to its leaf; for a tree that is one leaf, the
one-bit string "0". -/
def TreeCode (nodes : List Node) (root : NodeIdx) (p : Bits) (y : Byte) : Prop :=
  match nodeAt nodes root with
  | some (.leaf s _) => p = [false] ∧ y = s
  | _ => LeadsTo nodes root p y

/-- No code is a prefix of another symbol's code (spec/00_scope.md glossary, "Prefix-free code"). -/
def PrefixFree (code : Table Bits) : Prop :=
  ∀ s t, s ≠ t → code.entry s ≠ [] → ¬ code.entry s <+: code.entry t

/-- The set of non-empty codes is empty, or the single code "0" of one symbol, or a prefix-free set of at least two
(R39 (c)). -/
def CodeSetInv (code : Table Bits) : Prop :=
  (∀ s, code.entry s = []) ∨
  (∃ s, code.entry s = [false] ∧ ∀ t, t ≠ s → code.entry t = []) ∨
  ((∃ s t, s ≠ t ∧ code.entry s ≠ [] ∧ code.entry t ≠ []) ∧ PrefixFree code)

/-- BLEN and PAD describe the present container (R39 (e)). -/
def UnpackedInv (s : State) : Prop :=
  s.cont.head? = some s.pad ∧ s.pad.toNat ≤ 8 * (s.cont.length - 1) ∧
    s.blen.toNat = 8 * (s.cont.length - 1) - s.pad.toNat

/-- The invariants that hold in every reachable state (R39), and the ranges of the parameters, of BLEN and of the code
lengths (R5, R29, R34). -/
structure BlockInv (s : State) : Prop where
  cfg : s.cfg.WellFormed
  /-- (a) -/
  memory : Memory.wf s = true
  /-- (b) -/
  tree : TreeInv s.node s.root
  /-- (c) -/
  codes : CodeSetInv s.code
  /-- LEN ≤ CODE_MAXLEN (R34) -/
  code_length : ∀ y, (s.code.entry y).length ≤ Config.codeMaxLen
  /-- (d) -/
  einfo : s.err = .none → s.einfo = 0
  /-- (e) -/
  unpacked : s.bvalid = true → UnpackedInv s
  /-- BLEN < 2^30 (R29) -/
  blen : s.blen.toNat < 1073741824

/-- No command has failed since the last CLR or reset (R25, R265). -/
def NoFailureRecorded (s : State) : Prop := s.esticky = false

/-- The symbols of a text all have a code (R194 (a) cannot occur). -/
def AllCoded (code : Table Bits) (text : List Byte) : Prop := ∀ y ∈ text, code.entry y ≠ []

/-- The Encoded Bitstream of a text: the symbols' codes in order (R191). -/
def codesOf (code : Table Bits) (text : List Byte) : Bits := text.flatMap code.entry

/-- A location that exists (R61): node indices below NODE_CAP, buffer positions below the capacities. -/
def Loc.valid (c : Config) : Loc → Bool
  | .reg _ => true
  | .freq _ => true
  | .codeLen _ => true
  | .codeBits _ _ => true
  | .node i _ => decide (i.toNat < Config.nodeCap)
  | .text i => decide (i < c.textCap)
  | .cont i => decide (i < c.contCap)

/-- A location of the TEXT or CONT window. -/
def Loc.isText : Loc → Bool
  | .text _ => true
  | _ => false

def Loc.isCont : Loc → Bool
  | .cont _ => true
  | _ => false

/-- A location of the FREQ, CODE or NODE window. -/
def Loc.isTable : Loc → Bool
  | .freq _ => true
  | .codeLen _ => true
  | .codeBits _ _ => true
  | .node _ _ => true
  | _ => false

/-- A register or window a write to which is refused (R66). -/
def Loc.readOnly : Loc → Bool
  | .reg .cmd => false
  | .reg .tlen => false
  | .reg .clen => false
  | .reg _ => true
  | .freq _ => false
  | .codeLen _ => true
  | .codeBits _ _ => true
  | .node _ _ => true
  | .text _ => false
  | .cont _ => false

/-- A read is answered with buserror (R262 (a), (b), (d), (e)). -/
def ReadRefused (s : State) (a : Addr) : Prop :=
  a.toNat % 4 ≠ 0 ∨ (∀ l : Loc, l.valid s.cfg = true → l.addr ≠ a) ∨
    ∃ l : Loc, l.valid s.cfg = true ∧ l.addr = a ∧
      ((∃ i f, l = .node i f ∧ s.nnodes ≤ i.toNat) ∨ (∃ i, l = .text i ∧ s.tlen ≤ i) ∨ (∃ i, l = .cont i ∧ s.clen ≤ i))

/-- A write is answered with buserror (R262 (a), (b), (c), (f), (g)). -/
def WriteRefused (s : State) (a : Addr) (v : Word) : Prop :=
  a.toNat % 4 ≠ 0 ∨ (∀ l : Loc, l.valid s.cfg = true → l.addr ≠ a) ∨
    ∃ l : Loc, l.valid s.cfg = true ∧ l.addr = a ∧
      (l.readOnly = true ∨ (∃ i, l = .text i ∧ s.tlen < i) ∨ (∃ i, l = .cont i ∧ s.clen < i) ∨
        (l = .reg .tlen ∧ s.tlen < v.toNat) ∨ (l = .reg .clen ∧ s.clen < v.toNat))

/-- CODE is the table GEN produces from the present tree (R218). -/
def CodeMatchesTree (s : State) : Prop := s.code = genTable s.node s.root

end Sys2Proof.Machine
end

