-- ==== Sys2Proof/Certificates/Slice0/Obligations.lean ====
section
/-! DEFINITION. The statements for the provers, from the numbered rules of spec/. `s.bus` holds the transactions the host
still has to issue and `s.resp` the response of the last one (R62, R85; how they are held is the model's choice, log 1 and
log 11). -/

open Sys2Proof Sys2Proof.Machine

/-! ### Command words -/

/-- R101, R102: every command, in either mode, is read back from its word. -/
def Obligations.DecodeOfEncode : Prop :=
  ∀ i : Instr, i.WellFormed → decodeWord (encode i) = .ok i

/-- R101: the legal command words are exactly these twelve, each with its one command. -/
def Obligations.LegalWordsAreExactlyTwelve : Prop :=
  ∀ (w : Word) (i : Instr), decodeWord w = .ok i ↔
    (w, i) ∈ [(0x00000000#32, Instr.nop), (0x00000001#32, .clr), (0x00000002#32, .count), (0x00000003#32, .build),
      (0x00000004#32, .gen), (0x00000005#32, .pack), (0x00000006#32, .unpack), (0x00000007#32, .decode .table),
      (0x00000107#32, .decode .tree), (0x00000008#32, .compress), (0x00000009#32, .decompress .table),
      (0x00000109#32, .decompress .tree)]

/-- R101, R102: the twelve words written out from the encoding table, and the command each stands for. -/
def Obligations.SampleCommandWordsDecode : Prop :=
  decodeWord 0x00000000 = .ok .nop ∧ decodeWord 0x00000001 = .ok .clr ∧ decodeWord 0x00000002 = .ok .count ∧
  decodeWord 0x00000003 = .ok .build ∧ decodeWord 0x00000004 = .ok .gen ∧ decodeWord 0x00000005 = .ok .pack ∧
  decodeWord 0x00000006 = .ok .unpack ∧ decodeWord 0x00000007 = .ok (.decode .table) ∧
  decodeWord 0x00000107 = .ok (.decode .tree) ∧ decodeWord 0x00000008 = .ok .compress ∧
  decodeWord 0x00000009 = .ok (.decompress .table) ∧ decodeWord 0x00000109 = .ok (.decompress .tree)

/-- R130, R131: a write to CMD executes the command its word encodes, completely, with the response ok whatever becomes of
the command; the host's later actions are untouched (the model's queue, log 1). -/
def Obligations.StepRunsDecodedCommand : Prop :=
  ∀ (s : State) (w : Word) (rest : List HostAction) (i : Instr),
    s.bus = .write 0x4 w :: rest → decodeWord w = .ok i →
      step s = exec i { s with bus := rest, resp := some .ok } ∧
      ∃ t, step s = .next t ∧ t.resp = some .ok ∧ t.bus = rest

/-- The command word that `withFetchWord` hands to the host is the next one executed, as the decoder reads it (R130, R131;
the host's queue is the model's choice, log 1). -/
def Obligations.FetchWordIsNextCommand : Prop :=
  ∀ (s : State) (w : Nat) (i : Instr), decodeTableWord 32 w = some i →
    step (s.withFetchWord 32 w) = exec i { s with resp := some .ok }

/-- R103, R132, R258: a word with OP 0x0A to 0xFF, or ZERO not 0, or MODE = 1 with an OP other than 0x07 and 0x09 is
illegal, and changes nothing but STATUS and EINFO. -/
def Obligations.IllegalWordIsRecorded : Prop :=
  ∀ (s : State) (w : Word) (rest : List HostAction),
    s.bus = .write 0x4 w :: rest →
    (0x0A ≤ w.toNat % 256 ∨ w.toNat / 512 ≠ 0 ∨
      (w.toNat / 256 % 2 = 1 ∧ w.toNat % 256 ≠ 7 ∧ w.toNat % 256 ≠ 9)) →
      step s = .next { s with
        bus := rest, resp := some .ok, lastop := w.setWidth 8, err := .illegalCmd, einfo := w, esticky := true }

/-! ### Control commands and COUNT -/

/-- R237: NOP changes nothing but LASTOP, ERR and EINFO. -/
def Obligations.NopResult : Prop :=
  ∀ s : State, exec .nop s = .next { s with lastop := 0x00, err := .none, einfo := 0 }

/-- R238: CLR brings the block to its reset state except that LASTOP = 0x01. -/
def Obligations.ClrResult : Prop :=
  ∀ s : State, exec .clr s = .next { State.resetWith s.cfg with lastop := 0x01, bus := s.bus, resp := s.resp }

/-- R150, R151: after COUNT, FREQ[y] is the number of positions that hold y, whatever FREQ held before, the entries sum to
TLEN, and nothing else changes. -/
def Obligations.CountResult : Prop :=
  ∀ s : State, s.cfg.WellFormed → Memory.wf s = true →
    ∃ f : Table Word,
      exec .count s = .next { s with freq := f, lastop := 0x02, err := .none, einfo := 0 } ∧
      (∀ y, (f.entry y).toNat = s.text.count y) ∧
      (symbols.map fun y => (f.entry y).toNat).sum = s.tlen

/-- R152: two texts that differ in the order of their positions only give the same FREQ. -/
def Obligations.CountOrderIndependent : Prop :=
  ∀ s t : State, s.text.Perm t.text →
    ∃ f : Table Word,
      exec .count s = .next { s with freq := f, lastop := 0x02, err := .none, einfo := 0 } ∧
      exec .count t = .next { t with freq := f, lastop := 0x02, err := .none, einfo := 0 }

/-! ### BUILD -/

/-- R161: one leaf per key, in ascending order of symbol value, at indices 0 to n - 1; the nodes from n on are internal. -/
def Obligations.BuildLeavesAscending : Prop :=
  ∀ s : State, ∃ (nodes : List Node) (root : NodeIdx),
    exec .build s = .next { s with node := nodes, root := root, lastop := 0x03, err := .none, einfo := 0 } ∧
    let keys := symbols.filter fun y => decide (s.freq.entry y ≠ 0)
    nodes.take keys.length = keys.map (fun y => Node.leaf y ((s.freq.entry y).setWidth 40)) ∧
    ∀ (k : Nat) (n : Node), keys.length ≤ k → nodes[k]? = some n → n.kind = true

/-- R162, R163, R164: each of the n - 1 internal nodes was made from the two smallest keys of the collection, the smallest
LEFT, the second RIGHT, with the sum of their FREQ; so LEFT's FREQ is not greater than RIGHT's. -/
def Obligations.BuildMergesTwoSmallest : Prop :=
  ∀ s : State, ∃ (nodes : List Node) (root : NodeIdx),
    exec .build s = .next { s with node := nodes, root := root, lastop := 0x03, err := .none, einfo := 0 } ∧
    MergesTwoSmallest nodes ∧
    (nodes.filter Node.kind).length = (symbols.filter fun y => decide (s.freq.entry y ≠ 0)).length - 1 ∧
    ∀ (k : Nat) (f : NodeFreq) (l r : NodeIdx), nodes[k]? = some (Node.internal f l r) →
      f.toNat = freqAt nodes l.toNat + freqAt nodes r.toNat ∧ freqAt nodes l.toNat ≤ freqAt nodes r.toNat

/-- R165: for n ≥ 1 keys NNODES = 2n - 1, ROOT = 2n - 2, the root's FREQ is the sum of all FREQ entries, and every node
but the root is the child of exactly one internal node, which has a larger index. -/
def Obligations.BuildTotals : Prop :=
  ∀ s : State, ∃ (nodes : List Node) (root : NodeIdx),
    exec .build s = .next { s with node := nodes, root := root, lastop := 0x03, err := .none, einfo := 0 } ∧
    let n := (symbols.filter fun y => decide (s.freq.entry y ≠ 0)).length
    1 ≤ n →
      nodes.length = 2 * n - 1 ∧ root.toNat = 2 * n - 2 ∧
      (∀ (k : Nat) (m : Node), nodes[k]? = some m → (m.kind = false ↔ k < n)) ∧
      freqAt nodes root.toNat = (symbols.map fun y => (s.freq.entry y).toNat).sum ∧
      (childIndices nodes).Perm (List.range (2 * n - 2)) ∧
      ∀ (k : Nat) (m : Node), nodes[k]? = some m → ∀ j ∈ m.children, j < k

/-- R166, R167: with one key the tree is that one leaf; with none it is empty, and BUILD succeeds. -/
def Obligations.BuildOneOrNoSymbol : Prop :=
  (∀ (s : State) (y : Byte), s.freq.entry y ≠ 0 → (∀ z, z ≠ y → s.freq.entry z = 0) →
    exec .build s = .next { s with
      node := [Node.leaf y ((s.freq.entry y).setWidth 40)], root := 0, lastop := 0x03, err := .none, einfo := 0 }) ∧
  ∀ s : State, (∀ y, s.freq.entry y = 0) →
    exec .build s = .next { s with node := [], root := 0, lastop := 0x03, err := .none, einfo := 0 }

/-- R168 (a) to (e): the shape of every tree BUILD produces. -/
def Obligations.BuildShape : Prop :=
  ∀ s : State, ∃ (nodes : List Node) (root : NodeIdx),
    exec .build s = .next { s with node := nodes, root := root, lastop := 0x03, err := .none, einfo := 0 } ∧
    TreeInv nodes root ∧
    (∀ y, y ∈ leafSymbols nodes ↔ s.freq.entry y ≠ 0) ∧
    ∀ (p : Bits) (j : NodeIdx), follow nodes root p = some j → p.length ≤ (leafSymbols nodes).length - 1

/-- R169: whatever realises the collection, a node memory that obeys R161 to R164 is the one BUILD writes. -/
def Obligations.AnyRealisationBuildsTheSameTree : Prop :=
  ∀ (s : State) (nodes : List Node), GreedyTree s.freq nodes →
    ∃ root : NodeIdx,
      exec .build s = .next { s with node := nodes, root := root, lastop := 0x03, err := .none, einfo := 0 }

/-! ### GEN -/

/-- R181: in a tree of two or more leaves, the code of a symbol is the path from the root to its leaf. -/
def Obligations.GenCodesAreTreePaths : Prop :=
  ∀ s : State, TreeInv s.node s.root → 3 ≤ s.nnodes →
    ∃ code : Table Bits,
      exec .gen s = .next { s with code := code, lastop := 0x04, err := .none, einfo := 0 } ∧
      ∀ (y : Byte) (p : Bits), code.entry y = p ∧ p ≠ [] ↔ LeadsTo s.node s.root p y

/-- R182, R183: a tree that is one leaf gives its symbol the code "0"; the empty tree gives no code. -/
def Obligations.GenOneLeafOrNoLeaf : Prop :=
  (∀ (s : State) (y : Byte) (f : NodeFreq), nodeAt s.node s.root = some (.leaf y f) →
    ∃ code : Table Bits,
      exec .gen s = .next { s with code := code, lastop := 0x04, err := .none, einfo := 0 } ∧
      code.entry y = [false] ∧ ∀ z, z ≠ y → code.entry z = []) ∧
  ∀ s : State, s.node = [] →
    ∃ code : Table Bits,
      exec .gen s = .next { s with code := code, lastop := 0x04, err := .none, einfo := 0 } ∧ ∀ y, code.entry y = []

/-- R184: (a) a symbol has a code exactly when a leaf carries it; (b) codes are distinct; (c) with two or more leaves the
codes are prefix-free and (d) complete, and with one leaf the only code is "0" and none begins with 1; (e) every code length is 1 to 255. -/
def Obligations.GenTableProperties : Prop :=
  ∀ s : State, TreeInv s.node s.root →
    ∃ code : Table Bits,
      exec .gen s = .next { s with code := code, lastop := 0x04, err := .none, einfo := 0 } ∧
      (∀ y, code.entry y ≠ [] ↔ y ∈ leafSymbols s.node) ∧
      (∀ y z, y ≠ z → code.entry y ≠ [] → code.entry y ≠ code.entry z) ∧
      (2 ≤ (leafSymbols s.node).length → PrefixFree code) ∧
      (2 ≤ (leafSymbols s.node).length → ∀ g : Nat → Bool,
        ∃ y, (code.entry y ≠ [] ∧ code.entry y = (List.range (code.entry y).length).map g) ∧
          ∀ z, code.entry z ≠ [] → code.entry z = (List.range (code.entry z).length).map g → z = y) ∧
      ((leafSymbols s.node).length = 1 → ∀ y, (code.entry y ≠ [] → code.entry y = [false]) ∧
        (code.entry y).head? ≠ some true) ∧
      ∀ y, code.entry y ≠ [] → 1 ≤ (code.entry y).length ∧ (code.entry y).length ≤ 255

/-- R185: after GEN the Reverse Code Table gives back the symbol of every code, and nothing for any other bit string. -/
def Obligations.ReverseTableInvertsCodes : Prop :=
  ∀ s t : State, TreeInv s.node s.root → exec .gen s = .next t →
    (∀ y, t.code.entry y ≠ [] → rev t.code (t.code.entry y) = some y) ∧
    ∀ p, (∀ y, t.code.entry y ≠ [] → t.code.entry y ≠ p) → rev t.code p = none

/-! ### PACK -/

/-- R191, R192, R193: when every symbol has a code and the container fits, PACK writes the header, the codes in original
order and 8 - (L mod 8) zero bits, most significant bit first, and clears BVALID. -/
def Obligations.PackResult : Prop :=
  ∀ s : State, s.cfg.WellFormed → AllCoded s.code s.text → 2 + (codesOf s.code s.text).length / 8 ≤ s.cfg.contCap →
    ∃ (c : List Byte) (len : Word) (pad : Byte),
      exec .pack s = .next { s with
        cont := c, blen := len, pad := pad, bvalid := false, lastop := 0x05, err := .none, einfo := 0 } ∧
      len.toNat = (codesOf s.code s.text).length ∧
      pad.toNat = 8 - (codesOf s.code s.text).length % 8 ∧
      c.head? = some pad ∧
      bitsOfBytes c.tail = codesOf s.code s.text ++ List.replicate pad.toNat false ∧
      c.length = 2 + (codesOf s.code s.text).length / 8

/-- R194, R254, R255: the first position whose symbol has no code, or after whose code the container would not fit, ends
PACK; the missing code is checked first; there is no other failure. -/
def Obligations.PackFailures : Prop :=
  (∀ (s : State) (pre post : List Byte) (y : Byte),
    s.cfg.WellFormed → Memory.wf s = true → s.text = pre ++ y :: post → AllCoded s.code pre →
    2 + (codesOf s.code pre).length / 8 ≤ s.cfg.contCap →
      (s.code.entry y = [] →
        exec .pack s = .next { s with
          lastop := 0x05, err := .missingSymbol, einfo := BitVec.ofNat 32 (y.toNat * 16777216 + pre.length),
          esticky := true }) ∧
      (s.code.entry y ≠ [] → s.cfg.contCap < 2 + (codesOf s.code (pre ++ [y])).length / 8 →
        exec .pack s = .next { s with
          lastop := 0x05, err := .contOverflow, einfo := BitVec.ofNat 32 pre.length, esticky := true })) ∧
  ∀ s t : State, exec .pack s = .next t → t.err = .none ∨ t.err = .missingSymbol ∨ t.err = .contOverflow

/-- R195: the empty text gives the container 08 00, whatever the tables hold. -/
def Obligations.PackEmptyText : Prop :=
  ∀ s : State, s.text = [] →
    exec .pack s = .next { s with
      cont := [0x08, 0x00], blen := 0, pad := 8, bvalid := false, lastop := 0x05, err := .none, einfo := 0 }

/-- R196 (a), (b), (c): after a successful PACK the header is 1 to 8, the bits after it are BLEN + PAD, and the last PAD of
them are 0. -/
def Obligations.PackContainerBounds : Prop :=
  ∀ s t : State, s.cfg.WellFormed → exec .pack s = .next t → t.err = .none →
    t.cont.head? = some t.pad ∧ 1 ≤ t.pad.toNat ∧ t.pad.toNat ≤ 8 ∧ 2 ≤ t.clen ∧
    8 * (t.clen - 1) = t.blen.toNat + t.pad.toNat ∧
    (bitsOfBytes t.cont).drop (8 + t.blen.toNat) = List.replicate t.pad.toNat false

/-! ### UNPACK and DECODE -/

/-- R205, R206: the two malformed containers, and what UNPACK writes otherwise. -/
def Obligations.UnpackResult : Prop :=
  ∀ s : State, s.cfg.WellFormed → Memory.wf s = true →
    (s.cont = [] → exec .unpack s = .next { s with
      lastop := 0x06, err := .malformedContainer, einfo := 0, esticky := true }) ∧
    ∀ (h : Byte) (rest : List Byte), s.cont = h :: rest →
      (8 * rest.length < h.toNat → exec .unpack s = .next { s with
        lastop := 0x06, err := .malformedContainer, einfo := BitVec.ofNat 32 (h.toNat * 256 + 1), esticky := true }) ∧
      (h.toNat ≤ 8 * rest.length → ∃ len : Word,
        len.toNat = 8 * rest.length - h.toNat ∧
        exec .unpack s = .next { s with
          pad := h, blen := len, bvalid := true, lastop := 0x06, err := .none, einfo := 0 })

/-- R208: UNPACK after a successful PACK succeeds, writes the same BLEN and PAD, and the bitstream it leaves is the codes of
the text. -/
def Obligations.UnpackInvertsPack : Prop :=
  ∀ s t : State, s.cfg.WellFormed → exec .pack s = .next t → t.err = .none →
    ∃ u, exec .unpack t = .next u ∧ u.err = .none ∧ u.blen = t.blen ∧ u.pad = t.pad ∧ u.bvalid = true ∧
      encodedBits u = codesOf s.code s.text

/-- R219 (a), R257: DECODE while BVALID = 0 fails with E_SEQUENCE, before anything else. -/
def Obligations.DecodeNeedsUnpack : Prop :=
  ∀ (s : State) (m : Mode), s.bvalid = false →
    exec (.decode m) s = .next { s with lastop := 0x07, err := .sequence, einfo := 0, esticky := true }

/-- R216, R219 (c), R253: in table mode a bitstream that is the codes of `text` and then a leftover that no code starts
decodes to `text` when the leftover is empty, and otherwise fails with the offset of the leftover. -/
def Obligations.DecodeTableResult : Prop :=
  ∀ (s : State) (text : List Byte) (tail : Bits),
    s.bvalid = true → CodeSetInv s.code → AllCoded s.code text → text.length ≤ s.cfg.textCap →
    encodedBits s = codesOf s.code text ++ tail → (∀ y, s.code.entry y ≠ [] → ¬ s.code.entry y <+: tail) →
      (tail = [] → exec (.decode .table) s = .next { s with text := text, lastop := 0x07, err := .none, einfo := 0 }) ∧
      (tail ≠ [] → exec (.decode .table) s = .next { s with
        lastop := 0x07, err := .undecodableTail, einfo := BitVec.ofNat 32 (codesOf s.code text).length, esticky := true })

/-- R219 (b), R256: one symbol more than TEXT_CAP fails with the offset of its code: in table mode by the codes of CODE, in
tree mode by the bit strings of the present tree (R217), whatever CODE holds. -/
def Obligations.DecodeTextOverflow : Prop :=
  (∀ (s : State) (text : List Byte) (y : Byte) (rest : Bits),
    s.bvalid = true → CodeSetInv s.code → AllCoded s.code (text ++ [y]) → text.length = s.cfg.textCap →
    encodedBits s = codesOf s.code text ++ (s.code.entry y ++ rest) →
      exec (.decode .table) s = .next { s with
        lastop := 0x07, err := .textOverflow, einfo := BitVec.ofNat 32 (codesOf s.code text).length, esticky := true }) ∧
  ∀ (s : State) (text : List Byte) (ps : List Bits) (y : Byte) (p rest : Bits),
    s.bvalid = true → TreeInv s.node s.root → List.Forall₂ (TreeCode s.node s.root) ps text →
    TreeCode s.node s.root p y → text.length = s.cfg.textCap → encodedBits s = ps.flatten ++ (p ++ rest) →
      exec (.decode .tree) s = .next { s with
        lastop := 0x07, err := .textOverflow, einfo := BitVec.ofNat 32 ps.flatten.length, esticky := true }

/-- R217: in tree mode a bitstream that is the tree's bit strings of `text` and then a leftover that none of them starts
decodes to `text` when the leftover is empty, and otherwise fails with the offset of the leftover; the code table is not
read. -/
def Obligations.DecodeTreeResult : Prop :=
  ∀ (s : State) (text : List Byte) (ps : List Bits) (tail : Bits),
    s.bvalid = true → TreeInv s.node s.root → List.Forall₂ (TreeCode s.node s.root) ps text →
    text.length ≤ s.cfg.textCap → encodedBits s = ps.flatten ++ tail →
    (∀ p y, TreeCode s.node s.root p y → ¬ p <+: tail) →
      (tail = [] → exec (.decode .tree) s = .next { s with text := text, lastop := 0x07, err := .none, einfo := 0 }) ∧
      (tail ≠ [] → exec (.decode .tree) s = .next { s with
        lastop := 0x07, err := .undecodableTail, einfo := BitVec.ofNat 32 ps.flatten.length, esticky := true })

/-- R218: when CODE is the table GEN produces from the present tree, the two modes have the same outcome on every
container. -/
def Obligations.DecodeModesAgree : Prop :=
  ∀ s : State, TreeInv s.node s.root → CodeMatchesTree s →
    exec (.decode .table) s = exec (.decode .tree) s ∧ exec (.decompress .table) s = exec (.decompress .tree) s

/-! ### COMPRESS and DECOMPRESS -/

/-- R235: COMPRESS is COUNT, BUILD, GEN and PACK in this order, except for LASTOP. -/
def Obligations.CompressIsFourCommands : Prop :=
  ∀ s a b c d : State,
    exec .count s = .next a → exec .build a = .next b → exec .gen b = .next c → exec .pack c = .next d →
      exec .compress s = .next { d with lastop := 0x08 }

/-- R197, R251: COMPRESS fails with E_CONT_OVERFLOW only. -/
def Obligations.CompressOnlyOverflows : Prop :=
  ∀ s t : State, s.cfg.WellFormed → Memory.wf s = true → exec .compress s = .next t →
    t.err = .none ∨ t.err = .contOverflow

/-- R308, R150, R235: where CONT_CAP holds the worst case, COMPRESS succeeds; it leaves the text and BVALID = 0. -/
def Obligations.CompressCompletes : Prop :=
  ∀ s : State, s.cfg.WellFormed → Memory.wf s = true → 2 + 255 * s.tlen / 8 ≤ s.cfg.contCap →
    ∃ t, exec .compress s = .next t ∧ t.err = .none ∧ t.einfo = 0 ∧ t.lastop = 0x08 ∧ t.esticky = s.esticky ∧
      t.bvalid = false ∧ t.cfg = s.cfg ∧ t.text = s.text ∧ t.bus = s.bus ∧ t.resp = s.resp ∧
      (∀ y, (t.freq.entry y).toNat = s.text.count y) ∧ TreeInv t.node t.root ∧ CodeMatchesTree t ∧
      AllCoded t.code s.text ∧ t.blen.toNat = (codesOf t.code s.text).length ∧
      (bitsOfBytes t.cont).drop 8 = codesOf t.code s.text ++ List.replicate t.pad.toNat false ∧
      t.cont.head? = some t.pad

/-- R236: DECOMPRESS is UNPACK and, if it succeeded, DECODE with the same mode, except for LASTOP. -/
def Obligations.DecompressIsUnpackThenDecode : Prop :=
  ∀ (s t : State) (m : Mode), exec .unpack s = .next t →
    (t.err ≠ .none → exec (.decompress m) s = .next { t with lastop := 0x09 }) ∧
    (t.err = .none → ∀ u, exec (.decode m) t = .next u → exec (.decompress m) s = .next { u with lastop := 0x09 }) ∧
    ∀ u, exec (.decompress m) s = .next u → u.err ≠ .sequence

/-- R236, R205, R216, R217: DECOMPRESS of a container whose header fits writes the text whose codes are its bitstream, where
the text fits: in table mode by the codes of CODE, in tree mode by the bit strings of the present tree, whatever CODE
holds. -/
def Obligations.DecompressCompletes : Prop :=
  ∀ (s : State) (h : Byte) (rest text : List Byte),
    s.cfg.WellFormed → Memory.wf s = true → s.cont = h :: rest → h.toNat ≤ 8 * rest.length →
    text.length ≤ s.cfg.textCap →
      (CodeSetInv s.code → AllCoded s.code text →
        (bitsOfBytes rest).take (8 * rest.length - h.toNat) = codesOf s.code text →
          exec (.decompress .table) s = .next { s with
            pad := h, blen := BitVec.ofNat 32 (8 * rest.length - h.toNat), bvalid := true, text := text,
            lastop := 0x09, err := .none, einfo := 0 }) ∧
      ∀ ps : List Bits, TreeInv s.node s.root → List.Forall₂ (TreeCode s.node s.root) ps text →
        (bitsOfBytes rest).take (8 * rest.length - h.toNat) = ps.flatten →
          exec (.decompress .tree) s = .next { s with
            pad := h, blen := BitVec.ofNat 32 (8 * rest.length - h.toNat), bvalid := true, text := text,
            lastop := 0x09, err := .none, einfo := 0 }

/-- R221: if COMPRESS of a text succeeded, DECOMPRESS in either mode, from any state with the same parameters, container,
code table and tree, succeeds and leaves that text. -/
def Obligations.RoundTrip : Prop :=
  ∀ (s t u : State) (m : Mode),
    s.cfg.WellFormed → Memory.wf s = true → exec .compress s = .next t → t.err = .none →
    u.cfg = t.cfg → u.cont = t.cont → u.code = t.code → u.node = t.node → u.root = t.root →
      ∃ v, exec (.decompress m) u = .next v ∧ v.err = .none ∧ v.text = s.text ∧ v.tlen = s.tlen

/-- R138: COMPRESS leaves the same FREQ, NODE, CODE and, where it succeeds, the same container whatever the rest of the state
was. -/
def Obligations.SameTextSameContainer : Prop :=
  ∀ s s' t t' : State, s.text = s'.text → s.cfg = s'.cfg → exec .compress s = .next t → exec .compress s' = .next t' →
    t.freq = t'.freq ∧ t.node = t'.node ∧ t.root = t'.root ∧ t.code = t'.code ∧ t.err = t'.err ∧ t.einfo = t'.einfo ∧
      (t.err = .none → t.cont = t'.cont ∧ t.blen = t'.blen ∧ t.pad = t'.pad)

/-! ### Every command -/

/-- R133, R134: how every command leaves LASTOP, ERR, EINFO and ESTICKY. -/
def Obligations.StatusAfterCommand : Prop :=
  ∀ (i : Instr) (s : State), ∃ t, exec i s = .next t ∧ t.lastop = (encode i).setWidth 8 ∧
    (t.err = .none → t.einfo = 0 ∧ (i ≠ .clr → t.esticky = s.esticky) ∧ (i = .clr → t.esticky = false)) ∧
    (t.err ≠ .none → t.esticky = true) ∧ t.cfg = s.cfg ∧ t.bus = s.bus ∧ t.resp = s.resp

/-- R134, R135, R235, R236: a failed command leaves FREQ, NODE, ROOT, CODE, TEXT, CONT, BLEN, PAD and BVALID as they were;
COMPRESS keeps the tables of its steps that succeeded, DECOMPRESS what its UNPACK step wrote. -/
def Obligations.FailedCommandKeepsEverything : Prop :=
  ∀ (i : Instr) (s t : State), exec i s = .next t → t.err ≠ .none →
    (t.text = s.text ∧ t.cont = s.cont) ∧
    ((∀ m, i ≠ .decompress m) → t.blen = s.blen ∧ t.pad = s.pad ∧ t.bvalid = s.bvalid) ∧
    (i ≠ .compress → t.freq = s.freq ∧ t.node = s.node ∧ t.root = s.root ∧ t.code = s.code) ∧
    (i = .compress → ∃ a b c, exec .count s = .next a ∧ exec .build a = .next b ∧ exec .gen b = .next c ∧
      t.freq = c.freq ∧ t.node = c.node ∧ t.root = c.root ∧ t.code = c.code) ∧
    (∀ m, i = .decompress m → ∃ a, exec .unpack s = .next a ∧ t.blen = a.blen ∧ t.pad = a.pad ∧ t.bvalid = a.bvalid)

/-- R136: no command reads ERR, ESTICKY, LASTOP or EINFO: from two states that differ in them only, every command leaves
states that differ in ESTICKY only. -/
def Obligations.CommandsIgnoreStatus : Prop :=
  ∀ (i : Instr) (s t : State) (e : ErrCode) (b : Bool) (l : Byte) (x : Word),
    exec i s = .next t →
      ∃ b', exec i { s with err := e, esticky := b, lastop := l, einfo := x } = .next { t with esticky := b' }

/-- The frame of the commands (what R150, R160, R180, R190, R205, R215, R235 and R236 do not write): NOP, COUNT, BUILD, GEN and UNPACK store no buffer byte; PACK stores to CONT only and
DECODE to TEXT only, and neither touches a table. Said through the host's reads. -/
def Obligations.CommandStoresNothingElse : Prop :=
  ∀ (i : Instr) (s t : State) (a : Addr) (l : Loc), exec i s = .next t → locate s.cfg a = .ok l →
    (i ∈ [Instr.nop, .count, .build, .gen, .unpack] → l.isText = true ∨ l.isCont = true → busRead t a = busRead s a) ∧
    (i = .pack → l.isText = true ∨ l.isTable = true → busRead t a = busRead s a) ∧
    (∀ m, i = .decode m ∨ i = .decompress m → l.isCont = true ∨ l.isTable = true → busRead t a = busRead s a) ∧
    (i = .compress → l.isText = true → busRead t a = busRead s a) ∧
    (i = .count → l.isTable = true → (∀ y, l ≠ .freq y) → busRead t a = busRead s a) ∧
    (i = .build → l.isTable = true → (∀ j f, l ≠ .node j f) → busRead t a = busRead s a) ∧
    (i = .gen → l.isTable = true → (∀ y, l ≠ .codeLen y) → (∀ y w, l ≠ .codeBits y w) → busRead t a = busRead s a)

/-! ### The machine -/

/-- R25: only a successful UNPACK (alone or within DECOMPRESS) sets BVALID, and only reset, CLR, a successful PACK (alone or
within COMPRESS) and an accepted host write to the CONT window or to CLEN clear it. -/
def Obligations.WhatChangesBvalid : Prop :=
  ∀ s t : State, step s = .next t →
    (s.bvalid = false → t.bvalid = true →
      ∃ w rest, s.bus = .write 0x4 w :: rest ∧
        ((decodeWord w = .ok .unpack ∧ t.err = .none) ∨
          ∃ m, decodeWord w = .ok (.decompress m) ∧ t.err ≠ .malformedContainer)) ∧
    (s.bvalid = true → t.bvalid = false →
      ∃ a rest, s.bus = a :: rest ∧
        (a = .reset ∨
          (∃ w, a = .write 0x4 w ∧ (decodeWord w = .ok .clr ∨
            (decodeWord w = .ok .pack ∨ decodeWord w = .ok .compress) ∧ t.err = .none)) ∨
          (∃ x v, a = .write x v ∧ t.resp = some .ok ∧ (x = 0x14 ∨ 0x2000000 ≤ x.toNat))))

/-- R33, R34: NODE changes only by BUILD, COMPRESS (whose second step is BUILD), CLR and reset; CODE only by GEN, COMPRESS
(whose third step is GEN), CLR and reset. -/
def Obligations.TreeAndCodesHaveOneWriter : Prop :=
  ∀ s t : State, step s = .next t →
    (t.node ≠ s.node ∨ t.root ≠ s.root → ∃ a rest, s.bus = a :: rest ∧ (a = .reset ∨ ∃ w, a = .write 0x4 w ∧
      (decodeWord w = .ok .build ∨ decodeWord w = .ok .compress ∨ decodeWord w = .ok .clr))) ∧
    (t.code ≠ s.code → ∃ a rest, s.bus = a :: rest ∧ (a = .reset ∨ ∃ w, a = .write 0x4 w ∧
      (decodeWord w = .ok .gen ∨ decodeWord w = .ok .compress ∨ decodeWord w = .ok .clr)))

/-- R310, R62: every step completes, and serves the host's oldest action with a response; the parameters never change. With no
transaction to come the block keeps all state (R269; log 9). -/
def Obligations.StepAlwaysCompletes : Prop :=
  ∀ s : State, ∃ t, step s = .next t ∧ t.cfg = s.cfg ∧
    (s.bus = [] → t = s) ∧
    (∀ a rest, s.bus = .read a :: rest → t.bus = rest ∧ ((∃ d, t.resp = some (.data d)) ∨ t.resp = some .buserror)) ∧
    (∀ a v rest, s.bus = .write a v :: rest → t.bus = rest ∧ (t.resp = some .ok ∨ t.resp = some .buserror))

/-- R39: from every state that meets the invariants, a step gives a state that meets them. -/
def Obligations.StepKeepsInvariant : Prop :=
  ∀ s t : State, BlockInv s → step s = .next t → BlockInv t

/-- R39, R40: the reset state meets the invariants, for every choice of the parameters and for the chip's. -/
def Obligations.ResetMeetsInvariant : Prop :=
  (∀ c : Config, c.WellFormed → BlockInv (State.resetWith c)) ∧ BlockInv State.reset

/-- R40: what the host reads after reset. -/
def Obligations.ResetValues : Prop :=
  ∀ c : Config, c.WellFormed →
    let s := State.resetWith c
    busRead s 0x00 = .ok 0x48554631 ∧ busRead s 0x04 = .ok 0 ∧ busRead s 0x08 = .ok 0 ∧ busRead s 0x0C = .ok 0 ∧
    busRead s 0x10 = .ok 0 ∧ busRead s 0x14 = .ok 0 ∧ busRead s 0x18 = .ok 0 ∧ busRead s 0x1C = .ok 0 ∧
    busRead s 0x20 = .ok 0 ∧ busRead s 0x24 = .ok 0 ∧ busRead s 0x28 = .ok (BitVec.ofNat 32 c.textCap) ∧
    busRead s 0x2C = .ok (BitVec.ofNat 32 c.contCap) ∧
    ∀ (a : Addr) (l : Loc), locate c a = .ok l →
      (l.isText = true ∨ l.isCont = true ∨ (∃ i f, l = .node i f) → busRead s a = .error .outOfRange) ∧
      ((∃ y, l = .freq y) ∨ (∃ y, l = .codeLen y) ∨ (∃ y w, l = .codeBits y w) → busRead s a = .ok 0)

/-- R290: reset gives the reset state for the same parameters. The host's later actions stand (the model's choice, log
10). -/
def Obligations.ResetAction : Prop :=
  ∀ (s : State) (rest : List HostAction), s.bus = .reset :: rest →
    step s = .next { State.resetWith s.cfg with bus := rest }

/-! ### The bus -/

/-- R61: an address is mapped to a location exactly when it is the address of that location and the location exists; so no
two locations share an address. -/
def Obligations.AddressMap : Prop :=
  ∀ (c : Config) (a : Addr) (l : Loc), c.WellFormed → (locate c a = .ok l ↔ l.valid c = true ∧ l.addr = a)

/-- R62, R63, R65, R66, R262: a transaction is answered with buserror exactly in the listed cases, and then nothing of the
block changes; an accepted read is answered with the data of its location (R67, R69 to R73), and it changes nothing of the
block either. -/
def Obligations.BusErrorExactly : Prop :=
  ∀ (s : State) (a : Addr) (rest : List HostAction), s.cfg.WellFormed →
    (s.bus = .read a :: rest →
      (ReadRefused s a → step s = .next { s with bus := rest, resp := some .buserror }) ∧
      (¬ ReadRefused s a → ∃ d, busRead s a = .ok d ∧ step s = .next { s with bus := rest, resp := some (.data d) })) ∧
    ∀ v, s.bus = .write a v :: rest →
      (WriteRefused s a v → step s = .next { s with bus := rest, resp := some .buserror }) ∧
      (¬ WriteRefused s a v → ∃ t, step s = .next t ∧ t.resp = some .ok)

/-- R23, R24, R26 to R29, R31, R32, R37, R67: what a read of each register returns. -/
def Obligations.RegisterReads : Prop :=
  ∀ s : State,
    busRead s 0x00 = .ok 0x48554631 ∧ busRead s 0x04 = .ok 0 ∧ busRead s 0x0C = .ok s.einfo ∧
    busRead s 0x10 = .ok (BitVec.ofNat 32 s.text.length) ∧ busRead s 0x14 = .ok (BitVec.ofNat 32 s.cont.length) ∧
    busRead s 0x18 = .ok s.blen ∧ busRead s 0x1C = .ok (BitVec.ofNat 32 s.pad.toNat) ∧
    busRead s 0x20 = .ok (BitVec.ofNat 32 s.node.length) ∧ busRead s 0x24 = .ok (BitVec.ofNat 32 s.root.toNat) ∧
    busRead s 0x28 = .ok (BitVec.ofNat 32 s.cfg.textCap) ∧ busRead s 0x2C = .ok (BitVec.ofNat 32 s.cfg.contCap)

/-- R25, R251: the fields of the STATUS word. -/
def Obligations.StatusLayout : Prop :=
  ∀ s : State, ∃ d, busRead s 0x08 = .ok d ∧
    d.toNat % 16 = (match s.err with
      | .none => 0 | .malformedContainer => 1 | .undecodableTail => 2 | .missingSymbol => 3
      | .contOverflow => 4 | .textOverflow => 5 | .sequence => 6 | .illegalCmd => 7) ∧
    d.getLsbD 4 = s.esticky ∧ d.getLsbD 5 = s.bvalid ∧ d.toNat / 64 % 4 = 0 ∧
    d.toNat / 256 % 256 = s.lastop.toNat ∧ d.toNat / 65536 = 0

/-- R72: the TEXT window reads the valid symbols, and a write replaces one, appends one, or is answered with buserror. -/
def Obligations.TextWindow : Prop :=
  ∀ (s : State) (i : Nat) (rest : List HostAction), s.cfg.WellFormed → i < s.cfg.textCap →
    let a := BitVec.ofNat 26 (0x1000000 + 4 * i)
    (∀ b, s.text[i]? = some b → busRead s a = .ok (b.setWidth 32)) ∧
    (s.text.length ≤ i → busRead s a = .error .outOfRange) ∧
    ∀ v, s.bus = .write a v :: rest →
      (i < s.text.length → step s = .next { s with
        bus := rest, resp := some .ok, text := s.text.take i ++ v.setWidth 8 :: s.text.drop (i + 1) }) ∧
      (i = s.text.length → step s = .next { s with bus := rest, resp := some .ok, text := s.text ++ [v.setWidth 8] }) ∧
      (s.text.length < i → step s = .next { s with bus := rest, resp := some .buserror })

/-- R73: the CONT window reads the valid bytes, and a write replaces one, appends one, or is answered with buserror; an
accepted write clears BVALID. -/
def Obligations.ContWindow : Prop :=
  ∀ (s : State) (i : Nat) (rest : List HostAction), s.cfg.WellFormed → i < s.cfg.contCap →
    let a := BitVec.ofNat 26 (0x2000000 + 4 * i)
    (∀ b, s.cont[i]? = some b → busRead s a = .ok (b.setWidth 32)) ∧
    (s.cont.length ≤ i → busRead s a = .error .outOfRange) ∧
    ∀ v, s.bus = .write a v :: rest →
      (i < s.cont.length → step s = .next { s with
        bus := rest, resp := some .ok, bvalid := false,
        cont := s.cont.take i ++ v.setWidth 8 :: s.cont.drop (i + 1) }) ∧
      (i = s.cont.length → step s = .next { s with
        bus := rest, resp := some .ok, bvalid := false, cont := s.cont ++ [v.setWidth 8] }) ∧
      (s.cont.length < i → step s = .next { s with bus := rest, resp := some .buserror })

/-- R68 (b), (c): a write to TLEN or CLEN can only truncate, and an accepted one to CLEN clears BVALID. -/
def Obligations.LengthRegisters : Prop :=
  ∀ (s : State) (v : Word) (rest : List HostAction),
    (s.bus = .write 0x10 v :: rest →
      (v.toNat ≤ s.text.length → step s = .next { s with bus := rest, resp := some .ok, text := s.text.take v.toNat }) ∧
      (s.text.length < v.toNat → step s = .next { s with bus := rest, resp := some .buserror })) ∧
    (s.bus = .write 0x14 v :: rest →
      (v.toNat ≤ s.cont.length → step s = .next { s with
        bus := rest, resp := some .ok, bvalid := false, cont := s.cont.take v.toNat }) ∧
      (s.cont.length < v.toNat → step s = .next { s with bus := rest, resp := some .buserror }))

/-- R69: the FREQ window reads and writes one entry and nothing else. -/
def Obligations.FreqWindow : Prop :=
  ∀ (s : State) (y : Byte),
    let a := BitVec.ofNat 26 (0x400 + 4 * y.toNat)
    busRead s a = .ok (s.freq.entry y) ∧
    ∀ v rest, s.bus = .write a v :: rest →
      ∃ f : Table Word, step s = .next { s with bus := rest, resp := some .ok, freq := f } ∧
        f.entry y = v ∧ ∀ z, z ≠ y → f.entry z = s.freq.entry z

/-- R70, R71: the CODE window reads LEN and the code bits, the first in bit 0 of word 0 and 0 at and above LEN; the NODE
window reads the four words of a valid node. -/
def Obligations.CodeAndNodeWindows : Prop :=
  (∀ (s : State) (y : Byte), (s.code.entry y).length ≤ 255 →
    busRead s (BitVec.ofNat 26 (0x1000 + 0x40 * y.toNat)) = .ok (BitVec.ofNat 32 (s.code.entry y).length) ∧
    ∀ w, w < 8 → ∃ d : Word,
      busRead s (BitVec.ofNat 26 (0x1000 + 0x40 * y.toNat + 0x20 + 4 * w)) = .ok d ∧
      ∀ b, b < 32 → d.getLsbD b = ((s.code.entry y)[32 * w + b]?).getD false) ∧
  ∀ (s : State) (i : Nat), i < 511 →
    (∀ n, s.node[i]? = some n → ∃ w0 w1 w2 w3 : Word,
      busRead s (BitVec.ofNat 26 (0x8000 + 0x10 * i)) = .ok w0 ∧
      busRead s (BitVec.ofNat 26 (0x8000 + 0x10 * i + 4)) = .ok w1 ∧
      busRead s (BitVec.ofNat 26 (0x8000 + 0x10 * i + 8)) = .ok w2 ∧
      busRead s (BitVec.ofNat 26 (0x8000 + 0x10 * i + 12)) = .ok w3 ∧
      w1.toNat + 4294967296 * w2.toNat = n.freq.toNat ∧
      (∀ y f, n = Node.leaf y f → w0.toNat = y.toNat ∧ w3 = 0) ∧
      ∀ f l r, n = Node.internal f l r → w0 = 0x100 ∧ w3.toNat = l.toNat + 65536 * r.toNat) ∧
    (s.node.length ≤ i → ∀ f, f < 4 → busRead s (BitVec.ofNat 26 (0x8000 + 0x10 * i + 4 * f)) = .error .outOfRange)

/-- R67, R69, R72 to R74: a store changes what the host reads at the stored location and nowhere else, but for the length
register of a buffer that grows or shrinks, the positions a shorter length no longer holds, and STATUS after a write to
CONT or CLEN. -/
def Obligations.StoreLeavesOtherLocations : Prop :=
  ∀ (s t : State) (a b : Addr) (v : Word) (rest : List HostAction) (l k : Loc),
    s.cfg.WellFormed → s.bus = .write a v :: rest → locate s.cfg a = .ok l → l ≠ .reg .cmd → locate s.cfg b = .ok k →
    b ≠ a → step s = .next t →
      (l.isText = true → k ≠ .reg .tlen → busRead t b = busRead s b) ∧
      (l.isCont = true → k ≠ .reg .clen → k ≠ .reg .status → busRead t b = busRead s b) ∧
      (l = .reg .tlen → (∀ i, k = .text i → i < v.toNat) → busRead t b = busRead s b) ∧
      (l = .reg .clen → k ≠ .reg .status → (∀ i, k = .cont i → i < v.toNat) → busRead t b = busRead s b) ∧
      ((∃ y, l = .freq y) ∨ l.readOnly = true → busRead t b = busRead s b)

/-- R80, R82: the first bit of a byte is bit 7, and container bit t is bit (7 - t mod 8) of CONT[t div 8]. -/
def Obligations.ContainerBitOrder : Prop :=
  (∀ b0 b1 b2 b3 b4 b5 b6 b7 : Bool, bitsOfBytes (bytesOfBits [b0, b1, b2, b3, b4, b5, b6, b7]) =
    [b0, b1, b2, b3, b4, b5, b6, b7] ∧
    (bytesOfBits [b0, b1, b2, b3, b4, b5, b6, b7]).map BitVec.toNat =
      [b0.toNat * 128 + b1.toNat * 64 + b2.toNat * 32 + b3.toNat * 16 + b4.toNat * 8 + b5.toNat * 4 + b6.toNat * 2 +
        b7.toNat]) ∧
  (∀ (bs : List Byte) (t : Nat) (b : Byte), bs[t / 8]? = some b → (bitsOfBytes bs)[t]? = some (b.getLsbD (7 - t % 8))) ∧
  ∀ (s : State) (j : Nat), j < s.blen.toNat → (encodedBits s)[j]? = (bitsOfBytes s.cont)[8 + j]?
end

