-- ==== Sys2Proof/Laws/Bits.lean ====
section
/-! SUPPORT. Bytes and their bits (spec/20_memory.md R80, R82): the two directions are inverse, and the lengths. -/

namespace Sys2Proof.Machine

theorem bitsOfByte_byteOfBits (b0 b1 b2 b3 b4 b5 b6 b7 : Bool) :
    bitsOfByte (byteOfBits b0 b1 b2 b3 b4 b5 b6 b7) = [b0, b1, b2, b3, b4, b5, b6, b7] := by
  cases b0 <;> cases b1 <;> cases b2 <;> cases b3 <;> cases b4 <;> cases b5 <;> cases b6 <;> cases b7 <;> decide

@[simp] theorem bitsOfByte_length (b : Byte) : (bitsOfByte b).length = 8 := rfl

@[simp] theorem bitsOfBytes_nil : bitsOfBytes [] = [] := rfl

@[simp] theorem bitsOfBytes_cons (b : Byte) (bs : List Byte) : bitsOfBytes (b :: bs) = bitsOfByte b ++ bitsOfBytes bs := rfl

@[simp] theorem bitsOfBytes_length (bs : List Byte) : (bitsOfBytes bs).length = 8 * bs.length := by
  induction bs with
  | nil => rfl
  | cons b bs ih => simp [ih]; omega

/-- The header byte's eight bits are container bits 0 to 7 (R82). -/
@[simp] theorem bitsOfBytes_cons_drop (b : Byte) (bs : List Byte) : (bitsOfBytes (b :: bs)).drop 8 = bitsOfBytes bs := by
  rw [bitsOfBytes_cons, List.drop_left' (bitsOfByte_length b)]

/-- Expanding packed bytes gives the bits back when they fill whole bytes. -/
theorem bitsOfBytes_bytesOfBits (bits : Bits) (h : bits.length % 8 = 0) : bitsOfBytes (bytesOfBits bits) = bits := by
  induction bits using bytesOfBits.induct with
  | case1 b0 b1 b2 b3 b4 b5 b6 b7 rest ih =>
    simp only [List.length_cons] at h
    rw [bytesOfBits, bitsOfBytes_cons, ih (by omega), bitsOfByte_byteOfBits]
    rfl
  | case2 bits hne =>
    match bits, h, hne with
    | [], _, _ => simp [bytesOfBits]
    | [_], h, _ | [_, _], h, _ | [_, _, _], h, _ | [_, _, _, _], h, _ | [_, _, _, _, _], h, _
    | [_, _, _, _, _, _], h, _ | [_, _, _, _, _, _, _], h, _ => simp at h
    | b0 :: b1 :: b2 :: b3 :: b4 :: b5 :: b6 :: b7 :: rest, _, hne => exact absurd rfl (hne b0 b1 b2 b3 b4 b5 b6 b7 rest)

theorem bytesOfBits_length (bits : Bits) (h : bits.length % 8 = 0) : (bytesOfBits bits).length = bits.length / 8 := by
  have := congrArg List.length (bitsOfBytes_bytesOfBits bits h)
  rw [bitsOfBytes_length] at this
  omega

/-- Container bit t is bit (7 - t mod 8) of byte t div 8 (R82). -/
theorem bitsOfBytes_getElem? (bs : List Byte) (t : Nat) :
    (bitsOfBytes bs)[t]? = bs[t / 8]?.map fun b => b.getLsbD (7 - t % 8) := by
  induction bs generalizing t with
  | nil => simp
  | cons b bs ih =>
    rw [bitsOfBytes_cons]
    by_cases ht : t < 8
    · rw [List.getElem?_append_left (by simpa using ht)]
      have h0 : t / 8 = 0 := by omega
      simp only [h0, List.getElem?_cons_zero, Option.map_some]
      have : t = 0 ∨ t = 1 ∨ t = 2 ∨ t = 3 ∨ t = 4 ∨ t = 5 ∨ t = 6 ∨ t = 7 := by omega
      rcases this with h | h | h | h | h | h | h | h <;> subst h <;> rfl
    · rw [List.getElem?_append_right (by simpa using Nat.le_of_not_lt ht), bitsOfByte_length, ih]
      have h1 : t / 8 = (t - 8) / 8 + 1 := by omega
      have h2 : (t - 8) % 8 = t % 8 := by omega
      rw [h1, List.getElem?_cons_succ, h2]

/-- A concatenation as a number, its right part in the low bits. -/
theorem toNat_append_add {n m : Nat} (x : BitVec n) (y : BitVec m) : (x ++ y).toNat = x.toNat * 2 ^ m + y.toNat := by
  rw [BitVec.toNat_append, ← Nat.shiftLeft_add_eq_or_of_lt y.isLt, Nat.shiftLeft_eq]

/-- Bit b of word w of CODE[s].BITS is code bit 32w + b, 0 at and above LEN (R70). -/
theorem codeWord_getLsbD (p : Bits) (w : Nat) {b : Nat} (hb : b < 32) :
    (codeWord p w).getLsbD b = (p[32 * w + b]?).getD false := by
  unfold codeWord
  simp only [BitVec.getLsbD_setWidth, hb, decide_true, Bool.true_and, BitVec.getLsbD_ofBoolListLE]
  rw [List.getD_eq_getElem?_getD, List.getElem?_take, if_pos hb, List.getElem?_drop]

@[simp] theorem codeWord_nil (w : Nat) : codeWord [] w = 0 := by
  apply BitVec.eq_of_getLsbD_eq
  intro i hi
  rw [codeWord_getLsbD _ _ hi]
  simp

end Sys2Proof.Machine
end

