-- ==== Sys2Proof/Laws/State.lean ====
section
/-! SUPPORT. One lemma per field per named update of the state, so that no proof unfolds a record update. -/

namespace Sys2Proof.Machine

@[simp] theorem State.succeed_cfg (op : Byte) (s : State) : (s.succeed op).cfg = s.cfg := rfl
@[simp] theorem State.succeed_err (op : Byte) (s : State) : (s.succeed op).err = ErrCode.none := rfl
@[simp] theorem State.succeed_esticky (op : Byte) (s : State) : (s.succeed op).esticky = s.esticky := rfl
@[simp] theorem State.succeed_bvalid (op : Byte) (s : State) : (s.succeed op).bvalid = s.bvalid := rfl
@[simp] theorem State.succeed_lastop (op : Byte) (s : State) : (s.succeed op).lastop = op := rfl
@[simp] theorem State.succeed_einfo (op : Byte) (s : State) : (s.succeed op).einfo = 0 := rfl
@[simp] theorem State.succeed_blen (op : Byte) (s : State) : (s.succeed op).blen = s.blen := rfl
@[simp] theorem State.succeed_pad (op : Byte) (s : State) : (s.succeed op).pad = s.pad := rfl
@[simp] theorem State.succeed_root (op : Byte) (s : State) : (s.succeed op).root = s.root := rfl
@[simp] theorem State.succeed_freq (op : Byte) (s : State) : (s.succeed op).freq = s.freq := rfl
@[simp] theorem State.succeed_node (op : Byte) (s : State) : (s.succeed op).node = s.node := rfl
@[simp] theorem State.succeed_code (op : Byte) (s : State) : (s.succeed op).code = s.code := rfl
@[simp] theorem State.succeed_text (op : Byte) (s : State) : (s.succeed op).text = s.text := rfl
@[simp] theorem State.succeed_cont (op : Byte) (s : State) : (s.succeed op).cont = s.cont := rfl
@[simp] theorem State.succeed_bus (op : Byte) (s : State) : (s.succeed op).bus = s.bus := rfl
@[simp] theorem State.succeed_resp (op : Byte) (s : State) : (s.succeed op).resp = s.resp := rfl

@[simp] theorem State.fail_cfg (op : Byte) (f : Failure) (s : State) : (s.fail op f).cfg = s.cfg := rfl
@[simp] theorem State.fail_err (op : Byte) (f : Failure) (s : State) : (s.fail op f).err = f.err := rfl
@[simp] theorem State.fail_esticky (op : Byte) (f : Failure) (s : State) : (s.fail op f).esticky = true := rfl
@[simp] theorem State.fail_bvalid (op : Byte) (f : Failure) (s : State) : (s.fail op f).bvalid = s.bvalid := rfl
@[simp] theorem State.fail_lastop (op : Byte) (f : Failure) (s : State) : (s.fail op f).lastop = op := rfl
@[simp] theorem State.fail_einfo (op : Byte) (f : Failure) (s : State) : (s.fail op f).einfo = f.info := rfl
@[simp] theorem State.fail_blen (op : Byte) (f : Failure) (s : State) : (s.fail op f).blen = s.blen := rfl
@[simp] theorem State.fail_pad (op : Byte) (f : Failure) (s : State) : (s.fail op f).pad = s.pad := rfl
@[simp] theorem State.fail_root (op : Byte) (f : Failure) (s : State) : (s.fail op f).root = s.root := rfl
@[simp] theorem State.fail_freq (op : Byte) (f : Failure) (s : State) : (s.fail op f).freq = s.freq := rfl
@[simp] theorem State.fail_node (op : Byte) (f : Failure) (s : State) : (s.fail op f).node = s.node := rfl
@[simp] theorem State.fail_code (op : Byte) (f : Failure) (s : State) : (s.fail op f).code = s.code := rfl
@[simp] theorem State.fail_text (op : Byte) (f : Failure) (s : State) : (s.fail op f).text = s.text := rfl
@[simp] theorem State.fail_cont (op : Byte) (f : Failure) (s : State) : (s.fail op f).cont = s.cont := rfl
@[simp] theorem State.fail_bus (op : Byte) (f : Failure) (s : State) : (s.fail op f).bus = s.bus := rfl
@[simp] theorem State.fail_resp (op : Byte) (f : Failure) (s : State) : (s.fail op f).resp = s.resp := rfl

@[simp] theorem State.illegal_cfg (w : Word) (s : State) : (s.illegal w).cfg = s.cfg := rfl
@[simp] theorem State.illegal_err (w : Word) (s : State) : (s.illegal w).err = ErrCode.illegalCmd := rfl
@[simp] theorem State.illegal_esticky (w : Word) (s : State) : (s.illegal w).esticky = true := rfl
@[simp] theorem State.illegal_bvalid (w : Word) (s : State) : (s.illegal w).bvalid = s.bvalid := rfl
@[simp] theorem State.illegal_lastop (w : Word) (s : State) : (s.illegal w).lastop = w.extractLsb' 0 8 := rfl
@[simp] theorem State.illegal_einfo (w : Word) (s : State) : (s.illegal w).einfo = w := rfl
@[simp] theorem State.illegal_blen (w : Word) (s : State) : (s.illegal w).blen = s.blen := rfl
@[simp] theorem State.illegal_pad (w : Word) (s : State) : (s.illegal w).pad = s.pad := rfl
@[simp] theorem State.illegal_root (w : Word) (s : State) : (s.illegal w).root = s.root := rfl
@[simp] theorem State.illegal_freq (w : Word) (s : State) : (s.illegal w).freq = s.freq := rfl
@[simp] theorem State.illegal_node (w : Word) (s : State) : (s.illegal w).node = s.node := rfl
@[simp] theorem State.illegal_code (w : Word) (s : State) : (s.illegal w).code = s.code := rfl
@[simp] theorem State.illegal_text (w : Word) (s : State) : (s.illegal w).text = s.text := rfl
@[simp] theorem State.illegal_cont (w : Word) (s : State) : (s.illegal w).cont = s.cont := rfl
@[simp] theorem State.illegal_bus (w : Word) (s : State) : (s.illegal w).bus = s.bus := rfl
@[simp] theorem State.illegal_resp (w : Word) (s : State) : (s.illegal w).resp = s.resp := rfl

@[simp] theorem State.contChanged_cfg (s : State) (cont : List Byte) : (s.contChanged cont).cfg = s.cfg := rfl
@[simp] theorem State.contChanged_err (s : State) (cont : List Byte) : (s.contChanged cont).err = s.err := rfl
@[simp] theorem State.contChanged_esticky (s : State) (cont : List Byte) : (s.contChanged cont).esticky = s.esticky := rfl
@[simp] theorem State.contChanged_bvalid (s : State) (cont : List Byte) : (s.contChanged cont).bvalid = false := rfl
@[simp] theorem State.contChanged_lastop (s : State) (cont : List Byte) : (s.contChanged cont).lastop = s.lastop := rfl
@[simp] theorem State.contChanged_einfo (s : State) (cont : List Byte) : (s.contChanged cont).einfo = s.einfo := rfl
@[simp] theorem State.contChanged_blen (s : State) (cont : List Byte) : (s.contChanged cont).blen = s.blen := rfl
@[simp] theorem State.contChanged_pad (s : State) (cont : List Byte) : (s.contChanged cont).pad = s.pad := rfl
@[simp] theorem State.contChanged_root (s : State) (cont : List Byte) : (s.contChanged cont).root = s.root := rfl
@[simp] theorem State.contChanged_freq (s : State) (cont : List Byte) : (s.contChanged cont).freq = s.freq := rfl
@[simp] theorem State.contChanged_node (s : State) (cont : List Byte) : (s.contChanged cont).node = s.node := rfl
@[simp] theorem State.contChanged_code (s : State) (cont : List Byte) : (s.contChanged cont).code = s.code := rfl
@[simp] theorem State.contChanged_text (s : State) (cont : List Byte) : (s.contChanged cont).text = s.text := rfl
@[simp] theorem State.contChanged_cont (s : State) (cont : List Byte) : (s.contChanged cont).cont = cont := rfl
@[simp] theorem State.contChanged_bus (s : State) (cont : List Byte) : (s.contChanged cont).bus = s.bus := rfl
@[simp] theorem State.contChanged_resp (s : State) (cont : List Byte) : (s.contChanged cont).resp = s.resp := rfl

@[simp] theorem State.respond_cfg (r : Response) (s : State) : (s.respond r).cfg = s.cfg := rfl
@[simp] theorem State.respond_err (r : Response) (s : State) : (s.respond r).err = s.err := rfl
@[simp] theorem State.respond_esticky (r : Response) (s : State) : (s.respond r).esticky = s.esticky := rfl
@[simp] theorem State.respond_bvalid (r : Response) (s : State) : (s.respond r).bvalid = s.bvalid := rfl
@[simp] theorem State.respond_lastop (r : Response) (s : State) : (s.respond r).lastop = s.lastop := rfl
@[simp] theorem State.respond_einfo (r : Response) (s : State) : (s.respond r).einfo = s.einfo := rfl
@[simp] theorem State.respond_blen (r : Response) (s : State) : (s.respond r).blen = s.blen := rfl
@[simp] theorem State.respond_pad (r : Response) (s : State) : (s.respond r).pad = s.pad := rfl
@[simp] theorem State.respond_root (r : Response) (s : State) : (s.respond r).root = s.root := rfl
@[simp] theorem State.respond_freq (r : Response) (s : State) : (s.respond r).freq = s.freq := rfl
@[simp] theorem State.respond_node (r : Response) (s : State) : (s.respond r).node = s.node := rfl
@[simp] theorem State.respond_code (r : Response) (s : State) : (s.respond r).code = s.code := rfl
@[simp] theorem State.respond_text (r : Response) (s : State) : (s.respond r).text = s.text := rfl
@[simp] theorem State.respond_cont (r : Response) (s : State) : (s.respond r).cont = s.cont := rfl
@[simp] theorem State.respond_bus (r : Response) (s : State) : (s.respond r).bus = s.bus := rfl
@[simp] theorem State.respond_resp (r : Response) (s : State) : (s.respond r).resp = some r := rfl

@[simp] theorem State.taken_cfg (rest : List HostAction) (s : State) : (s.taken rest).cfg = s.cfg := rfl
@[simp] theorem State.taken_err (rest : List HostAction) (s : State) : (s.taken rest).err = s.err := rfl
@[simp] theorem State.taken_esticky (rest : List HostAction) (s : State) : (s.taken rest).esticky = s.esticky := rfl
@[simp] theorem State.taken_bvalid (rest : List HostAction) (s : State) : (s.taken rest).bvalid = s.bvalid := rfl
@[simp] theorem State.taken_lastop (rest : List HostAction) (s : State) : (s.taken rest).lastop = s.lastop := rfl
@[simp] theorem State.taken_einfo (rest : List HostAction) (s : State) : (s.taken rest).einfo = s.einfo := rfl
@[simp] theorem State.taken_blen (rest : List HostAction) (s : State) : (s.taken rest).blen = s.blen := rfl
@[simp] theorem State.taken_pad (rest : List HostAction) (s : State) : (s.taken rest).pad = s.pad := rfl
@[simp] theorem State.taken_root (rest : List HostAction) (s : State) : (s.taken rest).root = s.root := rfl
@[simp] theorem State.taken_freq (rest : List HostAction) (s : State) : (s.taken rest).freq = s.freq := rfl
@[simp] theorem State.taken_node (rest : List HostAction) (s : State) : (s.taken rest).node = s.node := rfl
@[simp] theorem State.taken_code (rest : List HostAction) (s : State) : (s.taken rest).code = s.code := rfl
@[simp] theorem State.taken_text (rest : List HostAction) (s : State) : (s.taken rest).text = s.text := rfl
@[simp] theorem State.taken_cont (rest : List HostAction) (s : State) : (s.taken rest).cont = s.cont := rfl
@[simp] theorem State.taken_bus (rest : List HostAction) (s : State) : (s.taken rest).bus = rest := rfl
@[simp] theorem State.taken_resp (rest : List HostAction) (s : State) : (s.taken rest).resp = s.resp := rfl

@[simp] theorem clrState_cfg (s : State) : (clrState s).cfg = s.cfg := rfl
@[simp] theorem clrState_err (s : State) : (clrState s).err = s.err := rfl
@[simp] theorem clrState_esticky (s : State) : (clrState s).esticky = false := rfl
@[simp] theorem clrState_bvalid (s : State) : (clrState s).bvalid = false := rfl
@[simp] theorem clrState_lastop (s : State) : (clrState s).lastop = s.lastop := rfl
@[simp] theorem clrState_einfo (s : State) : (clrState s).einfo = s.einfo := rfl
@[simp] theorem clrState_blen (s : State) : (clrState s).blen = 0 := rfl
@[simp] theorem clrState_pad (s : State) : (clrState s).pad = 0 := rfl
@[simp] theorem clrState_root (s : State) : (clrState s).root = 0 := rfl
@[simp] theorem clrState_freq (s : State) : (clrState s).freq = emptyFreq := rfl
@[simp] theorem clrState_node (s : State) : (clrState s).node = [] := rfl
@[simp] theorem clrState_code (s : State) : (clrState s).code = emptyCode := rfl
@[simp] theorem clrState_text (s : State) : (clrState s).text = [] := rfl
@[simp] theorem clrState_cont (s : State) : (clrState s).cont = [] := rfl
@[simp] theorem clrState_bus (s : State) : (clrState s).bus = s.bus := rfl
@[simp] theorem clrState_resp (s : State) : (clrState s).resp = s.resp := rfl

@[simp] theorem countState_cfg (s : State) : (countState s).cfg = s.cfg := rfl
@[simp] theorem countState_err (s : State) : (countState s).err = s.err := rfl
@[simp] theorem countState_esticky (s : State) : (countState s).esticky = s.esticky := rfl
@[simp] theorem countState_bvalid (s : State) : (countState s).bvalid = s.bvalid := rfl
@[simp] theorem countState_lastop (s : State) : (countState s).lastop = s.lastop := rfl
@[simp] theorem countState_einfo (s : State) : (countState s).einfo = s.einfo := rfl
@[simp] theorem countState_blen (s : State) : (countState s).blen = s.blen := rfl
@[simp] theorem countState_pad (s : State) : (countState s).pad = s.pad := rfl
@[simp] theorem countState_root (s : State) : (countState s).root = s.root := rfl
@[simp] theorem countState_freq (s : State) : (countState s).freq = countText s.text := rfl
@[simp] theorem countState_node (s : State) : (countState s).node = s.node := rfl
@[simp] theorem countState_code (s : State) : (countState s).code = s.code := rfl
@[simp] theorem countState_text (s : State) : (countState s).text = s.text := rfl
@[simp] theorem countState_cont (s : State) : (countState s).cont = s.cont := rfl
@[simp] theorem countState_bus (s : State) : (countState s).bus = s.bus := rfl
@[simp] theorem countState_resp (s : State) : (countState s).resp = s.resp := rfl

@[simp] theorem buildState_cfg (s : State) : (buildState s).cfg = s.cfg := rfl
@[simp] theorem buildState_err (s : State) : (buildState s).err = s.err := rfl
@[simp] theorem buildState_esticky (s : State) : (buildState s).esticky = s.esticky := rfl
@[simp] theorem buildState_bvalid (s : State) : (buildState s).bvalid = s.bvalid := rfl
@[simp] theorem buildState_lastop (s : State) : (buildState s).lastop = s.lastop := rfl
@[simp] theorem buildState_einfo (s : State) : (buildState s).einfo = s.einfo := rfl
@[simp] theorem buildState_blen (s : State) : (buildState s).blen = s.blen := rfl
@[simp] theorem buildState_pad (s : State) : (buildState s).pad = s.pad := rfl
@[simp] theorem buildState_root (s : State) : (buildState s).root = rootOf (buildTree s.freq) := rfl
@[simp] theorem buildState_freq (s : State) : (buildState s).freq = s.freq := rfl
@[simp] theorem buildState_node (s : State) : (buildState s).node = buildTree s.freq := rfl
@[simp] theorem buildState_code (s : State) : (buildState s).code = s.code := rfl
@[simp] theorem buildState_text (s : State) : (buildState s).text = s.text := rfl
@[simp] theorem buildState_cont (s : State) : (buildState s).cont = s.cont := rfl
@[simp] theorem buildState_bus (s : State) : (buildState s).bus = s.bus := rfl
@[simp] theorem buildState_resp (s : State) : (buildState s).resp = s.resp := rfl

@[simp] theorem genState_cfg (s : State) : (genState s).cfg = s.cfg := rfl
@[simp] theorem genState_err (s : State) : (genState s).err = s.err := rfl
@[simp] theorem genState_esticky (s : State) : (genState s).esticky = s.esticky := rfl
@[simp] theorem genState_bvalid (s : State) : (genState s).bvalid = s.bvalid := rfl
@[simp] theorem genState_lastop (s : State) : (genState s).lastop = s.lastop := rfl
@[simp] theorem genState_einfo (s : State) : (genState s).einfo = s.einfo := rfl
@[simp] theorem genState_blen (s : State) : (genState s).blen = s.blen := rfl
@[simp] theorem genState_pad (s : State) : (genState s).pad = s.pad := rfl
@[simp] theorem genState_root (s : State) : (genState s).root = s.root := rfl
@[simp] theorem genState_freq (s : State) : (genState s).freq = s.freq := rfl
@[simp] theorem genState_node (s : State) : (genState s).node = s.node := rfl
@[simp] theorem genState_code (s : State) : (genState s).code = genTable s.node s.root := rfl
@[simp] theorem genState_text (s : State) : (genState s).text = s.text := rfl
@[simp] theorem genState_cont (s : State) : (genState s).cont = s.cont := rfl
@[simp] theorem genState_bus (s : State) : (genState s).bus = s.bus := rfl
@[simp] theorem genState_resp (s : State) : (genState s).resp = s.resp := rfl

@[simp] theorem tablesState_cfg (s : State) : (tablesState s).cfg = s.cfg := rfl
@[simp] theorem tablesState_err (s : State) : (tablesState s).err = s.err := rfl
@[simp] theorem tablesState_esticky (s : State) : (tablesState s).esticky = s.esticky := rfl
@[simp] theorem tablesState_bvalid (s : State) : (tablesState s).bvalid = s.bvalid := rfl
@[simp] theorem tablesState_lastop (s : State) : (tablesState s).lastop = s.lastop := rfl
@[simp] theorem tablesState_einfo (s : State) : (tablesState s).einfo = s.einfo := rfl
@[simp] theorem tablesState_blen (s : State) : (tablesState s).blen = s.blen := rfl
@[simp] theorem tablesState_pad (s : State) : (tablesState s).pad = s.pad := rfl
@[simp] theorem tablesState_root (s : State) : (tablesState s).root = rootOf (buildTree (countText s.text)) := rfl
@[simp] theorem tablesState_freq (s : State) : (tablesState s).freq = countText s.text := rfl
@[simp] theorem tablesState_node (s : State) : (tablesState s).node = buildTree (countText s.text) := rfl
@[simp] theorem tablesState_code (s : State) : (tablesState s).code = genTable (buildTree (countText s.text)) (rootOf (buildTree (countText s.text))) := rfl
@[simp] theorem tablesState_text (s : State) : (tablesState s).text = s.text := rfl
@[simp] theorem tablesState_cont (s : State) : (tablesState s).cont = s.cont := rfl
@[simp] theorem tablesState_bus (s : State) : (tablesState s).bus = s.bus := rfl
@[simp] theorem tablesState_resp (s : State) : (tablesState s).resp = s.resp := rfl

@[simp] theorem State.resetWith_cfg (c : Config) : (State.resetWith c).cfg = c := rfl
@[simp] theorem State.resetWith_err (c : Config) : (State.resetWith c).err = ErrCode.none := rfl
@[simp] theorem State.resetWith_esticky (c : Config) : (State.resetWith c).esticky = false := rfl
@[simp] theorem State.resetWith_bvalid (c : Config) : (State.resetWith c).bvalid = false := rfl
@[simp] theorem State.resetWith_lastop (c : Config) : (State.resetWith c).lastop = 0 := rfl
@[simp] theorem State.resetWith_einfo (c : Config) : (State.resetWith c).einfo = 0 := rfl
@[simp] theorem State.resetWith_blen (c : Config) : (State.resetWith c).blen = 0 := rfl
@[simp] theorem State.resetWith_pad (c : Config) : (State.resetWith c).pad = 0 := rfl
@[simp] theorem State.resetWith_root (c : Config) : (State.resetWith c).root = 0 := rfl
@[simp] theorem State.resetWith_freq (c : Config) : (State.resetWith c).freq = emptyFreq := rfl
@[simp] theorem State.resetWith_node (c : Config) : (State.resetWith c).node = [] := rfl
@[simp] theorem State.resetWith_code (c : Config) : (State.resetWith c).code = emptyCode := rfl
@[simp] theorem State.resetWith_text (c : Config) : (State.resetWith c).text = [] := rfl
@[simp] theorem State.resetWith_cont (c : Config) : (State.resetWith c).cont = [] := rfl
@[simp] theorem State.resetWith_bus (c : Config) : (State.resetWith c).bus = [] := rfl
@[simp] theorem State.resetWith_resp (c : Config) : (State.resetWith c).resp = none := rfl

@[simp] theorem hostReset_cfg (s : State) : (hostReset s).cfg = s.cfg := rfl
@[simp] theorem hostReset_err (s : State) : (hostReset s).err = ErrCode.none := rfl
@[simp] theorem hostReset_esticky (s : State) : (hostReset s).esticky = false := rfl
@[simp] theorem hostReset_bvalid (s : State) : (hostReset s).bvalid = false := rfl
@[simp] theorem hostReset_lastop (s : State) : (hostReset s).lastop = 0 := rfl
@[simp] theorem hostReset_einfo (s : State) : (hostReset s).einfo = 0 := rfl
@[simp] theorem hostReset_blen (s : State) : (hostReset s).blen = 0 := rfl
@[simp] theorem hostReset_pad (s : State) : (hostReset s).pad = 0 := rfl
@[simp] theorem hostReset_root (s : State) : (hostReset s).root = 0 := rfl
@[simp] theorem hostReset_freq (s : State) : (hostReset s).freq = emptyFreq := rfl
@[simp] theorem hostReset_node (s : State) : (hostReset s).node = [] := rfl
@[simp] theorem hostReset_code (s : State) : (hostReset s).code = emptyCode := rfl
@[simp] theorem hostReset_text (s : State) : (hostReset s).text = [] := rfl
@[simp] theorem hostReset_cont (s : State) : (hostReset s).cont = [] := rfl
@[simp] theorem hostReset_bus (s : State) : (hostReset s).bus = s.bus := rfl
@[simp] theorem hostReset_resp (s : State) : (hostReset s).resp = none := rfl

@[simp] theorem State.withFetchWord_cfg (s : State) (nbits w : Nat) : (s.withFetchWord nbits w).cfg = s.cfg := rfl
@[simp] theorem State.withFetchWord_err (s : State) (nbits w : Nat) : (s.withFetchWord nbits w).err = s.err := rfl
@[simp] theorem State.withFetchWord_esticky (s : State) (nbits w : Nat) : (s.withFetchWord nbits w).esticky = s.esticky := rfl
@[simp] theorem State.withFetchWord_bvalid (s : State) (nbits w : Nat) : (s.withFetchWord nbits w).bvalid = s.bvalid := rfl
@[simp] theorem State.withFetchWord_lastop (s : State) (nbits w : Nat) : (s.withFetchWord nbits w).lastop = s.lastop := rfl
@[simp] theorem State.withFetchWord_einfo (s : State) (nbits w : Nat) : (s.withFetchWord nbits w).einfo = s.einfo := rfl
@[simp] theorem State.withFetchWord_blen (s : State) (nbits w : Nat) : (s.withFetchWord nbits w).blen = s.blen := rfl
@[simp] theorem State.withFetchWord_pad (s : State) (nbits w : Nat) : (s.withFetchWord nbits w).pad = s.pad := rfl
@[simp] theorem State.withFetchWord_root (s : State) (nbits w : Nat) : (s.withFetchWord nbits w).root = s.root := rfl
@[simp] theorem State.withFetchWord_freq (s : State) (nbits w : Nat) : (s.withFetchWord nbits w).freq = s.freq := rfl
@[simp] theorem State.withFetchWord_node (s : State) (nbits w : Nat) : (s.withFetchWord nbits w).node = s.node := rfl
@[simp] theorem State.withFetchWord_code (s : State) (nbits w : Nat) : (s.withFetchWord nbits w).code = s.code := rfl
@[simp] theorem State.withFetchWord_text (s : State) (nbits w : Nat) : (s.withFetchWord nbits w).text = s.text := rfl
@[simp] theorem State.withFetchWord_cont (s : State) (nbits w : Nat) : (s.withFetchWord nbits w).cont = s.cont := rfl
@[simp] theorem State.withFetchWord_bus (s : State) (nbits w : Nat) : (s.withFetchWord nbits w).bus = cmdWrite (BitVec.ofNat 32 (w % 2 ^ nbits)) :: s.bus := rfl
@[simp] theorem State.withFetchWord_resp (s : State) (nbits w : Nat) : (s.withFetchWord nbits w).resp = s.resp := rfl

end Sys2Proof.Machine
end

