-- ==== Sys2Proof/Laws/BitPacker.lean ====
section
/-! SUPPORT. PACK: when the encoding succeeds and with which bits, where it fails first, and the container
(spec/44_bit_packer.md R190 to R196). -/

namespace Sys2Proof.Machine

@[simp] theorem codesOf_nil (code : Table Bits) : codesOf code [] = [] := rfl

@[simp] theorem codesOf_cons (code : Table Bits) (y : Byte) (text : List Byte) :
    codesOf code (y :: text) = code.entry y ++ codesOf code text := rfl

@[simp] theorem codesOf_append (code : Table Bits) (a b : List Byte) :
    codesOf code (a ++ b) = codesOf code a ++ codesOf code b := by simp [codesOf]

/-- One position that has a code and fits (R190). -/
theorem packBits_cons {code : Table Bits} {cap i : Nat} {bits : Bits} {y : Byte} {text : List Byte}
    (hy : code.entry y ≠ []) (hfit : 2 + (bits ++ code.entry y).length / 8 ≤ cap) :
    packBits code cap i bits (y :: text) = packBits code cap (i + 1) (bits ++ code.entry y) text := by
  rw [packBits, if_neg hy]
  dsimp only
  rw [if_neg (by omega)]

/-- Positions that have codes and fit are encoded in order (R191). -/
theorem packBits_append {code : Table Bits} {cap : Nat} (pre : List Byte) {text : List Byte} (i : Nat) (bits : Bits)
    (hcoded : AllCoded code pre) (hfit : pre = [] ∨ 2 + (bits ++ codesOf code pre).length / 8 ≤ cap) :
    packBits code cap i bits (pre ++ text) = packBits code cap (i + pre.length) (bits ++ codesOf code pre) text := by
  induction pre generalizing i bits with
  | nil => simp
  | cons y pre ih =>
    have hfit : 2 + (bits ++ codesOf code (y :: pre)).length / 8 ≤ cap := hfit.resolve_left (by simp)
    rw [codesOf_cons, ← List.append_assoc] at hfit
    have hy : 2 + (bits ++ code.entry y).length / 8 ≤ cap := by
      rw [List.length_append] at hfit
      omega
    rw [List.cons_append, packBits_cons (hcoded y (by simp)) hy,
      ih (i + 1) (bits ++ code.entry y) (fun z hz => hcoded z (by simp [hz])) (.inr hfit), codesOf_cons, List.append_assoc]
    simp only [List.length_cons]
    rw [Nat.add_right_comm, Nat.add_assoc]

/-- Everything a successful encoding says (R190, R191). -/
theorem packBits_ok {code : Table Bits} {cap : Nat} {text : List Byte} (i : Nat) (bits b : Bits) :
    packBits code cap i bits text = .ok b ↔
      b = bits ++ codesOf code text ∧ AllCoded code text ∧ (text = [] ∨ 2 + b.length / 8 ≤ cap) := by
  induction text generalizing i bits with
  | nil =>
    simp only [packBits, Except.ok.injEq, codesOf_nil, List.append_nil]
    exact ⟨fun h => ⟨h.symm, by simp [AllCoded], .inl trivial⟩, fun h => h.1.symm⟩
  | cons y text ih =>
    rw [packBits]
    by_cases hy : code.entry y = []
    · rw [if_pos hy]
      constructor
      · intro h; cases h
      · rintro ⟨-, h, -⟩
        exact absurd hy (h y (by simp))
    · rw [if_neg hy]
      dsimp only
      by_cases hfit : 2 + (bits ++ code.entry y).length / 8 > cap
      · rw [if_pos hfit]
        constructor
        · intro h; cases h
        · rintro ⟨rfl, -, h⟩
          have h := h.resolve_left (by simp)
          rw [codesOf_cons, ← List.append_assoc, List.length_append] at h
          omega
      · rw [if_neg hfit, ih]
        simp only [codesOf_cons, List.append_assoc, AllCoded, List.mem_cons, forall_eq_or_imp, reduceCtorEq, false_or]
        constructor
        · rintro ⟨rfl, h2, h3⟩
          refine ⟨rfl, ⟨hy, h2⟩, ?_⟩
          rcases h3 with rfl | h3
          · simp only [codesOf_nil, List.append_nil]; omega
          · exact h3
        · rintro ⟨rfl, ⟨-, h2⟩, h3⟩
          exact ⟨rfl, h2, .inr h3⟩

/-- The first position without a code is reported (R194 (a)). -/
theorem packBits_missing {code : Table Bits} {cap : Nat} {pre post : List Byte} {y : Byte} (hcoded : AllCoded code pre)
    (hfit : pre = [] ∨ 2 + (codesOf code pre).length / 8 ≤ cap) (hy : code.entry y = []) :
    packBits code cap 0 [] (pre ++ y :: post) =
      .error { err := .missingSymbol, info := (y.setWidth 32 <<< 24) ||| BitVec.ofNat 32 pre.length } := by
  rw [packBits_append pre 0 [] hcoded (by simpa using hfit), packBits, if_pos hy, Nat.zero_add]

/-- The first position whose code does not fit is reported (R194 (b)). -/
theorem packBits_overflow {code : Table Bits} {cap : Nat} {pre post : List Byte} {y : Byte}
    (hcoded : AllCoded code (pre ++ [y])) (hfit : pre = [] ∨ 2 + (codesOf code pre).length / 8 ≤ cap)
    (hover : 2 + (codesOf code (pre ++ [y])).length / 8 > cap) :
    packBits code cap 0 [] (pre ++ y :: post) = .error { err := .contOverflow, info := BitVec.ofNat 32 pre.length } := by
  rw [packBits_append pre 0 [] (fun z hz => hcoded z (by simp [hz])) (by simpa using hfit), packBits,
    if_neg (hcoded y (by simp))]
  dsimp only
  rw [if_pos (by simpa using hover), Nat.zero_add]

/-! ### The container -/

theorem padding_range (n : Nat) : 1 ≤ padding n ∧ padding n ≤ 8 := by
  unfold padding
  omega

theorem padding_toNat (n : Nat) : (BitVec.ofNat 8 (padding n)).toNat = padding n := by
  have := padding_range n
  rw [BitVec.toNat_ofNat]
  exact Nat.mod_eq_of_lt (by omega)

theorem padded_mod (bits : Bits) : (bits ++ List.replicate (padding bits.length) false).length % 8 = 0 := by
  simp [padding]
  omega

/-- The container's bytes after the header hold the bits and the zero padding (R193). -/
theorem container_bits (bits : Bits) :
    bitsOfBytes (container bits).tail = bits ++ List.replicate (padding bits.length) false :=
  bitsOfBytes_bytesOfBits _ (padded_mod bits)

/-- CLEN = 2 + L div 8 (R193). -/
theorem container_length (bits : Bits) : (container bits).length = 2 + bits.length / 8 := by
  rw [container, List.length_cons, bytesOfBits_length _ (padded_mod bits)]
  simp [padding]
  omega

end Sys2Proof.Machine
end

