-- ==== Sys2Proof/Laws/Tables.lean ====
section
/-! SUPPORT. Tables indexed by symbol value: what an entry reads as after a write. -/

namespace Sys2Proof

theorem Table.entry_eq {α : Type} (t : Table α) (s : Byte) : t.entry s = t[s.toNat]'s.isLt := rfl

@[simp] theorem Table.entry_put_self {α : Type} (t : Table α) (s : Byte) (v : α) : (t.put s v).entry s = v := by
  simp [Table.entry_eq, Table.put]

theorem Table.entry_put_ne {α : Type} (t : Table α) {s y : Byte} (v : α) (h : y ≠ s) :
    (t.put s v).entry y = t.entry y := by
  have : s.toNat ≠ y.toNat := fun e => h (BitVec.eq_of_toNat_eq e.symm)
  simp [Table.entry_eq, Table.put, Vector.getElem_set_ne, this]

theorem Table.entry_put {α : Type} (t : Table α) (s y : Byte) (v : α) :
    (t.put s v).entry y = if y = s then v else t.entry y := by
  split
  · next h => subst h; simp
  · next h => exact t.entry_put_ne v h

/-- Two tables with the same entries are the same table. -/
theorem Table.ext_entry {α : Type} {t u : Table α} (h : ∀ s, t.entry s = u.entry s) : t = u := by
  apply Vector.ext
  intro i hi
  have := h (BitVec.ofNat 8 i)
  simpa [Table.entry_eq, Nat.mod_eq_of_lt hi] using this

namespace Machine

@[simp] theorem emptyFreq_entry (s : Byte) : emptyFreq.entry s = 0 := by simp [Table.entry_eq, emptyFreq]

@[simp] theorem emptyCode_entry (s : Byte) : emptyCode.entry s = [] := by simp [Table.entry_eq, emptyCode]

/-- Every symbol value is listed. -/
theorem mem_symbols (s : Byte) : s ∈ symbols := by
  refine List.mem_map.2 ⟨s.toNat, List.mem_range.2 s.isLt, ?_⟩
  simp

/-- No symbol value is listed twice. -/
theorem symbols_nodup : symbols.Nodup := by
  refine List.Nodup.map_on ?_ List.nodup_range
  intro a ha b hb h
  have := congrArg BitVec.toNat h
  simpa [Nat.mod_eq_of_lt (List.mem_range.1 ha), Nat.mod_eq_of_lt (List.mem_range.1 hb)] using this

@[simp] theorem symbols_length : symbols.length = 256 := by simp [symbols]

/-- The lookup finds only symbols with that code, and only for a non-empty bit string (R34). -/
theorem rev_some {code : Table Bits} {p : Bits} {s : Byte} (h : rev code p = some s) :
    p ≠ [] ∧ code.entry s = p := by
  unfold rev at h
  split at h
  · cases h
  · next hp => exact ⟨hp, by simpa using List.find?_some h⟩

/-- The lookup finds a symbol exactly when some symbol has that code. -/
theorem rev_eq_none {code : Table Bits} {p : Bits} (hp : p ≠ []) :
    rev code p = none ↔ ∀ s, code.entry s ≠ p := by
  simp [rev, hp, mem_symbols]

/-- Where no other symbol has the same code, the lookup inverts the table (R185). -/
theorem rev_entry {code : Table Bits} {s : Byte} (hs : code.entry s ≠ [])
    (huniq : ∀ t, code.entry t = code.entry s → t = s) : rev code (code.entry s) = some s := by
  cases h : rev code (code.entry s) with
  | none => exact absurd rfl ((rev_eq_none hs).1 h s)
  | some t => rw [huniq t (rev_some h).2]

end Machine

end Sys2Proof
end

