-- ==== Sys2Proof/Laws/Bus.lean ====
section
/-! SUPPORT. The address map, and what one step can do, said once. -/

namespace Sys2Proof.Machine

theorem Reg.ofNat?_toNat (r : Reg) : Reg.ofNat? r.toNat = some r := by cases r <;> rfl

theorem Reg.toNat_lt (r : Reg) : r.toNat < 12 := by cases r <;> decide

theorem Reg.ofNat?_some {n : Nat} {r : Reg} (h : Reg.ofNat? n = some r) : r.toNat = n := by
  unfold Reg.ofNat? at h
  split at h <;> first | (cases h; rfl) | cases h

theorem ofNat_toNat26 {n : Nat} (h : n < 67108864) : (BitVec.ofNat 26 n).toNat = n := by
  rw [BitVec.toNat_ofNat]; exact Nat.mod_eq_of_lt h

/-- The byte address of a location as a number (R61). -/
def Loc.offset : Loc → Nat
  | .reg r => 4 * r.toNat
  | .freq s => 0x400 + 4 * s.toNat
  | .codeLen s => 0x1000 + 0x40 * s.toNat
  | .codeBits s w => 0x1000 + 0x40 * s.toNat + 0x20 + 4 * w.toNat
  | .node i f => 0x8000 + 0x10 * i.toNat + 4 * f.toNat
  | .text i => 0x1000000 + 4 * i
  | .cont i => 0x2000000 + 4 * i

theorem Loc.addr_eq (l : Loc) : l.addr = BitVec.ofNat 26 l.offset := by cases l <;> rfl

theorem Loc.offset_lt {c : Config} (hc : c.WellFormed) {l : Loc} (h : l.valid c = true) : l.offset < 67108864 := by
  cases l with
  | reg r => have := r.toNat_lt; simp [Loc.offset]; omega
  | freq s => have := s.isLt; simp [Loc.offset]; omega
  | codeLen s => have := s.isLt; simp [Loc.offset]; omega
  | codeBits s w => have := s.isLt; have := w.isLt; simp [Loc.offset]; omega
  | node i f => have := i.isLt; have := f.isLt; simp [Loc.offset]; omega
  | text i => simp [Loc.valid] at h; simp [Loc.offset]; omega
  | cont i => simp [Loc.valid] at h; simp [Loc.offset]; omega

theorem Loc.offset_mod (l : Loc) : l.offset % 4 = 0 := by
  cases l <;> simp only [Loc.offset] <;> omega

/-! The windows of the address map (R61), one lemma each, for an address within the window. -/

theorem mapped_freq {c : Config} {a : Nat} (lo : 0x400 ≤ a) (hi : a < 0x800) :
    mapped c a = some (.freq (BitVec.ofNat 8 ((a - 0x400) / 4))) := by
  simp (disch := omega) only [mapped, if_pos, if_neg]

theorem mapped_codeLen {c : Config} {a : Nat} (lo : 0x1000 ≤ a) (hi : a < 0x5000) (h : (a - 0x1000) % 0x40 = 0) :
    mapped c a = some (.codeLen (BitVec.ofNat 8 ((a - 0x1000) / 0x40))) := by
  simp (disch := omega) only [mapped, if_pos, if_neg]

theorem mapped_codeBits {c : Config} {a : Nat} (lo : 0x1000 ≤ a) (hi : a < 0x5000) (h : 0x20 ≤ (a - 0x1000) % 0x40) :
    mapped c a = some (.codeBits (BitVec.ofNat 8 ((a - 0x1000) / 0x40))
      (BitVec.ofNat 3 (((a - 0x1000) % 0x40 - 0x20) / 4))) := by
  simp (disch := omega) only [mapped, if_pos, if_neg]

theorem mapped_node {c : Config} {a : Nat} (lo : 0x8000 ≤ a) (hi : a < 0x8000 + 0x10 * 511) :
    mapped c a = some (.node (BitVec.ofNat 9 ((a - 0x8000) / 0x10)) (BitVec.ofNat 2 ((a - 0x8000) % 0x10 / 4))) := by
  simp (disch := omega) only [mapped, Config.nodeCap, if_pos, if_neg]

theorem mapped_text {c : Config} {a : Nat} (lo : 0x1000000 ≤ a) (hi : a < 0x2000000)
    (h : (a - 0x1000000) / 4 < c.textCap) : mapped c a = some (.text ((a - 0x1000000) / 4)) := by
  unfold mapped Config.nodeCap
  repeat' first | omega | rfl | split

theorem mapped_cont {c : Config} {a : Nat} (lo : 0x2000000 ≤ a) (h : (a - 0x2000000) / 4 < c.contCap) :
    mapped c a = some (.cont ((a - 0x2000000) / 4)) := by
  unfold mapped Config.nodeCap
  repeat' first | omega | rfl | split

theorem ofNat_of_eq {w n : Nat} (x : BitVec w) (h : n = x.toNat) : BitVec.ofNat w n = x := by
  subst h; simp

/-- Every location is found at its own offset (R61). -/
theorem mapped_offset {c : Config} (hc : c.WellFormed) {l : Loc} (h : l.valid c = true) : mapped c l.offset = some l := by
  obtain ⟨a, ha⟩ : ∃ a, l.offset = a := ⟨_, rfl⟩
  have := Loc.offset_lt hc h
  rw [ha] at this ⊢
  cases l with
  | reg r =>
    have := r.toNat_lt
    have ha : 4 * r.toNat = a := ha
    have e : a / 4 = r.toNat := by omega
    simp (disch := omega) only [mapped, if_pos, e, r.ofNat?_toNat]
  | freq s =>
    have := s.isLt
    have ha : 0x400 + 4 * s.toNat = a := ha
    rw [mapped_freq (by omega) (by omega), ofNat_of_eq s (by omega)]
  | codeLen s =>
    have := s.isLt
    have ha : 0x1000 + 0x40 * s.toNat = a := ha
    rw [mapped_codeLen (by omega) (by omega) (by omega), ofNat_of_eq s (by omega)]
  | codeBits s w =>
    have := s.isLt
    have := w.isLt
    have ha : 0x1000 + 0x40 * s.toNat + 0x20 + 4 * w.toNat = a := ha
    rw [mapped_codeBits (by omega) (by omega) (by omega), ofNat_of_eq s (by omega), ofNat_of_eq w (by omega)]
  | node i f =>
    have := f.isLt
    have h : i.toNat < 511 := of_decide_eq_true h
    have ha : 0x8000 + 0x10 * i.toNat + 4 * f.toNat = a := ha
    rw [mapped_node (by omega) (by omega), ofNat_of_eq i (by omega), ofNat_of_eq f (by omega)]
  | text i =>
    have h : i < c.textCap := of_decide_eq_true h
    have ha : 0x1000000 + 4 * i = a := ha
    have e : (a - 0x1000000) / 4 = i := by omega
    rw [mapped_text (by omega) (by omega) (by omega), e]
  | cont i =>
    have h : i < c.contCap := of_decide_eq_true h
    have ha : 0x2000000 + 4 * i = a := ha
    have e : (a - 0x2000000) / 4 = i := by omega
    rw [mapped_cont (by omega) (by omega), e]

/-- Whatever the map finds at an aligned offset exists and has that offset (R61). -/
theorem mapped_some {c : Config} {a : Nat} {l : Loc} (ha : a % 4 = 0) (h : mapped c a = some l) :
    l.valid c = true ∧ l.offset = a := by
  unfold mapped at h
  split at h
  · split at h
    · next r hr =>
      cases h
      have := Reg.ofNat?_some hr
      simp [Loc.valid, Loc.offset]
      omega
    · cases h
  split at h
  · cases h
    refine ⟨rfl, ?_⟩
    simp only [Loc.offset, BitVec.toNat_ofNat]
    omega
  split at h
  · cases h
  split at h
  · dsimp only at h
    split at h
    · cases h
      refine ⟨rfl, ?_⟩
      simp only [Loc.offset, BitVec.toNat_ofNat]
      omega
    split at h
    · cases h
    · cases h
      refine ⟨rfl, ?_⟩
      simp only [Loc.offset, BitVec.toNat_ofNat]
      omega
  split at h
  · cases h
  split at h
  · next h1 =>
    cases h
    simp only [Config.nodeCap] at h1
    simp only [Loc.valid, Loc.offset, Config.nodeCap, BitVec.toNat_ofNat, decide_eq_true_eq]
    omega
  split at h
  · cases h
  split at h
  · split at h
    · next h1 =>
      cases h
      simp only [Loc.valid, Loc.offset, decide_eq_true_eq]
      omega
    · cases h
  split at h
  · next h1 =>
    cases h
    simp only [Loc.valid, Loc.offset, decide_eq_true_eq]
    omega
  · cases h

/-- A location is found at its own address. -/
theorem locate_addr {c : Config} (hc : c.WellFormed) {l : Loc} (h : l.valid c = true) : locate c l.addr = .ok l := by
  have hlt := Loc.offset_lt hc h
  rw [locate, Loc.addr_eq, ofNat_toNat26 hlt, if_pos l.offset_mod, mapped_offset hc h]

/-- The addresses of the registers do not depend on the parameters. -/
theorem locate_reg (c : Config) (r : Reg) : locate c (Loc.reg r).addr = .ok (.reg r) := by
  have := r.toNat_lt
  have hlt : (Loc.reg r).offset < 67108864 := by simp [Loc.offset]; omega
  rw [locate, Loc.addr_eq, ofNat_toNat26 hlt, if_pos (Loc.offset_mod _)]
  have e : mapped c (Loc.reg r).offset = some (.reg r) := by
    unfold mapped
    rw [if_pos (by simp [Loc.offset]; omega)]
    have e : (Loc.reg r).offset / 4 = r.toNat := by simp [Loc.offset]
    rw [e, r.ofNat?_toNat]
  rw [e]

/-- What is located exists and has that address. -/
theorem locate_some {c : Config} {a : Addr} {l : Loc} (h : locate c a = .ok l) :
    a.toNat % 4 = 0 ∧ l.valid c = true ∧ l.offset = a.toNat := by
  unfold locate at h
  split at h
  · next hm =>
    split at h
    · next l' hl =>
      cases h
      exact ⟨hm, mapped_some hm hl⟩
    · cases h
  · cases h

/-- Below the TEXT window the map does not depend on the parameters. -/
theorem mapped_low (c d : Config) {a : Nat} (h : a < 0x1000000) : mapped c a = mapped d a := by
  unfold mapped
  by_cases h1 : a < 0x400
  · rw [if_pos h1, if_pos h1]
  rw [if_neg h1, if_neg h1]
  by_cases h2 : a < 0x800
  · rw [if_pos h2, if_pos h2]
  rw [if_neg h2, if_neg h2]
  by_cases h3 : a < 0x1000
  · rw [if_pos h3, if_pos h3]
  rw [if_neg h3, if_neg h3]
  by_cases h4 : a < 0x5000
  · rw [if_pos h4, if_pos h4]
  rw [if_neg h4, if_neg h4]
  by_cases h5 : a < 0x8000
  · rw [if_pos h5, if_pos h5]
  rw [if_neg h5, if_neg h5]
  by_cases h6 : a < 0x8000 + 0x10 * Config.nodeCap
  · rw [if_pos h6, if_pos h6]
  rw [if_neg h6, if_neg h6, if_pos h, if_pos h]

/-- A location below the TEXT window is found at its address whatever the parameters. -/
theorem locate_low (c : Config) {l : Loc} (hv : l.valid ⟨1, 2⟩ = true) (h : l.offset < 0x1000000) : locate c l.addr = .ok l := by
  have hd : Config.WellFormed ⟨1, 2⟩ := by decide
  have e := locate_addr hd hv
  unfold locate at e ⊢
  rw [Loc.addr_eq, ofNat_toNat26 (by omega), if_pos l.offset_mod] at e ⊢
  rw [mapped_low c ⟨1, 2⟩ h, e]

theorem locate_freq (c : Config) (y : Byte) : locate c (Loc.freq y).addr = .ok (.freq y) := by
  have h : (Loc.freq y).offset = 0x400 + 4 * y.toNat := rfl
  have := y.isLt
  exact locate_low c rfl (by omega)

theorem locate_codeLen (c : Config) (y : Byte) : locate c (Loc.codeLen y).addr = .ok (.codeLen y) := by
  have h : (Loc.codeLen y).offset = 0x1000 + 0x40 * y.toNat := rfl
  have := y.isLt
  exact locate_low c rfl (by omega)

theorem locate_codeBits (c : Config) (y : Byte) (w : BitVec 3) :
    locate c (Loc.codeBits y w).addr = .ok (.codeBits y w) := by
  have h : (Loc.codeBits y w).offset = 0x1000 + 0x40 * y.toNat + 0x20 + 4 * w.toNat := rfl
  have := y.isLt
  have := w.isLt
  exact locate_low c rfl (by omega)

theorem locate_node (c : Config) {i : NodeIdx} (f : BitVec 2) (hi : i.toNat < Config.nodeCap) :
    locate c (Loc.node i f).addr = .ok (.node i f) := by
  have h : (Loc.node i f).offset = 0x8000 + 0x10 * i.toNat + 4 * f.toNat := rfl
  have := f.isLt
  unfold Config.nodeCap at hi
  exact locate_low c (decide_eq_true hi) (by omega)

/-! ### Reads and stores -/

theorem busRead_of {s : State} {a : Addr} {l : Loc} (h : locate s.cfg a = .ok l) : busRead s a = readLoc s l := by
  rw [busRead, h]

theorem readTransaction_ok {a : Addr} {s : State} {d : Word} (h : busRead s a = .ok d) :
    readTransaction a s = s.respond (.data d) := by rw [readTransaction, h]

theorem readTransaction_error {a : Addr} {s : State} {e : BusError} (h : busRead s a = .error e) :
    readTransaction a s = s.respond .buserror := by rw [readTransaction, h]

/-- A read changes the response only (R67). -/
theorem readTransaction_cases (a : Addr) (s : State) :
    ∃ r, readTransaction a s = s.respond r ∧ ((∃ d, r = .data d) ∨ r = .buserror) := by
  cases h : busRead s a with
  | ok d => exact ⟨_, readTransaction_ok h, .inl ⟨d, rfl⟩⟩
  | error e => exact ⟨_, readTransaction_error h, .inr rfl⟩

/-- Everything a write into a buffer window can do (R72, R73). -/
theorem bufferWrite_cases (buf : List Byte) (i : Nat) (b : Byte) :
    (i < buf.length ∧ bufferWrite buf i b = .ok (buf.set i b)) ∨
    (i = buf.length ∧ bufferWrite buf i b = .ok (buf ++ [b])) ∨
    (buf.length < i ∧ bufferWrite buf i b = .error .outOfRange) := by
  unfold bufferWrite
  rcases Nat.lt_trichotomy i buf.length with h | h | h
  · exact .inl ⟨h, if_pos h⟩
  · exact .inr (.inl ⟨h, by rw [if_neg (by omega), if_pos h]⟩)
  · exact .inr (.inr ⟨h, by rw [if_neg (by omega), if_neg (by omega)]⟩)

/-- Everything a write to a length register can do (R68). -/
theorem lengthWrite_cases (buf : List Byte) (v : Word) :
    (v.toNat ≤ buf.length ∧ lengthWrite buf v = .ok (buf.take v.toNat)) ∨
    (buf.length < v.toNat ∧ lengthWrite buf v = .error .lengthTooLarge) := by
  unfold lengthWrite
  by_cases h : v.toNat ≤ buf.length
  · exact .inl ⟨h, if_pos h⟩
  · exact .inr ⟨by omega, if_neg h⟩

/-- Everything a store can do (R66, R68, R69, R72, R73): an entry of FREQ, the text, or the container with BVALID
cleared. CMD stores nothing. -/
theorem writeLoc_ok {s t : State} {v : Word} {l : Loc} (h : writeLoc s v l = .ok t) :
    (l = .reg .cmd ∧ t = s) ∨
    (∃ y, l = .freq y ∧ t = { s with freq := s.freq.put y v }) ∨
    (∃ b, (l = .reg .tlen ∧ lengthWrite s.text v = .ok b ∨ ∃ i, l = .text i ∧ bufferWrite s.text i (v.setWidth 8) = .ok b) ∧
      t = { s with text := b }) ∨
    (∃ b, (l = .reg .clen ∧ lengthWrite s.cont v = .ok b ∨ ∃ i, l = .cont i ∧ bufferWrite s.cont i (v.setWidth 8) = .ok b) ∧
      t = s.contChanged b) := by
  cases l with
  | reg r =>
    cases r with
    | cmd => cases h; exact .inl ⟨rfl, rfl⟩
    | tlen =>
      rw [writeLoc, writeReg] at h
      rcases lengthWrite_cases s.text v with ⟨-, h1⟩ | ⟨-, h1⟩
      · rw [h1] at h
        cases h
        exact .inr (.inr (.inl ⟨_, .inl ⟨rfl, h1⟩, rfl⟩))
      · rw [h1] at h
        cases h
    | clen =>
      rw [writeLoc, writeReg] at h
      rcases lengthWrite_cases s.cont v with ⟨-, h1⟩ | ⟨-, h1⟩
      · rw [h1] at h
        cases h
        exact .inr (.inr (.inr ⟨_, .inl ⟨rfl, h1⟩, rfl⟩))
      · rw [h1] at h
        cases h
    | id | status | einfo | blen | pad | nnodes | root | tcap | ccap => cases h
  | freq y => cases h; exact .inr (.inl ⟨y, rfl, rfl⟩)
  | codeLen _ => cases h
  | codeBits _ _ => cases h
  | node _ _ => cases h
  | text i =>
    rw [writeLoc] at h
    cases h1 : bufferWrite s.text i (v.setWidth 8) with
    | ok b =>
      rw [h1] at h
      cases h
      exact .inr (.inr (.inl ⟨_, .inr ⟨i, rfl, h1⟩, rfl⟩))
    | error e => rw [h1] at h; cases h
  | cont i =>
    rw [writeLoc] at h
    cases h1 : bufferWrite s.cont i (v.setWidth 8) with
    | ok b =>
      rw [h1] at h
      cases h
      exact .inr (.inr (.inr ⟨_, .inr ⟨i, rfl, h1⟩, rfl⟩))
    | error e => rw [h1] at h; cases h

theorem storeTransaction_ok {l : Loc} {v : Word} {s t : State} (h : writeLoc s v l = .ok t) :
    storeTransaction l v s = t.respond .ok := by rw [storeTransaction, h]

theorem storeTransaction_error {l : Loc} {v : Word} {s : State} {e : BusError} (h : writeLoc s v l = .error e) :
    storeTransaction l v s = s.respond .buserror := by rw [storeTransaction, h]

/-! ### Steps -/

theorem step_idle {s : State} (h : s.bus = []) : step s = .next s := by rw [step, h]

theorem step_act {s : State} {a : HostAction} {rest : List HostAction} (h : s.bus = a :: rest) :
    step s = act a (s.taken rest) := by rw [step, h]

theorem step_read {s : State} {a : Addr} {rest : List HostAction} (h : s.bus = .read a :: rest) :
    step s = .next (readTransaction a (s.taken rest)) := step_act h

theorem step_reset {s : State} {rest : List HostAction} (h : s.bus = .reset :: rest) :
    step s = .next (hostReset (s.taken rest)) := step_act h

/-- A write to CMD issues its word (R130). -/
theorem step_cmd {s : State} {w : Word} {rest : List HostAction} (h : s.bus = .write 0x4 w :: rest) :
    step s = issue w ((s.taken rest).respond .ok) := by
  have e : locate (s.taken rest).cfg 0x4 = .ok (.reg .cmd) := locate_reg _ .cmd
  rw [step_act h]
  show writeTransaction 0x4 w (s.taken rest) = _
  rw [writeTransaction, e]

/-- A write to a mapped location other than CMD stores, or is refused. -/
theorem step_store {s : State} {a : Addr} {v : Word} {rest : List HostAction} {l : Loc} (h : s.bus = .write a v :: rest)
    (hl : locate s.cfg a = .ok l) (hc : l ≠ .reg .cmd) : step s = .next (storeTransaction l v (s.taken rest)) := by
  have e : locate (s.taken rest).cfg a = .ok l := hl
  rw [step_act h]
  show writeTransaction a v (s.taken rest) = _
  rw [writeTransaction, e]
  split
  · next h1 => cases h1
  · next h1 => cases h1; exact absurd rfl hc
  · next h1 => cases h1; rfl

/-- A write to an address that is misaligned or unmapped is refused. -/
theorem step_unmapped {s : State} {a : Addr} {v : Word} {rest : List HostAction} {e : BusError}
    (h : s.bus = .write a v :: rest) (hl : locate s.cfg a = .error e) :
    step s = .next ((s.taken rest).respond .buserror) := by
  have e' : locate (s.taken rest).cfg a = .error e := hl
  rw [step_act h]
  show writeTransaction a v (s.taken rest) = _
  rw [writeTransaction, e']

/-- Everything a step can do: idle, a read, a reset, a refused write, a store, the issue of a command word. -/
theorem step_cases (s : State) :
    (s.bus = [] ∧ step s = .next s) ∨
    ∃ a rest, s.bus = a :: rest ∧
      ((∃ x, a = .read x ∧ step s = .next (readTransaction x (s.taken rest))) ∨
       (a = .reset ∧ step s = .next (hostReset (s.taken rest))) ∨
       (∃ x v e, a = .write x v ∧ locate s.cfg x = .error e ∧ step s = .next ((s.taken rest).respond .buserror)) ∨
       (∃ x v l, a = .write x v ∧ locate s.cfg x = .ok l ∧ l ≠ .reg .cmd ∧
          step s = .next (storeTransaction l v (s.taken rest))) ∨
       (∃ w, a = .write 0x4 w ∧ step s = issue w ((s.taken rest).respond .ok))) := by
  cases hb : s.bus with
  | nil => exact .inl ⟨rfl, step_idle hb⟩
  | cons a rest =>
    refine .inr ⟨a, rest, rfl, ?_⟩
    cases a with
    | read x => exact .inl ⟨x, rfl, step_read hb⟩
    | reset => exact .inr (.inl ⟨rfl, step_reset hb⟩)
    | write x v =>
      cases hl : locate s.cfg x with
      | error e => exact .inr (.inr (.inl ⟨x, v, e, rfl, hl, step_unmapped hb hl⟩))
      | ok l =>
        by_cases hc : l = .reg .cmd
        · subst hc
          have hx : x = 0x4 := by
            unfold locate at hl
            split at hl
            · next hm =>
              split at hl
              · next l' hl' =>
                cases hl
                have h1 := (mapped_some hm hl').2
                apply BitVec.eq_of_toNat_eq
                rw [← h1]
                rfl
              · cases hl
            · cases hl
          subst hx
          exact .inr (.inr (.inr (.inr ⟨v, rfl, step_cmd hb⟩)))
        · exact .inr (.inr (.inr (.inl ⟨x, v, l, rfl, hl, hc, step_store hb hl hc⟩)))

end Sys2Proof.Machine
end

