-- ==== Sys2Proof/Laws/TreeBuilder.lean ====
section
/-! SUPPORT. BUILD: removing the smallest key, what the merge loop keeps, and the tree it ends with
(spec/42_tree_builder.md R160 to R168). -/

namespace Sys2Proof.Machine

/-- A key as one number: the order of R163 is the order of these. -/
def Key.rank (k : Key) : Nat := k.freq.toNat * 512 + k.idx.toNat

theorem Key.before_iff (a b : Key) : a.before b = true ↔ a.rank < b.rank := by
  have ha := a.idx.isLt
  have hb := b.idx.isLt
  simp only [Key.before, Key.rank, decide_eq_true_eq, BitVec.lt_def, ← BitVec.toNat_inj]
  omega

theorem popFrom_spec (ks : List Key) (k : Key) :
    ((popFrom k ks).1 :: (popFrom k ks).2).Perm (k :: ks) ∧ ∀ x ∈ (popFrom k ks).2, (popFrom k ks).1.rank ≤ x.rank := by
  induction ks generalizing k with
  | nil => simp [popFrom]
  | cons y ks ih =>
    rw [popFrom]
    split
    · next h =>
      obtain ⟨hp, hm⟩ := ih y
      refine ⟨((List.Perm.swap k _ _).trans (hp.cons k)), ?_⟩
      intro x hx
      rcases List.mem_cons.1 hx with rfl | hx
      · have hy := (Key.before_iff y x).1 h
        rcases List.mem_cons.1 (hp.symm.mem_iff.1 (List.mem_cons_self : y ∈ y :: ks)) with he | he
        · exact he ▸ Nat.le_of_lt hy
        · exact Nat.le_trans (hm y he) (Nat.le_of_lt hy)
      · exact hm x hx
    · next h =>
      obtain ⟨hp, hm⟩ := ih k
      refine ⟨((List.Perm.swap y _ _).trans ((hp.cons y).trans (List.Perm.swap k y ks))), ?_⟩
      intro x hx
      rcases List.mem_cons.1 hx with rfl | hx
      · have hy : k.rank ≤ x.rank := Nat.le_of_not_lt fun c => h ((Key.before_iff x k).2 c)
        rcases List.mem_cons.1 (hp.symm.mem_iff.1 (List.mem_cons_self : k ∈ k :: ks)) with he | he
        · exact he ▸ hy
        · exact Nat.le_trans (hm k he) hy
      · exact hm x hx

/-- Everything the removal of the smallest key can do. -/
theorem popMin_some {q q' : List Key} {k : Key} (h : popMin q = some (k, q')) :
    (k :: q').Perm q ∧ ∀ x ∈ q', k.rank ≤ x.rank := by
  cases q with
  | nil => cases h
  | cons y q =>
    have hs := popFrom_spec q y
    simp only [popMin, Option.some.injEq] at h
    rw [h] at hs
    exact hs

theorem popMin_none {q : List Key} (h : popMin q = none) : q = [] := by
  cases q with
  | nil => rfl
  | cons y q => cases h

/-! ### Small facts about node lists -/

@[simp] theorem childIndices_append (a b : List Node) : childIndices (a ++ b) = childIndices a ++ childIndices b := by
  simp [childIndices]

@[simp] theorem leafSymbols_append (a b : List Node) : leafSymbols (a ++ b) = leafSymbols a ++ leafSymbols b := by
  simp [leafSymbols]

@[simp] theorem childIndices_singleton (n : Node) : childIndices [n] = n.children := by simp [childIndices]

theorem mem_childIndices {nodes : List Node} {i : Nat} :
    i ∈ childIndices nodes ↔ ∃ (k : Nat) (n : Node), nodes[k]? = some n ∧ i ∈ n.children := by
  rw [childIndices, List.mem_flatMap]
  constructor
  · rintro ⟨n, hn, hi⟩
    obtain ⟨k, hk⟩ := List.mem_iff_getElem?.1 hn
    exact ⟨k, n, hk, hi⟩
  · rintro ⟨k, n, hk, hi⟩
    exact ⟨n, List.mem_of_getElem? hk, hi⟩

/-! ### What the merge loop keeps -/

/-- What holds at every turn of the merge loop over the leaves `leaves`: `q` holds the keys of the nodes that have no
parent yet. -/
structure Forest (leaves nodes : List Node) (q : List Key) : Prop where
  leaves_take : nodes.take leaves.length = leaves
  symbols : leafSymbols nodes = leafSymbols leaves
  parents : (q.map (fun k => k.idx.toNat) ++ childIndices nodes).Perm (List.range nodes.length)
  keys : ∀ k ∈ q, ∃ n, nodeAt nodes k.idx = some n ∧ n.freq = k.freq
  ordered : ∀ (k : Nat) (n : Node), nodes[k]? = some n → ∀ j ∈ n.children, j < k
  sums : ∀ (k : Nat) (f : NodeFreq) (l r : NodeIdx), nodes[k]? = some (Node.internal f l r) →
    ∃ a b : Node, nodeAt nodes l = some a ∧ nodeAt nodes r = some b ∧ f.toNat = a.freq.toNat + b.freq.toNat
  kinds : ∀ (k : Nat) (n : Node), nodes[k]? = some n → (n.kind = false ↔ k < leaves.length)
  merges : MergesTwoSmallest nodes
  total : (q.map (fun k => k.freq.toNat)).sum = (leaves.map (fun n => n.freq.toNat)).sum
  count : nodes.length + q.length = 2 * leaves.length

theorem nodeAt_append {nodes : List Node} {i : NodeIdx} {n : Node} (m : List Node) (h : nodeAt nodes i = some n) :
    nodeAt (nodes ++ m) i = some n := by
  unfold nodeAt at h ⊢
  rw [List.getElem?_append_left (List.getElem?_eq_some_iff.1 h).1, h]

theorem freqAt_append {nodes : List Node} {i : Nat} (m : List Node) (h : i < nodes.length) :
    freqAt (nodes ++ m) i = freqAt nodes i := by
  simp [freqAt, List.getElem?_append_left h]

theorem freqAt_of_nodeAt {nodes : List Node} {i : NodeIdx} {n : Node} (h : nodeAt nodes i = some n) :
    freqAt nodes i.toNat = n.freq.toNat := by
  unfold nodeAt at h
  simp [freqAt, h]

theorem nodeAt_lt {nodes : List Node} {i : NodeIdx} {n : Node} (h : nodeAt nodes i = some n) : i.toNat < nodes.length :=
  (List.getElem?_eq_some_iff.1 h).1

/-- A key's rank orders live nodes as R163 does. -/
theorem keyLt_of_rank {nodes : List Node} {a b : Key} {m n : Node} (ha : nodeAt nodes a.idx = some m)
    (hb : nodeAt nodes b.idx = some n) (hfa : m.freq = a.freq) (hfb : n.freq = b.freq) (h : a.rank ≤ b.rank)
    (hne : a.idx.toNat ≠ b.idx.toNat) : KeyLt nodes a.idx.toNat b.idx.toNat := by
  unfold KeyLt
  rw [freqAt_of_nodeAt ha, freqAt_of_nodeAt hb, hfa, hfb]
  have h1 := a.idx.isLt
  have h2 := b.idx.isLt
  unfold Key.rank at h
  omega

theorem keyLt_append {nodes : List Node} {i j : Nat} (m : List Node) (hi : i < nodes.length) (hj : j < nodes.length)
    (h : KeyLt nodes i j) : KeyLt (nodes ++ m) i j := by
  unfold KeyLt at *
  rwa [freqAt_append m hi, freqAt_append m hj]

theorem sum_perm {a b : List Key} (h : a.Perm b) :
    (a.map (fun k => k.freq.toNat)).sum = (b.map (fun k => k.freq.toNat)).sum := (h.map _).sum_eq

/-- One turn of the loop keeps everything. -/
theorem Forest.step {leaves nodes : List Node} {q q1 q2 : List Key} {a b : Key} (h : Forest leaves nodes q)
    (hleaves : leaves.length ≤ 256) (htotal : (leaves.map (fun n => n.freq.toNat)).sum < 1099511627776)
    (ha : popMin q = some (a, q1)) (hb : popMin q1 = some (b, q2)) :
    Forest leaves (nodes ++ [mergeNode a b])
      ({ freq := a.freq + b.freq, idx := BitVec.ofNat 9 nodes.length } :: q2) := by
  obtain ⟨hap, hamin⟩ := popMin_some ha
  obtain ⟨hbp, hbmin⟩ := popMin_some hb
  have hq : (a :: b :: q2).Perm q := (hbp.cons a).trans hap
  have hqlen : q2.length + 2 = q.length := by simpa using hq.length_eq
  have hcount := h.count
  have hnlen : nodes.length < 512 := by omega
  have hidx : (BitVec.ofNat 9 nodes.length).toNat = nodes.length := by
    rw [BitVec.toNat_ofNat]; exact Nat.mod_eq_of_lt hnlen
  have hmem : ∀ k ∈ a :: b :: q2, k ∈ q := fun k hk => hq.mem_iff.1 hk
  obtain ⟨na, hna, hfa⟩ := h.keys a (hmem a (by simp))
  obtain ⟨nb, hnb, hfb⟩ := h.keys b (hmem b (by simp))
  have hperm : ((a :: b :: q2).map (fun k => k.idx.toNat) ++ childIndices nodes).Perm (List.range nodes.length) :=
    ((hq.map _).append_right _).trans h.parents
  have hnodup : ((a :: b :: q2).map (fun k => k.idx.toNat) ++ childIndices nodes).Nodup :=
    hperm.nodup_iff.2 List.nodup_range
  have hsum : a.freq.toNat + b.freq.toNat + (q2.map (fun k => k.freq.toNat)).sum =
      (leaves.map (fun n => n.freq.toNat)).sum := by
    rw [← h.total, ← sum_perm hq]; simp [Nat.add_assoc]
  have hadd : (a.freq + b.freq).toNat = a.freq.toNat + b.freq.toNat := by
    rw [BitVec.toNat_add]; exact Nat.mod_eq_of_lt (by omega)
  have hlen : leaves.length ≤ nodes.length := by
    have := congrArg List.length h.leaves_take
    rw [List.length_take] at this
    omega
  have hlast : ∀ (k : Nat) (n : Node), (nodes ++ [mergeNode a b])[k]? = some n →
      nodes[k]? = some n ∨ (k = nodes.length ∧ n = mergeNode a b) := by
    intro k n hk
    rw [List.getElem?_append] at hk
    split at hk
    · exact .inl hk
    · next hk2 =>
      have hk3 := (List.getElem?_eq_some_iff.1 hk).1
      simp only [List.length_singleton] at hk3
      have : k = nodes.length := by omega
      subst this
      simp at hk
      exact .inr ⟨rfl, hk.symm⟩
  have hidxne : a.idx.toNat ≠ b.idx.toNat := by
    simp only [List.map_cons, List.cons_append, List.nodup_cons] at hnodup
    exact fun e => hnodup.1 (by simp [e])
  have hlive : ∀ i, LiveAt (nodes ++ [mergeNode a b]) nodes.length i ↔
      i = a.idx.toNat ∨ i = b.idx.toNat ∨ i ∈ q2.map (fun k => k.idx.toNat) := by
    intro i
    have htake : (nodes ++ [mergeNode a b]).take nodes.length = nodes := by simp
    unfold LiveAt
    rw [htake]
    have hm := hperm.mem_iff (a := i)
    rw [List.mem_range, List.mem_append] at hm
    have hd := List.nodup_append.1 hnodup
    constructor
    · rintro ⟨hlt, hnc⟩
      rcases hm.2 hlt with h1 | h1
      · simpa using h1
      · exact absurd h1 hnc
    · intro h1
      have h1' : i ∈ (a :: b :: q2).map (fun k => k.idx.toNat) := by simpa using h1
      exact ⟨hm.1 (.inl h1'), fun hc => hd.2.2 i h1' i hc rfl⟩
  refine ⟨?_, ?_, ?_, ?_, ?_, ?_, ?_, ?_, ?_, ?_⟩
  · rw [List.take_append_of_le_length hlen, h.leaves_take]
  · rw [leafSymbols_append, h.symbols]
    simp [leafSymbols, mergeNode, Node.symbol?]
  · rw [childIndices_append, childIndices_singleton, List.length_append, List.length_singleton, List.range_succ]
    have e1 : (mergeNode a b).children = [a.idx.toNat, b.idx.toNat] := rfl
    rw [e1, List.map_cons, hidx]
    refine List.Perm.trans ?_ (hperm.append_right [nodes.length])
    rw [List.perm_iff_count]
    intro x
    simp only [List.map_cons, List.cons_append, List.count_cons, List.count_append, List.count_nil, List.append_assoc]
    omega
  · intro k hk
    rcases List.mem_cons.1 hk with rfl | hk
    · refine ⟨mergeNode a b, ?_, rfl⟩
      simp [nodeAt, hidx]
    · obtain ⟨n, hn, hf⟩ := h.keys k (hmem k (by simp [hk]))
      exact ⟨n, nodeAt_append _ hn, hf⟩
  · intro k n hk j hj
    rcases hlast k n hk with hk | ⟨rfl, rfl⟩
    · exact h.ordered k n hk j hj
    · have : j = a.idx.toNat ∨ j = b.idx.toNat := by simpa [mergeNode, Node.children] using hj
      rcases this with rfl | rfl
      · exact nodeAt_lt hna
      · exact nodeAt_lt hnb
  · intro k f l r hk
    rcases hlast k _ hk with hk | ⟨rfl, he⟩
    · obtain ⟨x, y, hx, hy, hs⟩ := h.sums k f l r hk
      exact ⟨x, y, nodeAt_append _ hx, nodeAt_append _ hy, hs⟩
    · simp only [mergeNode, Node.internal.injEq] at he
      obtain ⟨rfl, rfl, rfl⟩ := he
      exact ⟨na, nb, nodeAt_append _ hna, nodeAt_append _ hnb, by rw [hfa, hfb, hadd]⟩
  · intro k n hk
    rcases hlast k n hk with hk | ⟨rfl, rfl⟩
    · exact h.kinds k n hk
    · simp [mergeNode, Node.kind]
      omega
  · intro k f l r hk
    rcases hlast k _ hk with hk | ⟨rfl, he⟩
    · obtain ⟨h1, h2, h3, h4, h5⟩ := h.merges k f l r hk
      have hkl := (List.getElem?_eq_some_iff.1 hk).1
      have htk : (nodes ++ [mergeNode a b]).take k = nodes.take k := List.take_append_of_le_length (Nat.le_of_lt hkl)
      have hl : ∀ i, LiveAt (nodes ++ [mergeNode a b]) k i ↔ LiveAt nodes k i := by
        intro i; unfold LiveAt; rw [htk]
      refine ⟨(hl _).2 h1, (hl _).2 h2, h3, ?_, ?_⟩
      · intro i hi hne
        have hi' := (hl i).1 hi
        exact keyLt_append _ (Nat.lt_trans h1.1 hkl) (Nat.lt_trans hi'.1 hkl) (h4 i hi' hne)
      · intro i hi hne hne2
        have hi' := (hl i).1 hi
        exact keyLt_append _ (Nat.lt_trans h2.1 hkl) (Nat.lt_trans hi'.1 hkl) (h5 i hi' hne hne2)
    · simp only [mergeNode, Node.internal.injEq] at he
      obtain ⟨rfl, rfl, rfl⟩ := he
      have hkey : ∀ x ∈ q2, a.rank ≤ x.rank ∧ b.rank ≤ x.rank := by
        intro x hx
        exact ⟨hamin x (hbp.mem_iff.1 (by simp [hx])), hbmin x hx⟩
      have hab : a.rank ≤ b.rank := hamin b (hbp.mem_iff.1 (by simp))
      refine ⟨(hlive _).2 (.inl rfl), (hlive _).2 (.inr (.inl rfl)), fun e => hidxne (by rw [e]), ?_, ?_⟩
      · intro i hi hne
        rcases (hlive i).1 hi with rfl | rfl | hi
        · exact absurd rfl hne
        · exact keyLt_append _ (nodeAt_lt hna) (nodeAt_lt hnb) (keyLt_of_rank hna hnb hfa hfb hab hidxne)
        · obtain ⟨x, hx, rfl⟩ := List.mem_map.1 hi
          obtain ⟨n, hn, hf⟩ := h.keys x (hmem x (by simp [hx]))
          exact keyLt_append _ (nodeAt_lt hna) (nodeAt_lt hn)
            (keyLt_of_rank hna hn hfa hf (hkey x hx).1 (Ne.symm hne))
      · intro i hi hne hne2
        rcases (hlive i).1 hi with rfl | rfl | hi
        · exact absurd rfl hne
        · exact absurd rfl hne2
        · obtain ⟨x, hx, rfl⟩ := List.mem_map.1 hi
          obtain ⟨n, hn, hf⟩ := h.keys x (hmem x (by simp [hx]))
          exact keyLt_append _ (nodeAt_lt hnb) (nodeAt_lt hn)
            (keyLt_of_rank hnb hn hfb hf (hkey x hx).2 (Ne.symm hne2))
  · rw [List.map_cons, List.sum_cons, hadd, hsum]
  · simp
    omega

/-- The loop ends with a forest of at most one tree, and of one tree when it began with any. -/
theorem mergeLoop_forest {leaves : List Node} (hleaves : leaves.length ≤ 256)
    (htotal : (leaves.map (fun n => n.freq.toNat)).sum < 1099511627776) (fuel : Nat) :
    ∀ (nodes : List Node) (q : List Key), Forest leaves nodes q → q.length ≤ fuel →
      ∃ q', Forest leaves (mergeLoop fuel nodes q) q' ∧ q'.length ≤ 1 ∧ (q ≠ [] → q' ≠ []) := by
  induction fuel with
  | zero =>
    intro nodes q h hq
    exact ⟨q, h, by omega, id⟩
  | succ fuel ih =>
    intro nodes q h hq
    rw [mergeLoop]
    cases ha : popMin q with
    | none =>
      have hn := popMin_none ha
      exact ⟨q, h, by simp [hn], id⟩
    | some p =>
      obtain ⟨a, q1⟩ := p
      have hqa := (popMin_some ha).1.length_eq
      simp only [List.length_cons] at hqa
      dsimp only
      cases hb : popMin q1 with
      | none =>
        have hn := popMin_none hb
        rw [hn] at hqa
        exact ⟨q, h, by simp at hqa; omega, id⟩
      | some p =>
        obtain ⟨b, q2⟩ := p
        have hqb := (popMin_some hb).1.length_eq
        simp only [List.length_cons] at hqb
        obtain ⟨q', hf, h1, h2⟩ := ih _ _ (h.step hleaves htotal ha hb) (by simp; omega)
        exact ⟨q', hf, h1, fun _ => h2 (by simp)⟩

/-! ### The start of the loop -/

theorem keysFrom_length (i : Nat) (ns : List Node) : (keysFrom i ns).length = ns.length := by
  induction ns generalizing i with
  | nil => rfl
  | cons n ns ih => simp [keysFrom, ih]

theorem keysFrom_idx (i : Nat) (ns : List Node) (h : i + ns.length ≤ 512) :
    (keysFrom i ns).map (fun k => k.idx.toNat) = List.range' i ns.length := by
  induction ns generalizing i with
  | nil => rfl
  | cons n ns ih =>
    simp only [List.length_cons] at h
    simp only [keysFrom, List.map_cons, List.length_cons, List.range'_succ]
    rw [ih (i + 1) (by omega), BitVec.toNat_ofNat, Nat.mod_eq_of_lt (by omega)]

theorem keysFrom_freq (i : Nat) (ns : List Node) :
    (keysFrom i ns).map (fun k => k.freq.toNat) = ns.map (fun n => n.freq.toNat) := by
  induction ns generalizing i with
  | nil => rfl
  | cons n ns ih => simp [keysFrom, ih]

theorem keysFrom_key (i : Nat) (ns : List Node) (h : i + ns.length ≤ 512) :
    ∀ k ∈ keysFrom i ns, ∃ n, i ≤ k.idx.toNat ∧ ns[k.idx.toNat - i]? = some n ∧ n.freq = k.freq := by
  induction ns generalizing i with
  | nil => intro k hk; cases hk
  | cons n ns ih =>
    simp only [List.length_cons] at h
    intro k hk
    rcases List.mem_cons.1 hk with rfl | hk
    · have : (BitVec.ofNat 9 i).toNat = i := by rw [BitVec.toNat_ofNat]; exact Nat.mod_eq_of_lt (by omega)
      exact ⟨n, by simp [this], by simp [this], rfl⟩
    · obtain ⟨m, h1, h2, h3⟩ := ih (i + 1) (by omega) k hk
      refine ⟨m, by omega, ?_, h3⟩
      have e : k.idx.toNat - i = k.idx.toNat - (i + 1) + 1 := by omega
      rw [e, List.getElem?_cons_succ, h2]

/-- Leaves only. -/
def OnlyLeaves (ns : List Node) : Prop := ∀ n ∈ ns, n.kind = false

theorem OnlyLeaves.children {ns : List Node} (h : OnlyLeaves ns) : childIndices ns = [] := by
  simp only [childIndices, List.flatMap_eq_nil_iff]
  intro n hn
  have := h n hn
  cases n with
  | leaf s f => rfl
  | internal f l r => cases this

theorem forest_of_leaves {ns : List Node} (h : OnlyLeaves ns) (hlen : ns.length ≤ 256) :
    Forest ns ns (keysFrom 0 ns) := by
  have hno : ∀ (k : Nat) (f : NodeFreq) (l r : NodeIdx), ns[k]? ≠ some (Node.internal f l r) := by
    intro k f l r hk
    have := h _ (List.mem_of_getElem? hk)
    cases this
  refine ⟨by simp, rfl, ?_, ?_, ?_, ?_, ?_, ?_, ?_, ?_⟩
  · rw [h.children, keysFrom_idx 0 ns (by omega), List.append_nil, List.range_eq_range']
  · intro k hk
    obtain ⟨n, -, h2, h3⟩ := keysFrom_key 0 ns (by omega) k hk
    exact ⟨n, by simpa [nodeAt] using h2, h3⟩
  · intro k n hk j hj
    have := h n (List.mem_of_getElem? hk)
    cases n with
    | leaf s f => cases hj
    | internal f l r => cases this
  · intro k f l r hk
    exact absurd hk (hno k f l r)
  · intro k n hk
    simp [h n (List.mem_of_getElem? hk), (List.getElem?_eq_some_iff.1 hk).1]
  · intro k f l r hk
    exact absurd hk (hno k f l r)
  · rw [keysFrom_freq]
  · rw [keysFrom_length]; omega

/-! ### The leaves -/

theorem keySymbols_length_le (freq : Table Word) : (keySymbols freq).length ≤ 256 := by
  have := List.length_filter_le (fun s => decide (freq.entry s ≠ 0)) symbols
  rwa [symbols_length] at this

theorem mem_keySymbols {freq : Table Word} {s : Byte} : s ∈ keySymbols freq ↔ freq.entry s ≠ 0 := by
  simp [keySymbols, mem_symbols]

theorem keySymbols_nodup (freq : Table Word) : (keySymbols freq).Nodup := symbols_nodup.filter _

@[simp] theorem leavesOf_length (freq : Table Word) : (leavesOf freq).length = (keySymbols freq).length := by
  simp [leavesOf]

theorem leavesOf_only (freq : Table Word) : OnlyLeaves (leavesOf freq) := by
  intro n hn
  obtain ⟨s, -, rfl⟩ := List.mem_map.1 hn
  rfl

theorem leafSymbols_leavesOf (freq : Table Word) : leafSymbols (leavesOf freq) = keySymbols freq := by
  unfold leafSymbols leavesOf
  induction keySymbols freq with
  | nil => rfl
  | cons s l ih => simp [Node.symbol?, ih]

theorem leavesOf_freq (freq : Table Word) :
    (leavesOf freq).map (fun n => n.freq.toNat) = (keySymbols freq).map (fun s => (freq.entry s).toNat) := by
  simp only [leavesOf, List.map_map]
  refine List.map_congr_left fun s _ => ?_
  have := (freq.entry s).isLt
  simp only [Function.comp, Node.freq, BitVec.toNat_setWidth]
  exact Nat.mod_eq_of_lt (by omega)

/-- The frequencies of the keys sum to the frequencies of all symbols. -/
theorem sum_keySymbols (freq : Table Word) :
    ((keySymbols freq).map (fun s => (freq.entry s).toNat)).sum = (symbols.map (fun s => (freq.entry s).toNat)).sum := by
  unfold keySymbols
  induction symbols with
  | nil => rfl
  | cons s l ih =>
    rw [List.filter_cons, List.map_cons, List.sum_cons, ← ih]
    by_cases h : freq.entry s = 0
    · rw [if_neg (by simp [h]), h]
      simp
    · rw [if_pos (decide_eq_true h), List.map_cons, List.sum_cons]

/-- Up to 256 frequencies below 2^32 sum to less than 2^40 (R6 (b)). -/
theorem leavesOf_total_lt (freq : Table Word) : ((leavesOf freq).map (fun n => n.freq.toNat)).sum < 1099511627776 := by
  rw [leavesOf_freq]
  have hb : ∀ l : List Byte, (l.map (fun s => (freq.entry s).toNat)).sum ≤ 4294967295 * l.length := by
    intro l
    induction l with
    | nil => simp
    | cons s l ih =>
      have := (freq.entry s).isLt
      simp only [List.map_cons, List.sum_cons, List.length_cons]
      omega
  have h1 := hb (keySymbols freq)
  have h2 := keySymbols_length_le freq
  omega

/-! ### The tree -/

/-- The forest BUILD ends with. -/
theorem buildTree_forest (freq : Table Word) :
    ∃ q, Forest (leavesOf freq) (buildTree freq) q ∧ q.length ≤ 1 ∧ (leavesOf freq ≠ [] → q ≠ []) := by
  have hl : (leavesOf freq).length ≤ 256 := by rw [leavesOf_length]; exact keySymbols_length_le freq
  obtain ⟨q, h1, h2, h3⟩ := mergeLoop_forest hl (leavesOf_total_lt freq) (leavesOf freq).length (leavesOf freq)
    (keysFrom 0 (leavesOf freq)) (forest_of_leaves (leavesOf_only freq) hl) (by rw [keysFrom_length])
  refine ⟨q, h1, h2, fun hne => h3 fun hk => hne ?_⟩
  have := keysFrom_length 0 (leavesOf freq)
  rw [hk] at this
  exact List.eq_nil_of_length_eq_zero this.symm

/-- In a forest of one tree the root is the last node. -/
theorem Forest.root {leaves nodes : List Node} {k : Key} (h : Forest leaves nodes [k]) :
    k.idx.toNat = nodes.length - 1 ∧ (childIndices nodes).Perm (List.range (nodes.length - 1)) := by
  have hp := h.parents
  simp only [List.map_cons, List.map_nil, List.singleton_append] at hp
  have hlen : 0 < nodes.length := by
    have := hp.length_eq
    simp at this
    omega
  have hlast : nodes.length - 1 ∉ childIndices nodes := by
    intro hc
    obtain ⟨p, n, hn, hj⟩ := mem_childIndices.1 hc
    have h1 := h.ordered p n hn _ hj
    have h2 := (List.getElem?_eq_some_iff.1 hn).1
    omega
  have hk : k.idx.toNat = nodes.length - 1 := by
    have hm : nodes.length - 1 ∈ k.idx.toNat :: childIndices nodes :=
      hp.mem_iff.2 (List.mem_range.2 (by omega))
    rcases List.mem_cons.1 hm with h1 | h1
    · exact h1.symm
    · exact absurd h1 hlast
  refine ⟨hk, ?_⟩
  have e : List.range nodes.length = List.range (nodes.length - 1) ++ [nodes.length - 1] := by
    have e0 : nodes.length = (nodes.length - 1) + 1 := by omega
    rw [e0, List.range_succ]
    rfl
  rw [e, hk] at hp
  exact (List.perm_cons _).1 (hp.trans List.perm_append_comm)

/-- NNODES = 2n - 1 for n keys, 0 for none (R165, R167). -/
theorem buildTree_length (freq : Table Word) : (buildTree freq).length = 2 * (keySymbols freq).length - 1 := by
  obtain ⟨q, h, h1, h2⟩ := buildTree_forest freq
  have hc := h.count
  rw [leavesOf_length] at hc
  by_cases hl : leavesOf freq = []
  · have h0 : (keySymbols freq).length = 0 := by rw [← leavesOf_length, hl]; rfl
    omega
  · have := List.length_pos_iff.2 (h2 hl)
    omega

/-- The shape of every tree BUILD produces (R165, R168). -/
theorem buildTree_inv (freq : Table Word) : TreeInv (buildTree freq) (rootOf (buildTree freq)) := by
  obtain ⟨q, h, h1, h2⟩ := buildTree_forest freq
  have hlen := buildTree_length freq
  have hk := keySymbols_length_le freq
  have hpar : (childIndices (buildTree freq)).Perm (List.range ((buildTree freq).length - 1)) := by
    match q, h, h1 with
    | [], h, _ =>
      have hp := h.parents
      have hc := h.count
      rw [leavesOf_length] at hc
      simp only [List.length_nil] at hc
      have : (buildTree freq).length = 0 := by omega
      rw [this] at hp ⊢
      simpa using hp
    | [k], h, _ => exact h.root.2
  refine ⟨?_, hpar, h.ordered, h.sums, ?_, ?_, ?_⟩
  · rw [h.symbols, leafSymbols_leavesOf]; exact keySymbols_nodup freq
  · intro k n hn
    have hkn := h.kinds k n hn
    have hkl := (List.getElem?_eq_some_iff.1 hn).1
    rw [leavesOf_length] at hkn
    rw [hkn]
    omega
  · rw [rootOf, BitVec.toNat_ofNat, Nat.mod_eq_of_lt (by omega)]
  · rw [hlen]; simp only [Config.nodeCap]; omega

theorem buildTree_leafSymbols (freq : Table Word) : leafSymbols (buildTree freq) = keySymbols freq := by
  obtain ⟨q, h, -, -⟩ := buildTree_forest freq
  rw [h.symbols, leafSymbols_leavesOf]

/-- The first n nodes are the leaves, in ascending order of symbol value (R161). -/
theorem buildTree_leaves (freq : Table Word) : (buildTree freq).take (keySymbols freq).length = leavesOf freq := by
  obtain ⟨q, h, -, -⟩ := buildTree_forest freq
  rw [← leavesOf_length, h.leaves_take]

theorem buildTree_merges (freq : Table Word) : MergesTwoSmallest (buildTree freq) := by
  obtain ⟨q, h, -, -⟩ := buildTree_forest freq
  exact h.merges

/-- The root's FREQ is the sum of all FREQ entries (R165). -/
theorem buildTree_root_freq (freq : Table Word) (n : Node)
    (hn : nodeAt (buildTree freq) (rootOf (buildTree freq)) = some n) :
    n.freq.toNat = (symbols.map (fun s => (freq.entry s).toNat)).sum := by
  obtain ⟨q, h, h1, h2⟩ := buildTree_forest freq
  have hne : leavesOf freq ≠ [] := by
    intro hl
    have h0 : (keySymbols freq).length = 0 := by rw [← leavesOf_length, hl]; rfl
    have := nodeAt_lt hn
    rw [buildTree_length] at this
    omega
  match q, h, h1, h2 hne with
  | [k], h, _, _ =>
    have hroot := h.root.1
    obtain ⟨m, hm, hf⟩ := h.keys k (by simp)
    have e : rootOf (buildTree freq) = k.idx := by
      apply BitVec.eq_of_toNat_eq
      rw [hroot, (buildTree_inv freq).root_last]
    rw [e, hm] at hn
    cases hn
    have ht := h.total
    rw [leavesOf_freq, sum_keySymbols] at ht
    simpa [hf] using ht

end Sys2Proof.Machine
end

