-- ==== Sys2Proof/Laws/CodeTable.lean ====
section
/-! SUPPORT. GEN: paths in a tree, and that the code table holds exactly the paths to the leaves
(spec/43_code_table_generator.md R180 to R184). -/

namespace Sys2Proof.Machine

theorem follow_append (nodes : List Node) (p q : Bits) (i : NodeIdx) :
    follow nodes i (p ++ q) = (follow nodes i p).bind fun j => follow nodes j q := by
  induction p generalizing i with
  | nil => rfl
  | cons b p ih =>
    rw [List.cons_append, follow, follow]
    split
    · exact ih _
    · rfl
    · rfl

/-- Following a non-empty path starts at an internal node. -/
theorem follow_cons {nodes : List Node} {i j : NodeIdx} {b : Bool} {p : Bits} (h : follow nodes i (b :: p) = some j) :
    ∃ f l r, nodeAt nodes i = some (.internal f l r) ∧ follow nodes (branch l r b) p = some j := by
  rw [follow] at h
  split at h
  · next f l r hn => exact ⟨f, l, r, hn, h⟩
  · cases h
  · cases h

theorem branch_mem_children (f : NodeFreq) (l r : NodeIdx) (b : Bool) :
    (branch l r b).toNat ∈ (Node.internal f l r).children := by
  cases b <;> simp [branch, Node.children]

/-- A path visits indices that only fall. -/
theorem TreeInv.follow_le {nodes : List Node} {root : NodeIdx} (h : TreeInv nodes root) :
    ∀ (p : Bits) (i j : NodeIdx), follow nodes i p = some j → j.toNat + p.length ≤ i.toNat := by
  intro p
  induction p with
  | nil =>
    intro i j hf
    simp only [follow, Option.some.injEq] at hf
    simp [hf]
  | cons b p ih =>
    intro i j hf
    obtain ⟨f, l, r, hn, hf⟩ := follow_cons hf
    have h1 := ih _ _ hf
    have h2 := h.ordered i.toNat _ hn _ (branch_mem_children f l r b)
    simp only [List.length_cons]
    omega

/-- The last step of a path. -/
theorem follow_snoc {nodes : List Node} {i j : NodeIdx} {b : Bool} {p : Bits} (h : follow nodes i (p ++ [b]) = some j) :
    ∃ u f l r, follow nodes i p = some u ∧ nodeAt nodes u = some (.internal f l r) ∧ branch l r b = j := by
  rw [follow_append] at h
  cases hu : follow nodes i p with
  | none => rw [hu] at h; cases h
  | some u =>
    rw [hu] at h
    obtain ⟨f, l, r, hn, hf⟩ := follow_cons (p := []) h
    exact ⟨u, f, l, r, rfl, hn, by simpa [follow] using hf⟩

/-- A node is a child of one node only, on one side only. -/
theorem TreeInv.parent_unique {nodes : List Node} {root : NodeIdx} (h : TreeInv nodes root) {u v l r l' r' : NodeIdx}
    {f f' : NodeFreq} {b c : Bool} (hu : nodeAt nodes u = some (.internal f l r))
    (hv : nodeAt nodes v = some (.internal f' l' r')) (e : branch l r b = branch l' r' c) : u = v ∧ b = c := by
  have hnd : (childIndices nodes).Nodup := h.parents.nodup_iff.2 List.nodup_range
  rw [childIndices, List.nodup_flatMap] at hnd
  obtain ⟨hin, hdis⟩ := hnd
  have huv : u = v := by
    apply BitVec.eq_of_toNat_eq
    refine Classical.byContradiction fun hne => ?_
    obtain ⟨hul, hu'⟩ := List.getElem?_eq_some_iff.1 hu
    obtain ⟨hvl, hv'⟩ := List.getElem?_eq_some_iff.1 hv
    have hd : List.Disjoint (Node.internal f l r).children (Node.internal f' l' r').children := by
      rw [List.pairwise_iff_getElem] at hdis
      rcases Nat.lt_or_gt_of_ne hne with hlt | hlt
      · have := hdis _ _ hul hvl hlt
        rwa [Function.onFun, hu', hv'] at this
      · have := hdis _ _ hvl hul hlt
        rw [Function.onFun, hu', hv'] at this
        exact this.symm
    refine hd (branch_mem_children f l r b) ?_
    rw [e]
    exact branch_mem_children f' l' r' c
  subst huv
  rw [hu] at hv
  cases hv
  have hlr : l.toNat ≠ r.toNat := by
    have := hin _ (List.mem_of_getElem? hu)
    simpa [Node.children] using this
  refine ⟨rfl, ?_⟩
  cases b <;> cases c
  · rfl
  · exact absurd (congrArg BitVec.toNat (show l = r from e)) hlr
  · exact absurd (congrArg BitVec.toNat (show r = l from e)) (Ne.symm hlr)
  · rfl

/-- The root is nobody's child. -/
theorem TreeInv.root_no_child {nodes : List Node} {root u l r : NodeIdx} {f : NodeFreq} (h : TreeInv nodes root) {b : Bool}
    (hu : nodeAt nodes u = some (.internal f l r)) : branch l r b ≠ root := by
  intro e
  have hm : (branch l r b).toNat ∈ childIndices nodes :=
    mem_childIndices.2 ⟨u.toNat, _, hu, branch_mem_children f l r b⟩
  rw [e] at hm
  have := List.mem_range.1 (h.parents.mem_iff.1 hm)
  rw [h.root_last] at this
  omega

/-- There is one path from the root to a node. -/
theorem TreeInv.path_unique {nodes : List Node} {root : NodeIdx} (h : TreeInv nodes root) :
    ∀ (n : Nat) (p q : Bits) (j : NodeIdx), p.length ≤ n → follow nodes root p = some j → follow nodes root q = some j →
      p = q := by
  have hroot : ∀ (q : Bits), follow nodes root q = some root → q = [] := by
    intro q hq
    rcases List.eq_nil_or_concat q with rfl | ⟨q, c, rfl⟩
    · rfl
    · rw [List.concat_eq_append] at hq
      obtain ⟨u, f, l, r, -, hu, e⟩ := follow_snoc hq
      exact absurd e (h.root_no_child hu)
  intro n
  induction n with
  | zero =>
    intro p q j hp hpj hqj
    have : p = [] := List.eq_nil_of_length_eq_zero (by omega)
    subst this
    simp only [follow, Option.some.injEq] at hpj
    subst hpj
    exact (hroot q hqj).symm
  | succ n ih =>
    intro p q j hp hpj hqj
    rcases List.eq_nil_or_concat p with rfl | ⟨p, b, rfl⟩
    · simp only [follow, Option.some.injEq] at hpj
      subst hpj
      exact (hroot q hqj).symm
    · rw [List.concat_eq_append] at hpj hp ⊢
      obtain ⟨u, f, l, r, hpu, hu, e⟩ := follow_snoc hpj
      rcases List.eq_nil_or_concat q with rfl | ⟨q, c, rfl⟩
      · simp only [follow, Option.some.injEq] at hqj
        exact absurd (e.trans hqj.symm) (h.root_no_child hu)
      · rw [List.concat_eq_append] at hqj ⊢
        obtain ⟨v, f', l', r', hqv, hv, e'⟩ := follow_snoc hqj
        obtain ⟨huv, hbc⟩ := h.parent_unique hu hv (e.trans e'.symm)
        subst huv
        rw [ih p q u (by simp at hp; omega) hpu hqv, hbc]

/-- Every node is reached from the root. -/
theorem TreeInv.reachable {nodes : List Node} {root : NodeIdx} (h : TreeInv nodes root) :
    ∀ (d : Nat) (i : NodeIdx), i.toNat < nodes.length → nodes.length - i.toNat ≤ d → ∃ p, follow nodes root p = some i := by
  intro d
  induction d with
  | zero => intro i hi hd; omega
  | succ d ih =>
    intro i hi hd
    by_cases hr : i = root
    · subst hr; exact ⟨[], rfl⟩
    · have hne : i.toNat ≠ nodes.length - 1 := fun e => hr (BitVec.eq_of_toNat_eq (e.trans h.root_last.symm))
      have hm : i.toNat ∈ childIndices nodes := h.parents.mem_iff.2 (List.mem_range.2 (by omega))
      obtain ⟨k, n, hn, hj⟩ := mem_childIndices.1 hm
      have hlt := h.ordered k n hn _ hj
      have hkl := (List.getElem?_eq_some_iff.1 hn).1
      have hcap := h.length_le
      simp only [Config.nodeCap] at hcap
      have hk : (BitVec.ofNat 9 k).toNat = k := by rw [BitVec.toNat_ofNat]; exact Nat.mod_eq_of_lt (by omega)
      obtain ⟨p, hp⟩ := ih (BitVec.ofNat 9 k) (by rw [hk]; exact hkl) (by rw [hk]; omega)
      cases n with
      | leaf s f => cases hj
      | internal f l r =>
        have hn' : nodeAt nodes (BitVec.ofNat 9 k) = some (.internal f l r) := by rw [nodeAt, hk]; exact hn
        simp only [Node.children, List.mem_cons, List.not_mem_nil, or_false] at hj
        rcases hj with hj | hj
        · refine ⟨p ++ [false], ?_⟩
          rw [follow_append, hp]
          simp [follow, hn', branch, BitVec.eq_of_toNat_eq hj]
        · refine ⟨p ++ [true], ?_⟩
          rw [follow_append, hp]
          simp [follow, hn', branch, BitVec.eq_of_toNat_eq hj]

/-- A leaf's symbol names its node. -/
theorem TreeInv.leaf_unique {nodes : List Node} {root : NodeIdx} (h : TreeInv nodes root) {i j : NodeIdx} {s : Byte}
    {f g : NodeFreq} (hi : nodeAt nodes i = some (.leaf s f)) (hj : nodeAt nodes j = some (.leaf s g)) : i = j := by
  have hnd := h.symbols_nodup
  rw [leafSymbols, List.Nodup, List.pairwise_filterMap, List.pairwise_iff_getElem] at hnd
  obtain ⟨hil, hi'⟩ := List.getElem?_eq_some_iff.1 hi
  obtain ⟨hjl, hj'⟩ := List.getElem?_eq_some_iff.1 hj
  apply BitVec.eq_of_toNat_eq
  refine Classical.byContradiction fun hne => ?_
  rcases Nat.lt_or_gt_of_ne hne with hlt | hlt
  · exact hnd _ _ hil hjl hlt s (by rw [hi']; rfl) s (by rw [hj']; rfl) rfl
  · exact hnd _ _ hjl hil hlt s (by rw [hj']; rfl) s (by rw [hi']; rfl) rfl

/-- There is one path from the root to the leaf of a symbol. -/
theorem TreeInv.leadsTo_unique {nodes : List Node} {root : NodeIdx} (h : TreeInv nodes root) {p q : Bits} {s : Byte}
    (hp : LeadsTo nodes root p s) (hq : LeadsTo nodes root q s) : p = q := by
  obtain ⟨i, f, hpi, hi⟩ := hp
  obtain ⟨j, g, hqj, hj⟩ := hq
  have := h.leaf_unique hi hj
  subst this
  exact h.path_unique _ p q i (Nat.le_refl _) hpi hqj

/-- Every leaf's symbol is at the end of a path. -/
theorem TreeInv.leadsTo_of_mem {nodes : List Node} {root : NodeIdx} (h : TreeInv nodes root) {s : Byte}
    (hs : s ∈ leafSymbols nodes) : ∃ p, LeadsTo nodes root p s := by
  obtain ⟨n, hn, hns⟩ := List.mem_filterMap.1 hs
  obtain ⟨k, hk⟩ := List.mem_iff_getElem?.1 hn
  have hkl := (List.getElem?_eq_some_iff.1 hk).1
  have hcap := h.length_le
  simp only [Config.nodeCap] at hcap
  have hkn : (BitVec.ofNat 9 k).toNat = k := by rw [BitVec.toNat_ofNat]; exact Nat.mod_eq_of_lt (by omega)
  obtain ⟨p, hp⟩ := h.reachable _ (BitVec.ofNat 9 k) (by rw [hkn]; exact hkl) (Nat.le_refl _)
  cases n with
  | internal f l r => cases hns
  | leaf t f =>
    simp only [Node.symbol?, Option.some.injEq] at hns
    subst hns
    exact ⟨p, BitVec.ofNat 9 k, f, hp, by rw [nodeAt, hkn]; exact hk⟩

theorem mem_leafSymbols_of_leadsTo {nodes : List Node} {i : NodeIdx} {p : Bits} {s : Byte} (h : LeadsTo nodes i p s) :
    s ∈ leafSymbols nodes := by
  obtain ⟨j, f, -, hj⟩ := h
  exact List.mem_filterMap.2 ⟨_, List.mem_of_getElem? hj, rfl⟩

/-- A path to a leaf goes no further. -/
theorem leadsTo_stop {nodes : List Node} {i : NodeIdx} {p q : Bits} {s t : Byte} (hp : LeadsTo nodes i p s)
    (hq : LeadsTo nodes i (p ++ q) t) : q = [] ∧ s = t := by
  obtain ⟨j, f, hpj, hj⟩ := hp
  obtain ⟨k, g, hqk, hk⟩ := hq
  rw [follow_append, hpj] at hqk
  cases q with
  | nil =>
    simp only [follow, Option.bind_some, Option.some.injEq] at hqk
    subst hqk
    rw [hj] at hk
    cases hk
    exact ⟨rfl, rfl⟩
  | cons b q =>
    obtain ⟨f', l, r, hn, -⟩ := follow_cons hqk
    rw [hj] at hn
    cases hn

/-- The depth of a leaf is at most n - 1 ≤ 255 (R168 (e)). -/
theorem TreeInv.depth_le {nodes : List Node} {root : NodeIdx} (h : TreeInv nodes root) {p : Bits} {j : NodeIdx}
    (hp : follow nodes root p = some j) : 2 * p.length ≤ nodes.length - 1 := by
  rcases List.eq_nil_or_concat p with rfl | ⟨p, b, rfl⟩
  · simp
  · rw [List.concat_eq_append] at hp ⊢
    obtain ⟨u, f, l, r, hpu, hu, -⟩ := follow_snoc hp
    have h1 := h.follow_le p root u hpu
    have h2 := h.leaves_first u.toNat _ hu
    have h3 := h.root_last
    have h4 : ¬ 2 * u.toNat < nodes.length := fun c => by simpa [Node.kind] using h2.2 c
    have h5 := nodeAt_lt hu
    simp only [List.length_append, List.length_singleton]
    have hodd : nodes.length % 2 = 1 := by
      have hlen := h.parents.length_eq
      rw [List.length_range] at hlen
      have heven : ∀ l : List Node, (childIndices l).length % 2 = 0 := by
        intro l
        induction l with
        | nil => rfl
        | cons n l ih =>
          have e : childIndices (n :: l) = n.children ++ childIndices l := rfl
          rw [e, List.length_append]
          cases n with
          | leaf s f => simpa [Node.children] using ih
          | internal f l r => simp [Node.children]; omega
      have := heven nodes
      omega
    omega

/-! ### The traversal -/

/-- The traversal writes nothing but paths. -/
theorem walk_sound (nodes : List Node) (fuel : Nat) (i : NodeIdx) (p : Bits) (code : Table Bits) (s : Byte) :
    (walk nodes fuel i p code).entry s = code.entry s ∨
      ∃ q, (walk nodes fuel i p code).entry s = p ++ q ∧ LeadsTo nodes i q s := by
  induction fuel generalizing i p code with
  | zero => exact .inl rfl
  | succ fuel ih =>
    rw [walk]
    split
    · exact .inl rfl
    · next t f hn =>
      rw [Table.entry_put]
      split
      · next hst =>
        subst hst
        exact .inr ⟨[], by simp, i, f, rfl, hn⟩
      · exact .inl rfl
    · next f l r hn =>
      have hext : ∀ (b : Bool) (q : Bits), LeadsTo nodes (branch l r b) q s → LeadsTo nodes i (b :: q) s := by
        rintro b q ⟨j, g, hj, hs⟩
        exact ⟨j, g, by rw [follow, hn]; exact hj, hs⟩
      rcases ih r (p ++ [true]) (walk nodes fuel l (p ++ [false]) code) with h | ⟨q, h, hq⟩
      · rw [h]
        rcases ih l (p ++ [false]) code with h | ⟨q, h, hq⟩
        · exact .inl h
        · exact .inr ⟨false :: q, by rw [h]; simp, hext false q hq⟩
      · exact .inr ⟨true :: q, by rw [h]; simp, hext true q hq⟩

/-- The traversal visits every leaf within the fuel. -/
theorem walk_complete (nodes : List Node) (fuel : Nat) (i : NodeIdx) (p : Bits) (code : Table Bits) (s : Byte) (q : Bits)
    (hq : LeadsTo nodes i q s) (hlen : q.length < fuel) :
    ∃ q', (walk nodes fuel i p code).entry s = p ++ q' ∧ LeadsTo nodes i q' s := by
  induction fuel generalizing i p code q with
  | zero => omega
  | succ fuel ih =>
    obtain ⟨j, f, hj, hs⟩ := hq
    cases q with
    | nil =>
      simp only [follow, Option.some.injEq] at hj
      subst hj
      refine ⟨[], ?_, i, f, rfl, hs⟩
      rw [walk, hs]
      simp
    | cons b q =>
      obtain ⟨g, l, r, hn, hj⟩ := follow_cons hj
      have hext : ∀ (b : Bool) (q : Bits), LeadsTo nodes (branch l r b) q s → LeadsTo nodes i (b :: q) s := by
        rintro b q ⟨j, g, hj, hs⟩
        exact ⟨j, g, by rw [follow, hn]; exact hj, hs⟩
      have hb : LeadsTo nodes (branch l r b) q s := ⟨j, f, hj, hs⟩
      simp only [List.length_cons] at hlen
      rw [walk, hn]
      dsimp only
      cases b with
      | true =>
        obtain ⟨q', h1, h2⟩ := ih r (p ++ [true]) (walk nodes fuel l (p ++ [false]) code) q hb (by omega)
        exact ⟨true :: q', by rw [h1]; simp, hext true q' h2⟩
      | false =>
        obtain ⟨q', h1, h2⟩ := ih l (p ++ [false]) code q hb (by omega)
        rcases walk_sound nodes fuel r (p ++ [true]) (walk nodes fuel l (p ++ [false]) code) s with h | ⟨q'', h, h3⟩
        · exact ⟨false :: q', by rw [h, h1]; simp, hext false q' h2⟩
        · exact ⟨true :: q'', by rw [h]; simp, hext true q'' h3⟩

/-! ### The code table -/

/-- GEN on the empty tree (R183). -/
theorem genTable_empty (root : NodeIdx) : genTable [] root = emptyCode := by simp [genTable, nodeAt]

/-- GEN on a tree that is one leaf (R182). -/
theorem genTable_leaf {nodes : List Node} {root : NodeIdx} {s : Byte} {f : NodeFreq}
    (h : nodeAt nodes root = some (.leaf s f)) (y : Byte) :
    (genTable nodes root).entry y = if y = s then [false] else [] := by
  simp [genTable, h, Table.entry_put]

/-- GEN on a tree of two or more leaves: the code of a symbol is the path to its leaf (R181). -/
theorem genTable_internal {nodes : List Node} {root l r : NodeIdx} {f : NodeFreq} (hinv : TreeInv nodes root)
    (h : nodeAt nodes root = some (.internal f l r)) (s : Byte) (p : Bits) :
    (genTable nodes root).entry s = p ∧ p ≠ [] ↔ LeadsTo nodes root p s := by
  have hg : genTable nodes root = walk nodes nodes.length root [] emptyCode := by simp [genTable, h]
  have hne : ∀ {q : Bits}, LeadsTo nodes root q s → q ≠ [] := by
    rintro q ⟨j, g, hj, hs⟩ rfl
    simp only [follow, Option.some.injEq] at hj
    subst hj
    rw [h] at hs
    cases hs
  constructor
  · rintro ⟨hp, hpn⟩
    rw [hg] at hp
    rcases walk_sound nodes nodes.length root [] emptyCode s with h1 | ⟨q, h1, h2⟩
    · rw [hp, emptyCode_entry] at h1
      exact absurd h1 hpn
    · rw [hp, List.nil_append] at h1
      exact h1 ▸ h2
  · intro hp
    have hlen : p.length < nodes.length := by
      obtain ⟨j, g, hj, -⟩ := hp
      have := hinv.depth_le hj
      have := nodeAt_lt h
      omega
    obtain ⟨q, h1, h2⟩ := walk_complete nodes nodes.length root [] emptyCode s p hp hlen
    rw [List.nil_append] at h1
    have := hinv.leadsTo_unique hp h2
    subst this
    exact ⟨by rw [hg, h1], hne hp⟩

/-- A tree whose root is a leaf has that one node. -/
theorem TreeInv.length_of_leaf {nodes : List Node} {root : NodeIdx} (hinv : TreeInv nodes root) {s : Byte} {f : NodeFreq}
    (h : nodeAt nodes root = some (.leaf s f)) : nodes.length = 1 := by
  have h1 := hinv.leaves_first root.toNat _ h
  have h2 := hinv.root_last
  have h3 := nodeAt_lt h
  have : 2 * root.toNat < nodes.length := h1.1 rfl
  omega

/-- The root of a tree that is not empty is a node. -/
theorem TreeInv.root_some {nodes : List Node} {root : NodeIdx} (hinv : TreeInv nodes root) (h : nodes ≠ []) :
    ∃ n, nodeAt nodes root = some n := by
  have h1 := hinv.root_last
  have h2 := List.length_pos_iff.2 h
  exact ⟨_, List.getElem?_eq_getElem (by omega)⟩

/-- A symbol has a code exactly when a leaf carries it (R184 (a)). -/
theorem genTable_ne_nil {nodes : List Node} {root : NodeIdx} (hinv : TreeInv nodes root) (s : Byte) :
    (genTable nodes root).entry s ≠ [] ↔ s ∈ leafSymbols nodes := by
  by_cases hnil : nodes = []
  · subst hnil
    simp [genTable_empty, leafSymbols]
  obtain ⟨n, hn⟩ := hinv.root_some hnil
  cases n with
  | leaf t f =>
    rw [genTable_leaf hn]
    have hl := hinv.length_of_leaf hn
    obtain ⟨m, rfl⟩ := List.length_eq_one_iff.1 hl
    have hm := List.mem_of_getElem? hn
    simp only [List.mem_singleton] at hm
    subst hm
    simp [leafSymbols, Node.symbol?]
  | internal f l r =>
    constructor
    · intro hne
      exact mem_leafSymbols_of_leadsTo ((genTable_internal hinv hn s _).1 ⟨rfl, hne⟩)
    · intro hs
      obtain ⟨p, hp⟩ := hinv.leadsTo_of_mem hs
      obtain ⟨h1, h2⟩ := (genTable_internal hinv hn s p).2 hp
      exact h1 ▸ h2

/-- Every code table GEN produces satisfies R39 (c). -/
theorem genTable_codeSetInv {nodes : List Node} {root : NodeIdx} (hinv : TreeInv nodes root) :
    CodeSetInv (genTable nodes root) := by
  by_cases hnil : nodes = []
  · subst hnil
    exact .inl fun s => by simp [genTable_empty]
  obtain ⟨n, hn⟩ := hinv.root_some hnil
  cases n with
  | leaf t f =>
    refine .inr (.inl ⟨t, by simp [genTable_leaf hn], fun y hy => by simp [genTable_leaf hn, hy]⟩)
  | internal f l r =>
    refine .inr (.inr ⟨?_, ?_⟩)
    · -- the left-most and the right-most leaf
      have hleaf : ∀ (d : Nat) (i : NodeIdx), i.toNat < nodes.length → i.toNat ≤ d → ∃ p s, LeadsTo nodes i p s := by
        intro d
        induction d with
        | zero =>
          intro i hi hd
          cases hni : nodeAt nodes i with
          | none => simp [nodeAt] at hni; omega
          | some m =>
            cases m with
            | leaf s g => exact ⟨[], s, i, g, rfl, hni⟩
            | internal g l' r' =>
              have := hinv.ordered i.toNat _ hni l'.toNat (by simp [Node.children])
              omega
        | succ d ih =>
          intro i hi hd
          cases hni : nodeAt nodes i with
          | none => simp [nodeAt] at hni; omega
          | some m =>
            cases m with
            | leaf s g => exact ⟨[], s, i, g, rfl, hni⟩
            | internal g l' r' =>
              have := hinv.ordered i.toNat _ hni l'.toNat (by simp [Node.children])
              obtain ⟨p, s, j, e, hj, hs⟩ := ih l' (by omega) (by omega)
              exact ⟨false :: p, s, j, e, by rw [follow, hni]; simpa [branch] using hj, hs⟩
      have hlt : l.toNat < nodes.length := by
        have := hinv.ordered root.toNat _ hn l.toNat (by simp [Node.children])
        have := nodeAt_lt hn
        omega
      have hrt : r.toNat < nodes.length := by
        have := hinv.ordered root.toNat _ hn r.toNat (by simp [Node.children])
        have := nodeAt_lt hn
        omega
      obtain ⟨p, s, j, g, hj, hs⟩ := hleaf _ l hlt (Nat.le_refl _)
      obtain ⟨q, t, k, g', hk, ht⟩ := hleaf _ r hrt (Nat.le_refl _)
      have hps : LeadsTo nodes root (false :: p) s := ⟨j, g, by rw [follow, hn]; simpa [branch] using hj, hs⟩
      have hqt : LeadsTo nodes root (true :: q) t := ⟨k, g', by rw [follow, hn]; simpa [branch] using hk, ht⟩
      obtain ⟨h1, h2⟩ := (genTable_internal hinv hn s _).2 hps
      obtain ⟨h3, h4⟩ := (genTable_internal hinv hn t _).2 hqt
      refine ⟨s, t, ?_, by rw [h1]; exact h2, by rw [h3]; exact h4⟩
      rintro rfl
      rw [h1] at h3
      cases h3
    · intro s t hst hs hpre
      obtain ⟨q, hq⟩ := hpre
      have h1 := (genTable_internal hinv hn s _).1 ⟨rfl, hs⟩
      have h2 := (genTable_internal hinv hn t _).1 ⟨rfl, by rw [← hq]; simp [hs]⟩
      rw [← hq] at h2
      exact hst (leadsTo_stop h1 h2).2

/-- Every code is at most 255 bits long (R184 (e)). -/
theorem genTable_length_le {nodes : List Node} {root : NodeIdx} (hinv : TreeInv nodes root) (s : Byte) :
    ((genTable nodes root).entry s).length ≤ Config.codeMaxLen := by
  by_cases hnil : nodes = []
  · subst hnil
    simp [genTable_empty]
  obtain ⟨n, hn⟩ := hinv.root_some hnil
  cases n with
  | leaf t f =>
    rw [genTable_leaf hn]
    split <;> simp [Config.codeMaxLen]
  | internal f l r =>
    by_cases hs : (genTable nodes root).entry s = []
    · simp [hs]
    · obtain ⟨j, g, hj, -⟩ := (genTable_internal hinv hn s _).1 ⟨rfl, hs⟩
      have h1 := hinv.depth_le hj
      have h2 := hinv.length_le
      simp only [Config.nodeCap, Config.codeMaxLen] at *
      omega

/-- Distinct symbols never have codes one of which starts the other, whichever case of R39 (c) holds. -/
theorem CodeSetInv.prefixFree {code : Table Bits} (h : CodeSetInv code) : PrefixFree code := by
  rcases h with h | ⟨s, h1, h2⟩ | ⟨-, h⟩
  · intro s t _ hs
    exact absurd (h s) hs
  · intro a b hab ha hpre
    have hs : a = s := Classical.byContradiction fun hne => ha (h2 a hne)
    subst hs
    rw [h2 b (Ne.symm hab)] at hpre
    exact ha (List.prefix_nil.1 hpre)
  · exact h

/-- A code names its symbol. -/
theorem PrefixFree.code_unique {code : Table Bits} (h : PrefixFree code) {s t : Byte} (hs : code.entry s ≠ [])
    (e : code.entry t = code.entry s) : t = s :=
  Classical.byContradiction fun hne => h s t (Ne.symm hne) hs (e ▸ List.prefix_rfl)

/-- The Reverse Code Table inverts the Code Table (R185). -/
theorem PrefixFree.rev_entry {code : Table Bits} (h : PrefixFree code) {s : Byte} (hs : code.entry s ≠ []) :
    rev code (code.entry s) = some s :=
  Sys2Proof.Machine.rev_entry hs fun _ e => h.code_unique hs e

end Sys2Proof.Machine
end

