-- ==== Sys2Proof/Laws/Commands.lean ====
section
/-! SUPPORT. What each shared operation and each command's step can do, said once. -/

namespace Sys2Proof.Machine

/-- Everything the end of a command can do (R133, R134). -/
theorem finish_next {op : Byte} {s t : State} {r : Except Failure State} (h : finish op s r = .next t) :
    (∃ u, r = .ok u ∧ t = u.succeed op) ∨ (∃ f, r = .error f ∧ t = s.fail op f) := by
  cases r with
  | ok u => exact .inl ⟨u, rfl, by simpa [finish] using h.symm⟩
  | error f => exact .inr ⟨f, rfl, by simpa [finish] using h.symm⟩

/-- A command always ends. -/
theorem finish_total (op : Byte) (s : State) (r : Except Failure State) : ∃ t, finish op s r = .next t := by
  cases r with
  | ok u => exact ⟨_, rfl⟩
  | error f => exact ⟨_, rfl⟩

/-- Everything PACK's step can do (R190, R194). -/
theorem packState_cases (s : State) :
    (∃ c, packState s = .ok c ∧ AllCoded s.code s.text ∧
      (s.text = [] ∨ 2 + (codesOf s.code s.text).length / 8 ≤ s.cfg.contCap) ∧
      c = { s with
        cont := container (codesOf s.code s.text), blen := BitVec.ofNat 32 (codesOf s.code s.text).length,
        pad := BitVec.ofNat 8 (padding (codesOf s.code s.text).length), bvalid := false }) ∨
    (∃ f, packState s = .error f ∧ packBits s.code s.cfg.contCap 0 [] s.text = .error f) := by
  cases h : packBits s.code s.cfg.contCap 0 [] s.text with
  | error f => exact .inr ⟨f, by simp [packState, h], rfl⟩
  | ok bits =>
    obtain ⟨rfl, h1, h2⟩ := (packBits_ok 0 [] bits).1 h
    rw [List.nil_append] at h h2
    exact .inl ⟨_, by simp [packState, h], h1, h2, rfl⟩

/-- The only failures of PACK's step (R194). -/
theorem packBits_error {code : Table Bits} {cap : Nat} {text : List Byte} (i : Nat) (bits : Bits) {f : Failure}
    (h : packBits code cap i bits text = .error f) :
    (f.err = .missingSymbol ∧ ∃ y ∈ text, code.entry y = []) ∨ f.err = .contOverflow := by
  induction text generalizing i bits with
  | nil => cases h
  | cons y text ih =>
    rw [packBits] at h
    split at h
    · next hy =>
      cases h
      exact .inl ⟨rfl, y, by simp, hy⟩
    · dsimp only at h
      split at h
      · cases h
        exact .inr rfl
      · rcases ih _ _ h with ⟨h1, z, hz, h2⟩ | h1
        · exact .inl ⟨h1, z, by simp [hz], h2⟩
        · exact .inr h1

/-- PACK's step where every symbol has a code and the container fits (R191 to R193). -/
theorem packState_fits {s : State} (hc : AllCoded s.code s.text)
    (hf : s.text = [] ∨ 2 + (codesOf s.code s.text).length / 8 ≤ s.cfg.contCap) :
    packState s = .ok { s with
      cont := container (codesOf s.code s.text), blen := BitVec.ofNat 32 (codesOf s.code s.text).length,
      pad := BitVec.ofNat 8 (padding (codesOf s.code s.text).length), bvalid := false } := by
  have h := (packBits_ok (code := s.code) (cap := s.cfg.contCap) (text := s.text) 0 [] (codesOf s.code s.text)).2
    ⟨rfl, hc, hf⟩
  rw [packState, h]

/-- Everything UNPACK's step can do (R205, R206). -/
theorem unpackState_cases (s : State) :
    (s.cont = [] ∧ unpackState s = .error { err := .malformedContainer, info := 0 }) ∨
    (∃ h rest, s.cont = h :: rest ∧ 8 * rest.length < h.toNat ∧
      unpackState s = .error { err := .malformedContainer, info := (h.setWidth 32 <<< 8) ||| 1 }) ∨
    (∃ h rest, s.cont = h :: rest ∧ h.toNat ≤ 8 * rest.length ∧
      unpackState s = .ok { s with
        pad := h, blen := BitVec.ofNat 32 (8 * rest.length - h.toNat), bvalid := true }) := by
  cases hc : s.cont with
  | nil => exact .inl ⟨rfl, by simp [unpackState, hc]⟩
  | cons h rest =>
    by_cases hh : 8 * rest.length < h.toNat
    · exact .inr (.inl ⟨h, rest, rfl, hh, by simp [unpackState, hc, hh]⟩)
    · exact .inr (.inr ⟨h, rest, rfl, by omega, by simp [unpackState, hc, hh]⟩)

/-- Everything DECODE's step can do (R215, R219). -/
theorem decodeState_cases (m : Mode) (s : State) :
    (s.bvalid = false ∧ decodeState m s = .error { err := .sequence, info := 0 }) ∨
    (s.bvalid = true ∧ ∃ f, decodeBits m s = .error f ∧ decodeState m s = .error f) ∨
    (s.bvalid = true ∧ ∃ out, decodeBits m s = .ok out ∧ decodeState m s = .ok { s with text := out }) := by
  cases hb : s.bvalid with
  | false => exact .inl ⟨rfl, by simp [decodeState, hb]⟩
  | true =>
    cases hd : decodeBits m s with
    | error f => exact .inr (.inl ⟨rfl, f, rfl, by simp [decodeState, hb, hd]⟩)
    | ok out => exact .inr (.inr ⟨rfl, out, rfl, by simp [decodeState, hb, hd]⟩)

/-- Table mode emits at most TEXT_CAP symbols, and its failures are the two of R219. -/
theorem scanTable_bound {code : Table Bits} {cap : Nat} (bs : Bits) : ∀ (j start : Nat) (cand : Bits) (out : List Byte),
    out.length ≤ cap →
      (∀ o, scanTable code cap j start cand out bs = .ok o → o.length ≤ cap) ∧
      (∀ f, scanTable code cap j start cand out bs = .error f → f.err = .textOverflow ∨ f.err = .undecodableTail) := by
  induction bs with
  | nil =>
    intro j start cand out hout
    rw [scanTable]
    split
    · exact ⟨fun o h => by cases h; exact hout, fun f h => by cases h⟩
    · exact ⟨fun o h => (by cases h), fun f h => by cases h; exact .inr rfl⟩
  | cons b bs ih =>
    intro j start cand out hout
    rw [scanTable]
    split
    · split
      · exact ⟨fun o h => (by cases h), fun f h => by cases h; exact .inl rfl⟩
      · exact ih _ _ _ _ (by simp; omega)
    · exact ih _ _ _ _ hout

/-- Tree mode likewise. -/
theorem scanTree_bound {nodes : List Node} {root : NodeIdx} {cap : Nat} (bs : Bits) :
    ∀ (j start : Nat) (dead : Bool) (cur : NodeIdx) (out : List Byte), out.length ≤ cap →
      (∀ o, scanTree nodes root cap j start dead cur out bs = .ok o → o.length ≤ cap) ∧
      (∀ f, scanTree nodes root cap j start dead cur out bs = .error f →
        f.err = .textOverflow ∨ f.err = .undecodableTail) := by
  induction bs with
  | nil =>
    intro j start dead cur out hout
    rw [scanTree]
    split
    · exact ⟨fun o h => (by cases h), fun f h => by cases h; exact .inr rfl⟩
    · exact ⟨fun o h => by cases h; exact hout, fun f h => by cases h⟩
  | cons b bs ih =>
    intro j start dead cur out hout
    cases dead with
    | true => rw [scanTree]; exact ih _ _ _ _ _ hout
    | false =>
      rw [scanTree]
      split
      · exact ih _ _ _ _ _ hout
      · exact ih _ _ _ _ _ hout
      · split
        · exact ⟨fun o h => (by cases h), fun f h => by cases h; exact .inl rfl⟩
        · exact ih _ _ _ _ _ (by simp; omega)

/-- Everything the scan of a mode can say about its outcome (R219). -/
theorem decodeBits_bound (m : Mode) (s : State) :
    (∀ o, decodeBits m s = .ok o → o.length ≤ s.cfg.textCap) ∧
    (∀ f, decodeBits m s = .error f → f.err = .textOverflow ∨ f.err = .undecodableTail) := by
  cases m with
  | table => exact scanTable_bound _ _ _ _ _ (by simp)
  | tree => exact scanTree_bound _ _ _ _ _ _ (by simp)

/-- The error codes PACK's step can end with (R194). -/
theorem packState_error {s : State} {f : Failure} (h : packState s = .error f) :
    f.err = .missingSymbol ∨ f.err = .contOverflow := by
  rcases packState_cases s with ⟨c, h1, -⟩ | ⟨g, h1, h2⟩
  · rw [h1] at h
    cases h
  · rw [h1] at h
    cases h
    exact (packBits_error 0 [] h2).imp And.left id

/-- The error code UNPACK's step can end with (R206). -/
theorem unpackState_error {s : State} {f : Failure} (h : unpackState s = .error f) : f.err = .malformedContainer := by
  rcases unpackState_cases s with ⟨-, h1⟩ | ⟨_, _, -, -, h1⟩ | ⟨_, _, -, -, h1⟩ <;> rw [h1] at h <;> cases h <;> rfl

/-- The error codes DECODE's step can end with (R219). -/
theorem decodeState_error {m : Mode} {s : State} {f : Failure} (h : decodeState m s = .error f) :
    (s.bvalid = false ∧ f.err = .sequence) ∨
    (s.bvalid = true ∧ (f.err = .textOverflow ∨ f.err = .undecodableTail)) := by
  rcases decodeState_cases m s with ⟨h0, h1⟩ | ⟨h0, g, h2, h1⟩ | ⟨-, _, -, h1⟩
  · rw [h1] at h
    cases h
    exact .inl ⟨h0, rfl⟩
  · rw [h1] at h
    cases h
    exact .inr ⟨h0, (decodeBits_bound m s).2 _ h2⟩
  · rw [h1] at h
    cases h

/-- Everything DECOMPRESS can do (R236). -/
theorem execDecompress_cases (m : Mode) (s : State) :
    (∃ f, unpackState s = .error f ∧
      execDecompress m s = .next (s.fail (Instr.decompress m).opcode f)) ∨
    (∃ t, unpackState s = .ok t ∧
      execDecompress m s = finish (Instr.decompress m).opcode t (decodeState m t)) := by
  cases h : unpackState s with
  | error f => exact .inl ⟨f, rfl, by rw [execDecompress, h]; rfl⟩
  | ok t => exact .inr ⟨t, rfl, by rw [execDecompress, h]⟩

/-- Every command ends with a next state. -/
theorem exec_total (i : Instr) (s : State) : ∃ t, exec i s = .next t := by
  cases i with
  | nop => exact ⟨_, rfl⟩
  | clr => exact ⟨_, rfl⟩
  | count => exact ⟨_, rfl⟩
  | build => exact ⟨_, rfl⟩
  | gen => exact ⟨_, rfl⟩
  | pack => exact finish_total _ _ _
  | unpack => exact finish_total _ _ _
  | decode m => exact finish_total _ _ _
  | compress => exact finish_total _ _ _
  | decompress m =>
    show ∃ t, execDecompress m s = .next t
    rcases execDecompress_cases m s with ⟨f, -, h⟩ | ⟨t, -, h⟩ <;> rw [h]
    · exact ⟨_, rfl⟩
    · exact finish_total _ _ _

end Sys2Proof.Machine
end

