-- ==== Sys2Proof/Laws/FrequencyCounter.lean ====
section
/-! SUPPORT. COUNT: every entry is the number of occurrences of its symbol (spec/41_frequency_counter.md R150). -/

namespace Sys2Proof.Machine

theorem foldl_bump_entry (text : List Byte) (f : Table Word) (y : Byte) :
    (text.foldl bump f).entry y = f.entry y + BitVec.ofNat 32 (text.count y) := by
  induction text generalizing f with
  | nil => simp
  | cons s text ih =>
    rw [List.foldl_cons, ih, bump, Table.entry_put, List.count_cons]
    by_cases h : y = s
    · subst h
      simp only [if_true, beq_self_eq_true, BitVec.ofNat_add]
      rw [BitVec.add_assoc, BitVec.add_comm (BitVec.ofNat 32 (text.count y))]
      rfl
    · simp [h, Ne.symm h]

/-- FREQ[y] is the number of positions that hold y (R150). -/
theorem countText_entry (text : List Byte) (y : Byte) :
    (countText text).entry y = BitVec.ofNat 32 (text.count y) := by
  simp [countText, foldl_bump_entry]

/-- No count wraps when the text is shorter than 2^32 (R6 (a)). -/
theorem countText_entry_toNat {text : List Byte} (h : text.length < 4294967296) (y : Byte) :
    ((countText text).entry y).toNat = text.count y := by
  have := List.count_le_length (a := y) (l := text)
  rw [countText_entry, BitVec.toNat_ofNat, Nat.mod_eq_of_lt (by omega)]

/-- A symbol is a key of the counted table exactly when it occurs in the text. -/
theorem countText_entry_ne_zero {text : List Byte} (h : text.length < 4294967296) (y : Byte) :
    (countText text).entry y ≠ 0 ↔ y ∈ text := by
  rw [← List.count_pos_iff, ← countText_entry_toNat h y]
  constructor
  · intro hne
    refine Nat.pos_of_ne_zero fun h0 => hne (BitVec.eq_of_toNat_eq ?_)
    simpa using h0
  · intro hpos h0
    rw [h0] at hpos
    simp at hpos

/-- The order of the positions does not matter (R152). -/
theorem countText_perm {a b : List Byte} (h : a.Perm b) : countText a = countText b :=
  Table.ext_entry fun s => by rw [countText_entry, countText_entry, h.count_eq]

/-- Entries over a list of symbols sum to the number of positions that hold one of them. -/
theorem sum_count_eq_length (text : List Byte) :
    (symbols.map fun y => text.count y).sum = text.length := by
  induction text with
  | nil =>
    have h0 : ∀ l : List Byte, (l.map fun y => List.count y []).sum = 0 := by
      intro l
      induction l with
      | nil => rfl
      | cons a l _ => simp
    exact h0 symbols
  | cons s text ih =>
    have hone : ∀ l : List Byte, l.Nodup →
        (l.map fun y => (s :: text).count y).sum = (l.map fun y => text.count y).sum + if s ∈ l then 1 else 0 := by
      intro l
      induction l with
      | nil => simp
      | cons a l ih2 =>
        intro hnd
        obtain ⟨ha, hnd⟩ := List.nodup_cons.1 hnd
        rw [List.map_cons, List.sum_cons, ih2 hnd, List.map_cons, List.sum_cons, List.count_cons]
        by_cases hsa : s = a
        · subst hsa
          simp [ha]
          omega
        · simp [hsa]
          omega
    rw [hone _ symbols_nodup, ih, if_pos (mem_symbols s), List.length_cons]

end Sys2Proof.Machine
end

