-- ==== Sys2Proof/Laws/Memory.lean ====
section
/-! SUPPORT. The form of the buffers, 0 ≤ TLEN ≤ TEXT_CAP and 0 ≤ CLEN ≤ CONT_CAP (spec/10_state.md R39 (a)): the reset
state has it, and every operation that writes a buffer keeps it. -/

namespace Sys2Proof.Machine

theorem wf_iff {s : State} : Memory.wf s = true ↔ s.text.length ≤ s.cfg.textCap ∧ s.cont.length ≤ s.cfg.contCap := by
  simp [Memory.wf]

theorem wf_resetWith (c : Config) : Memory.wf (State.resetWith c) = true := wf_iff.2 ⟨Nat.zero_le _, Nat.zero_le _⟩

theorem wf_reset : Memory.wf State.reset = true := wf_resetWith Config.chip

/-- The ranges of R5 hold for the chip of `State.reset`. -/
theorem chip_wellFormed : Config.chip.WellFormed := by
  have h1 := Config.chipCapacities.1.isLt
  have h2 := Config.chipCapacities.2.isLt
  refine ⟨⟨?_, ?_⟩, ?_, ?_⟩ <;> (unfold Config.chip; dsimp only; omega)

theorem wf_succeed {s : State} (op : Byte) (h : Memory.wf s = true) : Memory.wf (s.succeed op) = true := h

theorem wf_fail {s : State} (op : Byte) (f : Failure) (h : Memory.wf s = true) : Memory.wf (s.fail op f) = true := h

/-- PACK writes no more than CONT_CAP bytes (R194). -/
theorem wf_packState {s t : State} (hc : s.cfg.WellFormed) (h : Memory.wf s = true) (ht : packState s = .ok t) :
    Memory.wf t = true := by
  rcases packState_cases s with ⟨c, h1, -, hfit, rfl⟩ | ⟨f, h1, -⟩
  · rw [h1] at ht
    cases ht
    refine wf_iff.2 ⟨(wf_iff.1 h).1, ?_⟩
    show (container _).length ≤ s.cfg.contCap
    rw [container_length]
    rcases hfit with he | he
    · have := hc.2.1
      simp only [he, codesOf_nil, List.length_nil]
      omega
    · exact he
  · rw [h1] at ht
    cases ht

/-- UNPACK stores to no buffer (R205). -/
theorem wf_unpackState {s t : State} (h : Memory.wf s = true) (ht : unpackState s = .ok t) : Memory.wf t = true := by
  rcases unpackState_cases s with ⟨-, h1⟩ | ⟨_, _, -, -, h1⟩ | ⟨_, _, -, -, h1⟩ <;> rw [h1] at ht <;> cases ht
  exact h

/-- DECODE writes no more than TEXT_CAP symbols (R219). -/
theorem wf_decodeState {m : Mode} {s t : State} (h : Memory.wf s = true) (ht : decodeState m s = .ok t) :
    Memory.wf t = true := by
  rcases decodeState_cases m s with ⟨-, h1⟩ | ⟨-, _, -, h1⟩ | ⟨-, out, h2, h1⟩ <;> rw [h1] at ht <;> cases ht
  exact wf_iff.2 ⟨(decodeBits_bound m s).1 out h2, (wf_iff.1 h).2⟩

/-- A write to a position below the capacity keeps a buffer within it (R72, R73). -/
theorem bufferWrite_length_le {buf b : List Byte} {i cap : Nat} {v : Byte} (hi : i < cap) (h : buf.length ≤ cap)
    (hb : bufferWrite buf i v = .ok b) : b.length ≤ cap := by
  rcases bufferWrite_cases buf i v with ⟨-, h1⟩ | ⟨h0, h1⟩ | ⟨-, h1⟩ <;> rw [h1] at hb <;> cases hb
  · simpa using h
  · simp
    omega

/-- A length register only cuts (R68). -/
theorem lengthWrite_length_le {buf b : List Byte} {v : Word} (hb : lengthWrite buf v = .ok b) : b.length ≤ buf.length := by
  rcases lengthWrite_cases buf v with ⟨-, h1⟩ | ⟨-, h1⟩ <;> rw [h1] at hb <;> cases hb
  simp

/-- Every store keeps the form. -/
theorem wf_writeLoc {s t : State} {v : Word} {l : Loc} (hv : l.valid s.cfg = true) (h : Memory.wf s = true)
    (ht : writeLoc s v l = .ok t) : Memory.wf t = true := by
  obtain ⟨h1, h2⟩ := wf_iff.1 h
  rcases writeLoc_ok ht with ⟨-, rfl⟩ | ⟨y, -, rfl⟩ | ⟨b, hb, rfl⟩ | ⟨b, hb, rfl⟩
  · exact h
  · exact h
  · refine wf_iff.2 ⟨?_, h2⟩
    rcases hb with ⟨-, hb⟩ | ⟨i, rfl, hb⟩
    · exact Nat.le_trans (lengthWrite_length_le hb) h1
    · exact bufferWrite_length_le (of_decide_eq_true hv) h1 hb
  · refine wf_iff.2 ⟨h1, ?_⟩
    rcases hb with ⟨-, hb⟩ | ⟨i, rfl, hb⟩
    · exact Nat.le_trans (lengthWrite_length_le hb) h2
    · exact bufferWrite_length_le (of_decide_eq_true hv) h2 hb

/-- Every command keeps the form. -/
theorem wf_exec {i : Instr} {s t : State} (hc : s.cfg.WellFormed) (h : Memory.wf s = true) (ht : exec i s = .next t) :
    Memory.wf t = true := by
  have fin : ∀ {op : Byte} {u : State} {r : Except Failure State}, Memory.wf u = true →
      (∀ v, r = .ok v → Memory.wf v = true) → finish op u r = .next t → Memory.wf t = true := by
    intro op u r hu hr hf
    rcases finish_next hf with ⟨v, hv, rfl⟩ | ⟨f, -, rfl⟩
    · exact hr v hv
    · exact hu
  cases i with
  | nop => cases ht; exact h
  | clr => cases ht; exact wf_resetWith s.cfg
  | count => cases ht; exact h
  | build => cases ht; exact h
  | gen => cases ht; exact h
  | pack => exact fin h (fun _ => wf_packState hc h) (show finish _ s _ = _ from ht)
  | unpack => exact fin h (fun _ => wf_unpackState h) (show finish _ s _ = _ from ht)
  | decode m => exact fin h (fun _ => wf_decodeState h) (show finish _ s _ = _ from ht)
  | compress =>
    have h' : Memory.wf (tablesState s) = true := h
    exact fin h' (fun _ => wf_packState (s := tablesState s) hc h') (show finish _ (tablesState s) _ = _ from ht)
  | decompress m =>
    have ht : execDecompress m s = .next t := ht
    rcases execDecompress_cases m s with ⟨f, -, h2⟩ | ⟨u, h1, h2⟩
    · rw [h2] at ht
      cases ht
      exact h
    · rw [h2] at ht
      have hu := wf_unpackState h h1
      exact fin hu (fun _ => wf_decodeState hu) ht

end Sys2Proof.Machine
end

