-- ==== Sys2Proof/Laws/PerInstr.lean ====
section
/-! SUPPORT. One lemma per command about its command word. -/

namespace Sys2Proof.Laws.EncodeFields

/-- The fields of a command's word (spec/30_encoding.md R100, R101): OP is its opcode, ZERO is 0, and MODE is 0 unless the
command is DECODE or DECOMPRESS in tree mode. -/
def Statement (i : Instr) : Prop :=
  opField (encode i) = i.opcode ∧ zeroField (encode i) = 0 ∧
    (modeField (encode i) = true ↔ i = .decode .tree ∨ i = .decompress .tree)

theorem nop : Statement .nop := by unfold Statement; decide

theorem clr : Statement .clr := by unfold Statement; decide

theorem count : Statement .count := by unfold Statement; decide

theorem build : Statement .build := by unfold Statement; decide

theorem gen : Statement .gen := by unfold Statement; decide

theorem pack : Statement .pack := by unfold Statement; decide

theorem unpack : Statement .unpack := by unfold Statement; decide

theorem decode (m : Mode) : Statement (.decode m) := by unfold Statement; cases m <;> decide

theorem compress : Statement .compress := by unfold Statement; decide

theorem decompress (m : Mode) : Statement (.decompress m) := by unfold Statement; cases m <;> decide

end Sys2Proof.Laws.EncodeFields
end

