-- ==== Sys2Proof/Laws/SymbolDecoder.lean ====
section
/-! SUPPORT. DECODE: what the two scans do with a concatenation of codes and with a leftover, and that they agree on a
matched table and tree (spec/46_symbol_decoder.md R216 to R219). -/

namespace Sys2Proof.Machine

/-- While the candidate and the next bits are a proper start of a code, nothing matches; when they complete it, its symbol
matches (R216). -/
theorem scanTable_code {code : Table Bits} (hpf : PrefixFree code) {cap : Nat} {y : Byte} {out : List Byte} (rest : Bits)
    (suf : Bits) : ∀ (j start : Nat) (cand : Bits), cand ++ suf = code.entry y → suf ≠ [] →
      scanTable code cap j start cand out (suf ++ rest) =
        if out.length = cap then .error (overflowFailure start)
        else scanTable code cap (j + suf.length) (j + suf.length) [] (out ++ [y]) rest := by
  induction suf with
  | nil => intro j start cand _ h; exact absurd rfl h
  | cons b suf ih =>
    intro j start cand hc _
    rw [List.cons_append, scanTable]
    have hy : code.entry y ≠ [] := by rw [← hc]; simp
    by_cases hs : suf = []
    · subst hs
      rw [hc, hpf.rev_entry hy]
      simp
    · have hnone : rev code (cand ++ [b]) = none := by
        rw [rev_eq_none (by simp)]
        intro t ht
        have hpre : code.entry t <+: code.entry y := ⟨suf, by rw [ht, ← hc]; simp⟩
        by_cases hty : t = y
        · subst hty
          rw [ht] at hc
          exact hs (by simpa using hc)
        · exact hpf t y hty (by rw [ht]; simp) hpre
      rw [hnone]
      dsimp only
      rw [ih (j + 1) start (cand ++ [b]) (by rw [← hc]; simp) hs]
      simp only [List.length_cons]
      have e : j + 1 + suf.length = j + (suf.length + 1) := by omega
      rw [e]

/-- A concatenation of codes is split in the one way there is (R216, R221). -/
theorem scanTable_codes {code : Table Bits} (hpf : PrefixFree code) {cap : Nat} (text : List Byte)
    (hcoded : AllCoded code text) (rest : Bits) : ∀ (j : Nat) (out : List Byte), out.length + text.length ≤ cap →
      scanTable code cap j j [] out (codesOf code text ++ rest) =
        scanTable code cap (j + (codesOf code text).length) (j + (codesOf code text).length) [] (out ++ text) rest := by
  induction text with
  | nil => intro j out _; simp
  | cons y text ih =>
    intro j out hlen
    simp only [List.length_cons] at hlen
    rw [codesOf_cons, List.append_assoc, scanTable_code hpf _ (code.entry y) j j [] rfl (hcoded y (by simp)),
      if_neg (by omega), ih (fun z hz => hcoded z (by simp [hz])) _ _ (by simp; omega)]
    simp [Nat.add_assoc]

/-- A leftover that no code starts matches nothing (R219 (c)). -/
theorem scanTable_tail {code : Table Bits} {cap : Nat} {out : List Byte} (tail : Bits) : ∀ (j start : Nat) (cand : Bits),
    (∀ y, code.entry y ≠ [] → ¬ code.entry y <+: cand ++ tail) →
      scanTable code cap j start cand out tail =
        if cand ++ tail = [] then .ok out else .error (tailFailure start) := by
  induction tail with
  | nil => intro j start cand _; simp [scanTable]
  | cons b tail ih =>
    intro j start cand h
    have hnone : rev code (cand ++ [b]) = none := by
      rw [rev_eq_none (by simp)]
      intro t ht
      exact h t (by rw [ht]; simp) ⟨tail, by rw [ht]; simp⟩
    rw [scanTable, hnone]
    dsimp only
    rw [ih (j + 1) start (cand ++ [b]) (by simpa using h)]
    simp

/-- Everything table mode does with codes of symbols that fit, followed by a leftover (R216, R219). -/
theorem scanTable_spec {code : Table Bits} (hpf : PrefixFree code) {cap : Nat} {text : List Byte} (tail : Bits)
    (hcoded : AllCoded code text) (hlen : text.length ≤ cap) (htail : ∀ y, code.entry y ≠ [] → ¬ code.entry y <+: tail) :
    scanTable code cap 0 0 [] [] (codesOf code text ++ tail) =
      if tail = [] then .ok text else .error (tailFailure (codesOf code text).length) := by
  rw [scanTable_codes hpf text hcoded tail 0 [] (by simpa using hlen), scanTable_tail tail _ _ [] (by simpa using htail)]
  simp

/-- Table mode with one symbol more than fit (R219 (b)). -/
theorem scanTable_overflow {code : Table Bits} (hpf : PrefixFree code) {cap : Nat} {text : List Byte} {y : Byte}
    (rest : Bits) (hcoded : AllCoded code text) (hlen : text.length = cap) (hy : code.entry y ≠ []) :
    scanTable code cap 0 0 [] [] (codesOf code text ++ (code.entry y ++ rest)) =
      .error (overflowFailure (codesOf code text).length) := by
  rw [scanTable_codes hpf text hcoded _ 0 [] (by simp [hlen]), scanTable_code hpf rest (code.entry y) _ _ [] rfl hy]
  simp [hlen]

/-! ### The two modes agree -/

/-- Once the candidate is dead both scans only run to the end (R217). -/
theorem scanTree_dead {nodes : List Node} {root : NodeIdx} {cap : Nat} {out : List Byte} (bs : Bits) :
    ∀ (j start : Nat) (cur : NodeIdx),
      scanTree nodes root cap j start true cur out bs = .error (tailFailure start) := by
  induction bs with
  | nil => intro j start cur; simp [scanTree]
  | cons b bs ih => intro j start cur; rw [scanTree, ih]

/-- A candidate that starts no code is dead in table mode too. -/
theorem scanTable_dead {code : Table Bits} {cap : Nat} {out : List Byte} (bs : Bits) {j start : Nat} {cand : Bits}
    (hc : cand ≠ []) (h : ∀ (y : Byte) (q : Bits), code.entry y ≠ cand ++ q) :
    scanTable code cap j start cand out bs = .error (tailFailure start) := by
  induction bs generalizing j cand with
  | nil => simp [scanTable, hc]
  | cons b bs ih =>
    have hnone : rev code (cand ++ [b]) = none := by
      rw [rev_eq_none (by simp)]
      exact fun t ht => h t [b] ht
    rw [scanTable, hnone]
    exact ih (by simp) (fun y q hy => h y (b :: q) (by simpa using hy))

/-- With the generated table of a tree of two or more leaves, the candidate and the current node stay together. -/
theorem scan_agree_internal {nodes : List Node} {root l0 r0 : NodeIdx} {f0 : NodeFreq} (hinv : TreeInv nodes root)
    (hroot : nodeAt nodes root = some (.internal f0 l0 r0)) {cap : Nat} (bs : Bits) :
    ∀ (j start : Nat) (cand : Bits) (cur l r : NodeIdx) (f : NodeFreq) (out : List Byte),
      follow nodes root cand = some cur → nodeAt nodes cur = some (.internal f l r) →
        scanTable (genTable nodes root) cap j start cand out bs = scanTree nodes root cap j start false cur out bs := by
  have hpf := (genTable_codeSetInv hinv).prefixFree
  induction bs with
  | nil =>
    intro j start cand cur l r f out hcand hcur
    rw [scanTable, scanTree]
    have hiff : cand = [] ↔ cur = root := by
      constructor
      · rintro rfl
        simp only [follow, Option.some.injEq] at hcand
        exact hcand.symm
      · intro e
        rw [e] at hcand
        exact hinv.path_unique _ cand [] root (Nat.le_refl _) hcand rfl
    by_cases hc : cand = []
    · rw [if_pos hc, if_neg (by simp [hiff.1 hc])]
    · rw [if_neg hc, if_pos (.inr fun e => hc (hiff.2 e))]
  | cons b bs ih =>
    intro j start cand cur l r f out hcand hcur
    have hext : follow nodes root (cand ++ [b]) = some (branch l r b) := by
      rw [follow_append, hcand]
      simp [follow, hcur]
    have hchild : ∃ n, nodeAt nodes (branch l r b) = some n := by
      obtain ⟨x, y, hx, hy, -⟩ := hinv.sums cur.toNat f l r hcur
      cases b
      · exact ⟨x, hx⟩
      · exact ⟨y, hy⟩
    obtain ⟨n, hn⟩ := hchild
    rw [scanTable, scanTree]
    cases n with
    | leaf s g =>
      have hlead : LeadsTo nodes root (cand ++ [b]) s := ⟨_, g, hext, hn⟩
      obtain ⟨h1, h2⟩ := (genTable_internal hinv hroot s _).2 hlead
      have hrev : rev (genTable nodes root) (cand ++ [b]) = some s := by
        rw [← h1]; exact hpf.rev_entry (by rw [h1]; exact h2)
      have hmove : treeMove nodes root cur b = .emit s := by simp [treeMove, hroot, hcur, hn]
      rw [hrev, hmove]
      dsimp only
      split
      · rfl
      · exact ih (j + 1) (j + 1) [] root l0 r0 f0 (out ++ [s]) rfl hroot
    | internal g l' r' =>
      have hnone : rev (genTable nodes root) (cand ++ [b]) = none := by
        rw [rev_eq_none (by simp)]
        intro t ht
        obtain ⟨i, e, hi, hleaf⟩ := (genTable_internal hinv hroot t (cand ++ [b])).1 ⟨ht, by simp⟩
        rw [hext] at hi
        cases hi
        rw [hn] at hleaf
        cases hleaf
      have hmove : treeMove nodes root cur b = .go (branch l r b) := by simp [treeMove, hroot, hcur, hn]
      rw [hnone, hmove]
      exact ih (j + 1) start (cand ++ [b]) (branch l r b) l' r' g out hext hn

/-- With the code "0" of a tree of one leaf (R182, R217). -/
theorem scan_agree_leaf {nodes : List Node} {root : NodeIdx} {s : Byte} {f : NodeFreq}
    (hroot : nodeAt nodes root = some (.leaf s f)) {cap : Nat} (bs : Bits) : ∀ (j start : Nat) (out : List Byte),
      scanTable (genTable nodes root) cap j start [] out bs = scanTree nodes root cap j start false root out bs := by
  have hentry := genTable_leaf hroot
  induction bs with
  | nil => intro j start out; simp [scanTable, scanTree]
  | cons b bs ih =>
    intro j start out
    rw [scanTable, scanTree]
    cases b with
    | false =>
      have hrev : rev (genTable nodes root) ([] ++ [false]) = some s := by
        cases h : rev (genTable nodes root) ([] ++ [false]) with
        | none =>
          rw [rev_eq_none (by simp)] at h
          exact absurd (by simp [hentry]) (h s)
        | some t =>
          have h2 := (rev_some h).2
          rw [hentry] at h2
          split at h2
          · next hts => rw [hts]
          · cases h2
      have hmove : treeMove nodes root root false = .emit s := by simp [treeMove, hroot]
      rw [hrev, hmove]
      dsimp only
      split
      · rfl
      · exact ih (j + 1) (j + 1) (out ++ [s])
    | true =>
      have hno : ∀ (y : Byte) (q : Bits), (genTable nodes root).entry y ≠ [true] ++ q := by
        intro y q hy
        rw [hentry] at hy
        split at hy
        · simp at hy
        · cases hy
      have hrev : rev (genTable nodes root) ([] ++ [true]) = none := by
        rw [rev_eq_none (by simp)]
        exact fun t ht => hno t [] (by simpa using ht)
      have hmove : treeMove nodes root root true = .dead := by simp [treeMove, hroot]
      rw [hrev, hmove]
      dsimp only
      rw [scanTree_dead, scanTable_dead bs (by simp) (by simpa using hno)]

/-- With the empty table of the empty tree (R183, R217). -/
theorem scan_agree_empty {root : NodeIdx} {cap : Nat} (bs : Bits) (j start : Nat) (out : List Byte) :
    scanTable (genTable [] root) cap j start [] out bs = scanTree [] root cap j start false root out bs := by
  cases bs with
  | nil => simp [scanTable, scanTree]
  | cons b bs =>
    have hno : ∀ (y : Byte) (q : Bits), (genTable [] root).entry y ≠ [b] ++ q := by
      intro y q hy
      simp [genTable_empty] at hy
    have hrev : rev (genTable [] root) ([] ++ [b]) = none := by
      rw [rev_eq_none (by simp)]
      exact fun t ht => hno t [] (by simpa using ht)
    rw [scanTable, scanTree, hrev]
    have hmove : treeMove [] root root b = .dead := by simp [treeMove, nodeAt]
    rw [hmove]
    dsimp only
    rw [scanTree_dead, scanTable_dead bs (by simp) (by simpa using hno)]

/-- The two scans agree on every bitstream when the table was generated from the tree. -/
theorem scan_agree {nodes : List Node} {root : NodeIdx} (hinv : TreeInv nodes root) (cap : Nat) (bs : Bits) :
    scanTable (genTable nodes root) cap 0 0 [] [] bs = scanTree nodes root cap 0 0 false root [] bs := by
  by_cases hnil : nodes = []
  · subst hnil
    exact scan_agree_empty bs 0 0 []
  obtain ⟨n, hn⟩ := hinv.root_some hnil
  cases n with
  | leaf s f => exact scan_agree_leaf hn bs 0 0 []
  | internal f l r => exact scan_agree_internal hinv hn bs 0 0 [] root l r f [] rfl hn

/-! ### Tree mode by the bit strings of the tree alone -/

/-- The bit strings of tree mode are the codes GEN would produce from the same tree (R181, R182, R217). -/
theorem treeCode_iff {nodes : List Node} {root : NodeIdx} (hinv : TreeInv nodes root) (p : Bits) (y : Byte) :
    TreeCode nodes root p y ↔ (genTable nodes root).entry y = p ∧ p ≠ [] := by
  by_cases hnil : nodes = []
  · subst hnil
    simp [genTable_empty, TreeCode, nodeAt, LeadsTo]
  obtain ⟨n, hn⟩ := hinv.root_some hnil
  cases n with
  | leaf t f =>
    simp only [TreeCode, hn]
    rw [genTable_leaf hn]
    constructor
    · rintro ⟨rfl, rfl⟩
      simp
    · rintro ⟨h1, h2⟩
      split at h1
      · next h => exact ⟨h1.symm, h⟩
      · exact absurd h1.symm h2
  | internal f l r =>
    simp only [TreeCode, hn]
    exact (genTable_internal hinv hn y p).symm

/-- The tree's bit strings of a text, joined, are the codes of the text in the generated table. -/
theorem treeCodes_flatten {nodes : List Node} {root : NodeIdx} (hinv : TreeInv nodes root) {ps : List Bits}
    {text : List Byte} (h : List.Forall₂ (TreeCode nodes root) ps text) :
    ps.flatten = codesOf (genTable nodes root) text ∧ AllCoded (genTable nodes root) text := by
  induction h with
  | nil => exact ⟨rfl, by simp [AllCoded]⟩
  | cons h1 _ ih =>
    obtain ⟨h2, h3⟩ := (treeCode_iff hinv _ _).1 h1
    refine ⟨by simp [ih.1, h2], fun z hz => ?_⟩
    rcases List.mem_cons.1 hz with rfl | hz
    · rw [h2]; exact h3
    · exact ih.2 z hz

/-- Everything tree mode does with the bit strings of symbols that fit, followed by a leftover (R217, R219). -/
theorem scanTree_spec {nodes : List Node} {root : NodeIdx} (hinv : TreeInv nodes root) {cap : Nat} {ps : List Bits}
    {text : List Byte} (tail : Bits) (h : List.Forall₂ (TreeCode nodes root) ps text) (hlen : text.length ≤ cap)
    (htail : ∀ p y, TreeCode nodes root p y → ¬ p <+: tail) :
    scanTree nodes root cap 0 0 false root [] (ps.flatten ++ tail) =
      if tail = [] then .ok text else .error (tailFailure ps.flatten.length) := by
  obtain ⟨h1, h2⟩ := treeCodes_flatten hinv h
  rw [h1, ← scan_agree hinv]
  exact scanTable_spec (genTable_codeSetInv hinv).prefixFree tail h2 hlen
    fun y hy => htail _ y ((treeCode_iff hinv _ _).2 ⟨rfl, hy⟩)

/-- Tree mode with one symbol more than fit (R217, R219 (b)). -/
theorem scanTree_overflow {nodes : List Node} {root : NodeIdx} (hinv : TreeInv nodes root) {cap : Nat} {ps : List Bits}
    {text : List Byte} {y : Byte} {p : Bits} (rest : Bits) (h : List.Forall₂ (TreeCode nodes root) ps text)
    (hp : TreeCode nodes root p y) (hlen : text.length = cap) :
    scanTree nodes root cap 0 0 false root [] (ps.flatten ++ (p ++ rest)) =
      .error (overflowFailure ps.flatten.length) := by
  obtain ⟨h1, h2⟩ := treeCodes_flatten hinv h
  obtain ⟨h3, h4⟩ := (treeCode_iff hinv _ _).1 hp
  rw [h1, ← h3, ← scan_agree hinv]
  exact scanTable_overflow (genTable_codeSetInv hinv).prefixFree rest h2 hlen (by rw [h3]; exact h4)

end Sys2Proof.Machine
end

