-- ==== Sys2Proof/Tests/Slice0.lean ====
section
/-! SUPPORT. Tests of one step each against values of spec/95_test_vectors.md and spec/30_encoding.md, and a witness for
every statement that has hypotheses. -/

namespace Sys2Proof.Tests

open Sys2Proof Sys2Proof.Machine

/-! ### Helpers -/

/-- A block in its reset state with TEXT_CAP = CONT_CAP = 64, as the programs of the spec's Part 3 take them. -/
def blk : State := State.resetWith ⟨64, 64⟩

/-- The state a command leaves. -/
def after (i : Instr) (s : State) : State :=
  match exec i s with
  | .next t => t
  | .fault _ => s
  | .refused _ => s

/-- The state one step leaves with the host action `a`. -/
def served (a : HostAction) (s : State) : State :=
  match step { s with bus := [a] } with
  | .next t => t
  | .fault _ => s
  | .refused _ => s

theorem exec_after (i : Instr) (s : State) : exec i s = .next (after i s) := by
  obtain ⟨t, h⟩ := exec_total i s
  rw [h, after, h]

def freqOf (l : List (Byte × Word)) : Table Word := l.foldl (fun f p => f.put p.1 p.2) emptyFreq

def codeOf (l : List (Byte × Bits)) : Table Bits := l.foldl (fun c p => c.put p.1 p.2) emptyCode

/-- The tree of "abc" in which CODE is G4: the state of the vector "Modes that disagree" (2.8). -/
def disagree : State :=
  { blk with
    node := [.leaf 0x61 1, .leaf 0x62 1, .leaf 0x63 1, .internal 2 0 1, .internal 3 2 3], root := 4
    code := codeOf [(0x61, [false]), (0x62, [true])], cont := [0x05, 0x60] }

/-! ### Well-formedness. `Instr` has no ill-formed term: MODE is one bit, both of its values are legal with the two commands
that carry it, and no other command has an operand (R100, R101). What can be ill-formed is a `Config`, one term per bound
of R5; and a command WORD, which the decoder refuses (below). -/

theorem test_every_instr_wellFormed (i : Instr) : i.WellFormed := by
  cases i with
  | decode m => cases m <;> rfl
  | decompress m => cases m <;> rfl
  | nop | clr | count | build | gen | pack | unpack | compress => rfl

theorem test_textCap_zero_refused : ¬ Config.WellFormed ⟨0, 64⟩ := by decide

theorem test_textCap_over_refused : ¬ Config.WellFormed ⟨4194305, 64⟩ := by decide

theorem test_contCap_one_refused : ¬ Config.WellFormed ⟨64, 1⟩ := by decide

theorem test_contCap_over_refused : ¬ Config.WellFormed ⟨64, 4194305⟩ := by decide

theorem test_config_bounds_accepted : Config.WellFormed ⟨1, 2⟩ ∧ Config.WellFormed ⟨4194304, 4194304⟩ := by decide

/-! ### Decoding: words written out as ZERO (23 bits), MODE, OP (R100, R101), and the illegal words of 2.2 -/

theorem test_decode_nop : decodeWord (0b00000000000000000000000#23 ++ 0b0#1 ++ 0b00000000#8) = .ok .nop := rfl

theorem test_decode_clr : decodeWord (0b00000000000000000000000#23 ++ 0b0#1 ++ 0b00000001#8) = .ok .clr := rfl

theorem test_decode_count : decodeWord (0b00000000000000000000000#23 ++ 0b0#1 ++ 0b00000010#8) = .ok .count := rfl

theorem test_decode_build : decodeWord (0b00000000000000000000000#23 ++ 0b0#1 ++ 0b00000011#8) = .ok .build := rfl

theorem test_decode_gen : decodeWord (0b00000000000000000000000#23 ++ 0b0#1 ++ 0b00000100#8) = .ok .gen := rfl

theorem test_decode_pack : decodeWord (0b00000000000000000000000#23 ++ 0b0#1 ++ 0b00000101#8) = .ok .pack := rfl

theorem test_decode_unpack : decodeWord (0b00000000000000000000000#23 ++ 0b0#1 ++ 0b00000110#8) = .ok .unpack := rfl

theorem test_decode_decode_tbl :
    decodeWord (0b00000000000000000000000#23 ++ 0b0#1 ++ 0b00000111#8) = .ok (.decode .table) := rfl

theorem test_decode_decode_tree :
    decodeWord (0b00000000000000000000000#23 ++ 0b1#1 ++ 0b00000111#8) = .ok (.decode .tree) := rfl

theorem test_decode_compress : decodeWord (0b00000000000000000000000#23 ++ 0b0#1 ++ 0b00001000#8) = .ok .compress := rfl

theorem test_decode_decompress_tbl :
    decodeWord (0b00000000000000000000000#23 ++ 0b0#1 ++ 0b00001001#8) = .ok (.decompress .table) := rfl

theorem test_decode_decompress_tree :
    decodeWord (0b00000000000000000000000#23 ++ 0b1#1 ++ 0b00001001#8) = .ok (.decompress .tree) := rfl

theorem test_illegal_words :
    decodeWord 0x0000000A = .error .opcode ∧ decodeWord 0x000000FF = .error .opcode ∧
    decodeWord 0x00000108 = .error .modeField ∧ decodeWord 0x00000100 = .error .modeField ∧
    decodeWord 0x00000207 = .error .zeroField ∧ decodeWord 0x80000000 = .error .zeroField ∧
    decodeWord 0x0000010A = .error .opcode := ⟨rfl, rfl, rfl, rfl, rfl, rfl, rfl⟩

theorem test_table_word : decodeTableWord 32 0x107 = some (.decode .tree) ∧ decodeTableWord 32 0x108 = none := by decide

/-- No two rows of the opcode table share a word: they differ in a bit that both rows fix. -/
theorem test_rows_disjoint :
    opcodeRows.Pairwise fun a b => (a.2 ^^^ b.2) &&& (a.1 &&& b.1) ≠ 0 := by decide

/-- Every row's own words are the encodings of the row's command, in the table's order. -/
theorem test_rows_match :
    opcodeRows.map Prod.snd = [Instr.nop, .clr, .count, .build, .gen, .pack, .unpack, .decode .table, .compress,
      .decompress .table].map encode ∧
    opcodeRows.all (fun r => r.2 &&& r.1 = r.2) = true := by decide

/-! ### One step per command -/

/-- 2.9: from STATUS = 0x00000932, EINFO = 0x13, NOP leaves STATUS = 0x00000030, EINFO = 0. -/
theorem test_nop :
    let t := after .nop { blk with err := .undecodableTail, esticky := true, bvalid := true, lastop := 9, einfo := 0x13 }
    t.statusWord = 0x30 ∧ t.einfo = 0 := by decide +kernel

/-- 2.9: CLR leaves STATUS = 0x00000100 and clears TLEN, CLEN, NNODES and the codes. -/
theorem test_clr :
    let t := after .clr { disagree with esticky := true, text := [0x61] }
    t.statusWord = 0x100 ∧ t.tlen = 0 ∧ t.clen = 0 ∧ t.nnodes = 0 ∧ t.code.entry 0x61 = [] := by decide +kernel

/-- 2.3: "aaaa" counts 'a' 4. -/
theorem test_count :
    let t := after .count { blk with text := [0x61, 0x61, 0x61, 0x61] }
    t.freq.entry 0x61 = 4 ∧ t.freq.entry 0x62 = 0 := by decide +kernel

/-- 2.3: a count the host wrote before is discarded (R151). -/
theorem test_count_discards :
    let t := after .count { blk with text := [0x61, 0x62], freq := freqOf [(0x7A, 9)] }
    t.freq.entry 0x7A = 0 ∧ t.freq.entry 0x61 = 1 ∧ t.freq.entry 0x62 = 1 := by decide +kernel

/-- Vector B3: the smaller frequency goes LEFT. -/
theorem test_build :
    let t := after .build { blk with freq := freqOf [(0x61, 8), (0x62, 1)] }
    (t.node, t.root) = ([.leaf 0x61 8, .leaf 0x62 1, .internal 9 1 0], 2) := by decide +kernel

/-- Vector B5: a tie at frequency 2 takes leaf 2 before internal node 3. -/
theorem test_build_tie :
    (after .build { blk with freq := freqOf [(0x41, 1), (0x42, 1), (0x43, 2)] }).node.drop 3 =
      [.internal 2 0 1, .internal 4 2 3] := by decide +kernel

/-- Vector G6 on the tree of B6. -/
theorem test_gen :
    let t := after .gen { blk with
      node := [.leaf 0x41 2, .leaf 0x42 1, .leaf 0x43 1, .internal 2 1 2, .internal 4 0 3], root := 4 }
    t.code.entry 0x41 = [false] ∧ t.code.entry 0x42 = [true, false] ∧ t.code.entry 0x43 = [true, true] ∧
      t.code.entry 0x44 = [] := by decide +kernel

/-- Vector G2: one leaf has the code "0". -/
theorem test_gen_one_leaf :
    (after .gen { blk with node := [.leaf 0x61 4], root := 0 }).code.entry 0x61 = [false] := by decide +kernel

/-- 2.6: "abc" with c "0", a "10", b "11". -/
theorem test_pack :
    let t := after .pack { blk with
      text := [0x61, 0x62, 0x63], code := codeOf [(0x63, [false]), (0x61, [true, false]), (0x62, [true, true])] }
    (t.cont, t.blen, t.pad, t.statusWord) = ([0x03, 0xB0], 5, 3, 0x500) := by decide +kernel

/-- 2.6: "abz" with G11's codes of 'a' and 'b' fails at position 2 and the earlier container stays. -/
theorem test_pack_missing :
    let t := after .pack { blk with
      text := [0x61, 0x62, 0x7A], code := codeOf [(0x61, [false]), (0x62, [true, true, false])]
      cont := [0x01, 0x6E, 0x8A, 0xDC] }
    (t.cont, t.einfo, t.statusWord) = ([0x01, 0x6E, 0x8A, 0xDC], 0x7A000002, 0x513) := by decide +kernel

/-- 2.7: 09 FF FF, a header above 8. -/
theorem test_unpack :
    let t := after .unpack { blk with cont := [0x09, 0xFF, 0xFF] }
    t.statusWord = 0x620 ∧ t.pad = 9 ∧ t.blen = 7 := by decide +kernel

/-- 2.7: 19 6E 8A DC. -/
theorem test_unpack_malformed :
    let t := after .unpack { blk with cont := [0x19, 0x6E, 0x8A, 0xDC] }
    t.statusWord = 0x611 ∧ t.einfo = 0x1901 ∧ t.pad = 0 ∧ t.blen = 0 := by decide +kernel

/-- 2.8: 01 6E 8A DC in tree mode on the tree B11. -/
theorem test_decode_tree :
    let t := after (.decode .tree) { blk with
      node := [.leaf 0x61 5, .leaf 0x62 2, .leaf 0x63 1, .leaf 0x64 1, .leaf 0x72 2, .internal 2 2 3, .internal 4 1 4,
        .internal 6 5 6, .internal 11 0 7], root := 8,
      cont := [0x01, 0x6E, 0x8A, 0xDC], pad := 1, blen := 23, bvalid := true }
    (t.text, t.statusWord) = ([0x61, 0x62, 0x72, 0x61, 0x63, 0x61, 0x64, 0x61, 0x62, 0x72, 0x61], 0x720) := by
  decide +kernel

/-- Example S4: 011 with a "0", b "110": the leftover begins at bit 1, and the old text stays. -/
theorem test_decode_tail :
    let t := after (.decode .table) { blk with
      code := codeOf [(0x61, [false]), (0x62, [true, true, false])], cont := [0x05, 0x60], pad := 5, blen := 3
      bvalid := true, text := [0x78] }
    (t.text, t.einfo, t.statusWord) = ([0x78], 1, 0x732) := by decide +kernel

/-- 2.6: "ab". -/
theorem test_compress :
    let t := after .compress { blk with text := [0x61, 0x62] }
    (t.cont, t.statusWord) = ([0x06, 0x40], 0x800) := by decide +kernel

/-- 2.6: CONT_CAP = 2, "aaaaaaaa": the PACK step fails at position 7 and the tree is the new one. -/
theorem test_compress_overflow :
    let t := after .compress { State.resetWith ⟨64, 2⟩ with text := List.replicate 8 0x61 }
    (t.statusWord, t.einfo, t.clen, t.node) = (0x814, 7, 0, [.leaf 0x61 8]) := by decide +kernel

/-- 2.8, modes that disagree: 05 60 is "abb" by the table. -/
theorem test_decompress_table : (after (.decompress .table) disagree).text = [0x61, 0x62, 0x62] := by decide +kernel

/-- 2.8, modes that disagree: 05 60 is "cb" by the tree. -/
theorem test_decompress_tree : (after (.decompress .tree) disagree).text = [0x63, 0x62] := by decide +kernel

/-! ### One step per kind of bus transaction (2.1) -/

theorem test_bus_id : (served (.read 0x0) blk).resp = some (.data 0x48554631) := by decide +kernel

theorem test_bus_misaligned : (served (.read 0x2) blk).resp = some .buserror := by decide +kernel

theorem test_bus_text_append :
    (served (.write 0x1000000 0x12345661) blk).text = [0x61] ∧
    (served (.write 0x1000004 0x41) blk).resp = some .buserror := by decide +kernel

theorem test_bus_map_edges :
    (served (.read 0x4FFC) blk).resp = some (.data 0) ∧ (served (.read 0x5000) blk).resp = some .buserror ∧
    (served (.read 0x1004) blk).resp = some .buserror ∧ (served (.read 0x30) blk).resp = some .buserror ∧
    (served (.write 0x1000100 0) blk).resp = some .buserror := by decide +kernel

/-- The NODE entry of B3's root, and 2.5's BITS word 0 of "110". -/
theorem test_bus_windows :
    (served (.read 0x803C) { blk with node := [.leaf 0x61 8, .leaf 0x62 1, .internal 9 1 0] }).resp = some .buserror ∧
    (served (.read 0x802C) { blk with node := [.leaf 0x61 8, .leaf 0x62 1, .internal 9 1 0] }).resp =
      some (.data 0x00000001) ∧
    (served (.read 0x28A0) { blk with code := codeOf [(0x62, [true, true, false])] }).resp = some (.data 0x3) := by
  decide +kernel

/-- 2.2: 0x0000010A from STATUS = 0x00000920 keeps BVALID. -/
theorem test_bus_illegal_command :
    let t := served (cmdWrite 0x10A) { blk with lastop := 9, bvalid := true }
    t.statusWord = 0xA37 ∧ t.einfo = 0x10A ∧ t.resp = some .ok := by decide +kernel

/-! ### Witnesses: for every statement with hypotheses, a concrete state and operands that meet them together -/

/-- The tree B4 of "ab", its table G4, and the container 06 40 of "ab". -/
def nodesAb : List Node := [.leaf 0x61 1, .leaf 0x62 1, .internal 2 0 1]

theorem nodesAb_built : nodesAb = buildTree (freqOf [(0x61, 1), (0x62, 1)]) := by decide +kernel

theorem nodesAb_inv : TreeInv nodesAb 2 := by
  have h := buildTree_inv (freqOf [(0x61, 1), (0x62, 1)])
  rw [← nodesAb_built] at h
  exact h

/-- Unpacked container 06 40 beside the tree and the table of "ab". -/
def unpackedAb : State :=
  { blk with
    node := nodesAb, root := 2, code := genTable nodesAb 2, cont := [0x06, 0x40], pad := 6, blen := 2, bvalid := true }

/-- The tree of the one symbol 'a' (B2). -/
theorem nodesA_inv : TreeInv [.leaf 0x61 4] 0 := by
  refine ⟨by decide, by decide, ?_, ?_, ?_, by decide, by decide⟩
  all_goals intro k
  · rintro n hn j hj
    match k, hn with
    | 0, hn => cases hn; cases hj
    | k + 1, hn => cases hn
  · intro f l r hn
    match k, hn with
    | 0, hn => cases hn
    | k + 1, hn => cases hn
  · intro n hn
    match k, hn with
    | 0, hn => cases hn; decide
    | k + 1, hn => cases hn

/-- The table "0" for 'a' alone. -/
theorem codeA_inv : CodeSetInv (genTable [.leaf 0x61 4] 0) := genTable_codeSetInv nodesA_inv

/-- Unpacked one-symbol block with a container. -/
def unpackedA (cont : List Byte) (pad : Byte) (blen : Word) : State :=
  { blk with
    node := [.leaf 0x61 4], root := 0, code := genTable [.leaf 0x61 4] 0, cont := cont, pad := pad, blen := blen
    bvalid := true }

theorem unpackedA_entry (c : List Byte) (p : Byte) (b : Word) (y : Byte) :
    (unpackedA c p b).code.entry y = if y = 0x61 then [false] else [] := genTable_leaf rfl y

theorem allCoded_a (c : List Byte) (p : Byte) (b : Word) (n : Nat) :
    AllCoded (unpackedA c p b).code (List.replicate n 0x61) := by
  intro y hy
  rw [List.eq_of_mem_replicate hy, unpackedA_entry]
  decide

theorem witness_DecodeOfEncode : Instr.WellFormed (.decompress .tree) := rfl

theorem witness_StepRunsDecodedCommand :
    { blk with bus := [cmdWrite 0x107] }.bus = .write 0x4 0x107 :: [] ∧ decodeWord 0x107 = .ok (.decode .tree) :=
  ⟨rfl, rfl⟩

theorem witness_FetchWordIsNextCommand : decodeTableWord 32 0x109 = some (.decompress .tree) := rfl

/-- One word for each clause of R103, at the edge of its range. -/
theorem witness_IllegalWordIsRecorded :
    { blk with bus := [cmdWrite 0xA] }.bus = .write 0x4 0xA :: [] ∧
    0x0A ≤ (0xA : Word).toNat % 256 ∧ (0x200 : Word).toNat / 512 ≠ 0 ∧
    ((0x108 : Word).toNat / 256 % 2 = 1 ∧ (0x108 : Word).toNat % 256 ≠ 7 ∧ (0x108 : Word).toNat % 256 ≠ 9) := by
  refine ⟨rfl, ?_⟩
  decide

theorem witness_CountResult :
    { blk with text := [0x61, 0x62] }.cfg.WellFormed ∧ Memory.wf { blk with text := [0x61, 0x62] } = true := by decide

theorem witness_CountOrderIndependent :
    { blk with text := [0x61, 0x62] }.text.Perm { blk with text := [0x62, 0x61] }.text := List.Perm.swap _ _ _

theorem freqOf_one (y : Byte) (n : Word) (z : Byte) : (freqOf [(y, n)]).entry z = if z = y then n else 0 := by
  simp [freqOf, Table.entry_put]

theorem witness_BuildTotals :
    1 ≤ (symbols.filter fun y => decide ((freqOf [(0x61, 4)]).entry y ≠ 0)).length :=
  List.length_pos_of_mem (mem_keySymbols.2 (by rw [freqOf_one]; decide : (freqOf [(0x61, 4)]).entry 0x61 ≠ 0))

theorem witness_BuildOneOrNoSymbol :
    ((freqOf [(0x61, 4)]).entry 0x61 ≠ 0 ∧ ∀ z, z ≠ 0x61 → (freqOf [(0x61, 4)]).entry z = 0) ∧
    ∀ y, blk.freq.entry y = 0 := by
  refine ⟨⟨by rw [freqOf_one]; decide, fun z hz => ?_⟩, emptyFreq_entry⟩
  rw [freqOf_one, if_neg hz]

theorem witness_AnyRealisationBuildsTheSameTree :
    GreedyTree (freqOf [(0x61, 1), (0x62, 1)]) nodesAb := by
  have hk : keySymbols (freqOf [(0x61, 1), (0x62, 1)]) = [0x61, 0x62] := by decide +kernel
  refine ⟨by rw [hk]; decide +kernel, fun k n hk2 hn => ?_, ?_, by rw [hk]; rfl⟩
  · rw [hk] at hk2
    match k, hk2, hn with
    | 2, _, hn => cases hn; exact ⟨0, 1, _, _, rfl, rfl, rfl⟩
    | 0, h, _ | 1, h, _ => exact absurd h (by decide)
    | k + 3, _, hn => cases hn
  · rw [nodesAb_built]
    exact buildTree_merges _

theorem witness_GenCodesAreTreePaths : TreeInv unpackedAb.node unpackedAb.root ∧ 3 ≤ unpackedAb.nnodes :=
  ⟨nodesAb_inv, by decide⟩

theorem witness_GenOneLeafOrNoLeaf :
    nodeAt (unpackedA [] 0 0).node (unpackedA [] 0 0).root = some (.leaf 0x61 4) ∧ blk.node = [] := ⟨rfl, rfl⟩

/-- A tree of two leaves, and a tree of one. -/
theorem witness_GenTableProperties :
    (TreeInv unpackedAb.node unpackedAb.root ∧ 2 ≤ (leafSymbols unpackedAb.node).length) ∧
    TreeInv (unpackedA [] 0 0).node (unpackedA [] 0 0).root ∧ (leafSymbols (unpackedA [] 0 0).node).length = 1 :=
  ⟨⟨nodesAb_inv, by decide⟩, nodesA_inv, by decide⟩

theorem witness_ReverseTableInvertsCodes :
    TreeInv unpackedAb.node unpackedAb.root ∧ exec .gen unpackedAb = .next (after .gen unpackedAb) :=
  ⟨nodesAb_inv, exec_after _ _⟩

/-- Eight symbols of one bit each: the container 08 00 00 fits exactly where CONT_CAP = 3. -/
theorem codesOf_a (n : Nat) : codesOf (genTable [.leaf 0x61 4] 0) (List.replicate n 0x61) = List.replicate n false := by
  induction n with
  | zero => rfl
  | succ n ih =>
    rw [List.replicate_succ, codesOf_cons, ih, genTable_leaf rfl]
    rfl

def packable (cap n : Nat) : State :=
  { State.resetWith ⟨64, cap⟩ with text := List.replicate n 0x61, code := genTable [.leaf 0x61 4] 0 }

theorem packable_fits {cap n : Nat} (h : 2 + n / 8 ≤ cap) :
    2 + (codesOf (packable cap n).code (packable cap n).text).length / 8 ≤ (packable cap n).cfg.contCap := by
  show 2 + (codesOf (genTable _ 0) (List.replicate n 0x61)).length / 8 ≤ cap
  rw [codesOf_a]
  simpa using h

theorem witness_PackResult :
    (packable 3 8).cfg.WellFormed ∧ AllCoded (packable 3 8).code (packable 3 8).text ∧
    2 + (codesOf (packable 3 8).code (packable 3 8).text).length / 8 ≤ (packable 3 8).cfg.contCap :=
  ⟨by decide, allCoded_a [] 0 0 8, packable_fits (by decide)⟩

/-- A symbol without code at position 0 of "b", and the eighth 'a' where CONT_CAP = 2. -/
theorem witness_PackFailures :
    (blk.cfg.WellFormed ∧ Memory.wf { blk with text := [0x62] } = true ∧
      { blk with text := [0x62] }.text = [] ++ 0x62 :: [] ∧ AllCoded blk.code [] ∧
      2 + (codesOf blk.code []).length / 8 ≤ blk.cfg.contCap ∧ blk.code.entry 0x62 = []) ∧
    ((packable 2 8).cfg.WellFormed ∧ Memory.wf (packable 2 8) = true ∧
      (packable 2 8).text = List.replicate 7 0x61 ++ 0x61 :: [] ∧
      AllCoded (packable 2 8).code (List.replicate 7 0x61) ∧
      2 + (codesOf (packable 2 8).code (List.replicate 7 0x61)).length / 8 ≤ (packable 2 8).cfg.contCap ∧
      (packable 2 8).code.entry 0x61 ≠ [] ∧
      (packable 2 8).cfg.contCap < 2 + (codesOf (packable 2 8).code (List.replicate 7 0x61 ++ [0x61])).length / 8) := by
  refine ⟨⟨by decide, by decide, rfl, by simp [AllCoded], by decide, emptyCode_entry 0x62⟩, by decide, by decide, by decide,
    allCoded_a [] 0 0 7, ?_, allCoded_a [] 0 0 1 0x61 (by simp), ?_⟩
  · show 2 + (codesOf (genTable _ 0) (List.replicate 7 0x61)).length / 8 ≤ 2
    rw [codesOf_a]
    decide
  · show 2 < 2 + (codesOf (genTable _ 0) (List.replicate 8 0x61)).length / 8
    rw [codesOf_a]
    decide

theorem witness_PackEmptyText : blk.text = [] := rfl

theorem pack_a {cap n : Nat} (h : 2 + n / 8 ≤ cap) : (after .pack (packable cap n)).err = .none := by
  have h1 : packState (packable cap n) = .ok _ := packState_fits (allCoded_a [] 0 0 n) (.inr (packable_fits h))
  have h2 : exec .pack (packable cap n) = finish 0x05 (packable cap n) (packState (packable cap n)) := rfl
  rw [after, h2, h1]
  rfl

theorem witness_PackContainerBounds :
    (packable 3 8).cfg.WellFormed ∧ exec .pack (packable 3 8) = .next (after .pack (packable 3 8)) ∧
    (after .pack (packable 3 8)).err = .none := ⟨by decide, exec_after _ _, pack_a (by decide)⟩

/-- No container, a header one above the bits that follow, and a header equal to them. -/
theorem witness_UnpackResult :
    (blk.cfg.WellFormed ∧ Memory.wf blk = true ∧ blk.cont = []) ∧
    (Memory.wf { blk with cont := [0x01] } = true ∧ 8 * ([] : List Byte).length < (0x01 : Byte).toNat) ∧
    (Memory.wf { blk with cont := [0x08, 0x00] } = true ∧ (0x08 : Byte).toNat ≤ 8 * ([0x00] : List Byte).length) := by
  refine ⟨⟨?_, ?_, rfl⟩, ?_⟩ <;> decide

theorem witness_UnpackInvertsPack :
    (packable 64 3).cfg.WellFormed ∧ exec .pack (packable 64 3) = .next (after .pack (packable 64 3)) ∧
    (after .pack (packable 64 3)).err = .none := ⟨by decide, exec_after _ _, pack_a (by decide)⟩

theorem witness_DecodeNeedsUnpack : blk.bvalid = false := rfl

/-- 08 00 00, eight bits 0 that are eight codes; and 04 10, whose leftover 1 begins at bit 3. -/
theorem witness_DecodeTableResult :
    ((unpackedA [0x08, 0x00, 0x00] 8 8).bvalid = true ∧ CodeSetInv (unpackedA [0x08, 0x00, 0x00] 8 8).code ∧
      AllCoded (unpackedA [0x08, 0x00, 0x00] 8 8).code (List.replicate 8 0x61) ∧
      (List.replicate 8 (0x61 : Byte)).length ≤ (unpackedA [0x08, 0x00, 0x00] 8 8).cfg.textCap ∧
      encodedBits (unpackedA [0x08, 0x00, 0x00] 8 8) =
        codesOf (unpackedA [0x08, 0x00, 0x00] 8 8).code (List.replicate 8 0x61) ++ [] ∧
      ∀ y, (unpackedA [0x08, 0x00, 0x00] 8 8).code.entry y ≠ [] →
        ¬ (unpackedA [0x08, 0x00, 0x00] 8 8).code.entry y <+: []) ∧
    ((unpackedA [0x04, 0x10] 4 4).bvalid = true ∧ CodeSetInv (unpackedA [0x04, 0x10] 4 4).code ∧
      AllCoded (unpackedA [0x04, 0x10] 4 4).code (List.replicate 3 0x61) ∧
      (List.replicate 3 (0x61 : Byte)).length ≤ (unpackedA [0x04, 0x10] 4 4).cfg.textCap ∧
      encodedBits (unpackedA [0x04, 0x10] 4 4) =
        codesOf (unpackedA [0x04, 0x10] 4 4).code (List.replicate 3 0x61) ++ [true] ∧
      ∀ y, (unpackedA [0x04, 0x10] 4 4).code.entry y ≠ [] →
        ¬ (unpackedA [0x04, 0x10] 4 4).code.entry y <+: [true]) := by
  refine ⟨⟨rfl, codeA_inv, allCoded_a _ _ _ 8, by decide, ?_, fun y hy h => hy (List.prefix_nil.1 h)⟩,
    rfl, codeA_inv, allCoded_a _ _ _ 3, by decide, ?_, fun y hy h => ?_⟩
  · show _ = codesOf (genTable _ 0) (List.replicate 8 0x61) ++ []
    rw [codesOf_a]
    decide
  · show _ = codesOf (genTable _ 0) (List.replicate 3 0x61) ++ [true]
    rw [codesOf_a]
    decide
  · rw [unpackedA_entry] at hy h
    split at h
    · exact absurd h (by decide)
    · next hne => exact hy (if_neg hne)

/-- The tree of "ab" with a CODE that GEN has not yet made from it (R302), and TEXT_CAP = `cap`. -/
def staleAb (cap : Nat) : State := { unpackedAb with cfg := ⟨cap, 64⟩, code := emptyCode }

theorem staleAb_codes (cap : Nat) :
    List.Forall₂ (TreeCode (staleAb cap).node (staleAb cap).root) [[false], [true]] [0x61, 0x62] :=
  .cons ⟨0, 1, rfl, rfl⟩ (.cons ⟨1, 1, rfl, rfl⟩ .nil)

theorem staleAb_stale (cap : Nat) : ¬ CodeMatchesTree (staleAb cap) := fun h =>
  absurd (congrArg (fun t : Table Bits => t.entry 0x61) (show emptyCode = genTable nodesAb 2 from h)) (by decide +kernel)

/-- Table mode: TEXT_CAP = 4 and five bits 0. Tree mode: TEXT_CAP = 1 and the bits 01, with a stale CODE. -/
theorem witness_DecodeTextOverflow :
    (let s := { unpackedA [0x03, 0x00] 3 5 with cfg := ⟨4, 64⟩ }
     s.bvalid = true ∧ CodeSetInv s.code ∧ AllCoded s.code (List.replicate 4 0x61 ++ [0x61]) ∧
       (List.replicate 4 (0x61 : Byte)).length = s.cfg.textCap ∧
       encodedBits s = codesOf s.code (List.replicate 4 0x61) ++ (s.code.entry 0x61 ++ [])) ∧
    (let s := staleAb 1
     s.bvalid = true ∧ TreeInv s.node s.root ∧ List.Forall₂ (TreeCode s.node s.root) [[false]] [0x61] ∧
       TreeCode s.node s.root [true] 0x62 ∧ ([0x61] : List Byte).length = s.cfg.textCap ∧
       encodedBits s = [[false]].flatten ++ ([true] ++ []) ∧ ¬ CodeMatchesTree s) := by
  refine ⟨⟨rfl, codeA_inv, allCoded_a [] 0 0 5, by decide, ?_⟩, rfl, nodesAb_inv, ?_⟩
  · show _ = codesOf (genTable _ 0) (List.replicate 4 0x61) ++ ((genTable _ 0).entry 0x61 ++ [])
    rw [codesOf_a, genTable_leaf rfl]
    decide
  · cases staleAb_codes 1 with
    | cons h1 h2 =>
      cases h2 with
      | cons h2 _ => exact ⟨.cons h1 .nil, h2, rfl, by decide, staleAb_stale 1⟩

/-- 06 40 by the tree of "ab"; and 04 10 by the tree of 'a' alone, whose leftover 1 begins at bit 3. -/
theorem witness_DecodeTreeResult :
    (unpackedAb.bvalid = true ∧ TreeInv unpackedAb.node unpackedAb.root ∧
      List.Forall₂ (TreeCode unpackedAb.node unpackedAb.root) [[false], [true]] [0x61, 0x62] ∧
      ([0x61, 0x62] : List Byte).length ≤ unpackedAb.cfg.textCap ∧
      encodedBits unpackedAb = [[false], [true]].flatten ++ [] ∧
      ∀ p y, TreeCode unpackedAb.node unpackedAb.root p y → ¬ p <+: []) ∧
    ((unpackedA [0x04, 0x10] 4 4).bvalid = true ∧
      TreeInv (unpackedA [0x04, 0x10] 4 4).node (unpackedA [0x04, 0x10] 4 4).root ∧
      List.Forall₂ (TreeCode (unpackedA [0x04, 0x10] 4 4).node (unpackedA [0x04, 0x10] 4 4).root)
        (List.replicate 3 [false]) (List.replicate 3 0x61) ∧
      encodedBits (unpackedA [0x04, 0x10] 4 4) = (List.replicate 3 [false]).flatten ++ [true] ∧
      ∀ p y, TreeCode (unpackedA [0x04, 0x10] 4 4).node (unpackedA [0x04, 0x10] 4 4).root p y → ¬ p <+: [true]) := by
  refine ⟨⟨rfl, nodesAb_inv, ?_, by decide, by decide, ?_⟩, rfl, nodesA_inv, ?_, by decide, ?_⟩
  · exact .cons ⟨0, 1, rfl, rfl⟩ (.cons ⟨1, 1, rfl, rfl⟩ .nil)
  · intro p y h hp
    rw [List.prefix_nil.1 hp] at h
    obtain ⟨j, f, h1, h2⟩ := h
    cases h1
    cases h2
  · exact .cons ⟨rfl, rfl⟩ (.cons ⟨rfl, rfl⟩ (.cons ⟨rfl, rfl⟩ .nil))
  · rintro p y ⟨rfl, -⟩
    decide

theorem witness_DecodeModesAgree : TreeInv unpackedAb.node unpackedAb.root ∧ CodeMatchesTree unpackedAb := ⟨nodesAb_inv, rfl⟩

/-- The text "ab" in the reset block. -/
def textAb : State := { blk with text := [0x61, 0x62] }

theorem witness_CompressIsFourCommands :
    ∃ a b c d, exec .count textAb = .next a ∧ exec .build a = .next b ∧ exec .gen b = .next c ∧ exec .pack c = .next d :=
  ⟨_, _, _, _, exec_after _ _, exec_after _ _, exec_after _ _, exec_after _ _⟩

theorem witness_CompressOnlyOverflows :
    textAb.cfg.WellFormed ∧ Memory.wf textAb = true ∧ exec .compress textAb = .next (after .compress textAb) :=
  ⟨by decide, by decide, exec_after _ _⟩

/-- TLEN = 1 at the exact bound: 2 + 255 / 8 = 33. -/
theorem witness_CompressCompletes :
    let s := { State.resetWith ⟨64, 33⟩ with text := [0x61] }
    s.cfg.WellFormed ∧ Memory.wf s = true ∧ 2 + 255 * s.tlen / 8 ≤ s.cfg.contCap := by decide

theorem compressAb_err : (after .compress textAb).err = .none := by decide +kernel

/-- An UNPACK that fails and one that succeeds. -/
theorem witness_DecompressIsUnpackThenDecode :
    (exec .unpack blk = .next (after .unpack blk) ∧ (after .unpack blk).err ≠ .none) ∧
    (exec .unpack unpackedAb = .next (after .unpack unpackedAb) ∧ (after .unpack unpackedAb).err = .none ∧
      exec (.decode .tree) (after .unpack unpackedAb) = .next (after (.decode .tree) (after .unpack unpackedAb))) :=
  ⟨⟨exec_after _ _, by decide +kernel⟩, exec_after _ _, by decide +kernel, exec_after _ _⟩

/-- Table mode: 08 00 00. Tree mode: 06 40, with a stale CODE. -/
theorem witness_DecompressCompletes :
    (let s := unpackedA [0x08, 0x00, 0x00] 8 8
     s.cfg.WellFormed ∧ Memory.wf s = true ∧ s.cont = 0x08 :: [0x00, 0x00] ∧
       (0x08 : Byte).toNat ≤ 8 * ([0x00, 0x00] : List Byte).length ∧
       (List.replicate 8 (0x61 : Byte)).length ≤ s.cfg.textCap ∧ CodeSetInv s.code ∧
       AllCoded s.code (List.replicate 8 0x61) ∧
       (bitsOfBytes [0x00, 0x00]).take (8 * ([0x00, 0x00] : List Byte).length - (0x08 : Byte).toNat) =
         codesOf s.code (List.replicate 8 0x61)) ∧
    (let s := staleAb 2
     s.cfg.WellFormed ∧ Memory.wf s = true ∧ s.cont = 0x06 :: [0x40] ∧
       (0x06 : Byte).toNat ≤ 8 * ([0x40] : List Byte).length ∧ ([0x61, 0x62] : List Byte).length ≤ s.cfg.textCap ∧
       TreeInv s.node s.root ∧ List.Forall₂ (TreeCode s.node s.root) [[false], [true]] [0x61, 0x62] ∧
       (bitsOfBytes [0x40]).take (8 * ([0x40] : List Byte).length - (0x06 : Byte).toNat) =
         [[false], [true]].flatten) := by
  refine ⟨⟨by decide, by decide, rfl, by decide, by decide, codeA_inv, allCoded_a _ _ _ 8, ?_⟩,
    by decide, by decide, rfl, by decide, by decide, nodesAb_inv, staleAb_codes 2, by decide⟩
  show _ = codesOf (genTable _ 0) (List.replicate 8 0x61)
  rw [codesOf_a]
  decide

/-- A decompressing block that holds the container, code table and tree of `t` and nothing else of it. -/
def restored (t : State) : State :=
  { blk with cfg := t.cfg, cont := t.cont, code := t.code, node := t.node, root := t.root }

theorem restored_fields (t : State) :
    (restored t).cfg = t.cfg ∧ (restored t).cont = t.cont ∧ (restored t).code = t.code ∧ (restored t).node = t.node ∧
      (restored t).root = t.root := ⟨rfl, rfl, rfl, rfl, rfl⟩

theorem witness_RoundTrip :
    ∃ t u : State, textAb.cfg.WellFormed ∧ Memory.wf textAb = true ∧ exec .compress textAb = .next t ∧ t.err = .none ∧
      u.cfg = t.cfg ∧ u.cont = t.cont ∧ u.code = t.code ∧ u.node = t.node ∧ u.root = t.root :=
  ⟨after .compress textAb, restored (after .compress textAb), by decide, by decide, exec_after _ _, compressAb_err,
    restored_fields _⟩

theorem witness_SameTextSameContainer :
    let s := { disagree with text := [0x61, 0x62], einfo := 7 }
    textAb.text = s.text ∧ textAb.cfg = s.cfg ∧ exec .compress textAb = .next (after .compress textAb) ∧
    exec .compress s = .next (after .compress s) ∧ (after .compress textAb).err = .none :=
  ⟨rfl, rfl, exec_after _ _, exec_after _ _, compressAb_err⟩

/-- A failing command of each of the statement's clauses: DECODE, COMPRESS, DECOMPRESS after a successful UNPACK. -/
theorem witness_FailedCommandKeepsEverything :
    (exec (.decode .table) blk = .next (after (.decode .table) blk) ∧ (after (.decode .table) blk).err ≠ .none) ∧
    (exec .compress (packable 2 8) = .next (after .compress (packable 2 8)) ∧
      (after .compress (packable 2 8)).err ≠ .none) ∧
    (let s := { disagree with cont := [0x06, 0x40] };
      exec (.decompress .tree) s = .next (after (.decompress .tree) s) ∧ (after (.decompress .tree) s).err ≠ .none ∧
      (after (.decompress .tree) s).bvalid = true) := by
  refine ⟨⟨exec_after _ _, ?_⟩, ⟨exec_after _ _, ?_⟩, exec_after _ _, ?_, ?_⟩ <;> decide +kernel

theorem witness_CommandsIgnoreStatus :
    exec (.decode .tree) unpackedAb = .next (after (.decode .tree) unpackedAb) := exec_after _ _

/-- The clauses name the command and the kind of location: TEXT, CONT and a table location exist. -/
theorem witness_CommandStoresNothingElse :
    exec .pack blk = .next (after .pack blk) ∧ locate blk.cfg 0x1000000 = .ok (.text 0) ∧
    locate blk.cfg 0x20000FC = .ok (.cont 63) ∧ locate blk.cfg 0x7FC = .ok (.freq 255) ∧
    locate blk.cfg 0x9FEC = .ok (.node 510 3) ∧ locate blk.cfg 0x4FFC = .ok (.codeBits 255 7) := by
  refine ⟨exec_after _ _, rfl, rfl, rfl, rfl, rfl⟩

/-- BVALID set by UNPACK and by DECOMPRESS; cleared by reset, by CLR, by PACK, and by a host write to CONT and to CLEN. -/
theorem witness_WhatChangesBvalid :
    (disagree.bvalid = false ∧ (served (cmdWrite 0x6) disagree).bvalid = true ∧
      (served (cmdWrite 0x109) disagree).bvalid = true) ∧
    (unpackedAb.bvalid = true ∧ (served .reset unpackedAb).bvalid = false ∧
      (served (cmdWrite 0x1) unpackedAb).bvalid = false ∧ (served (cmdWrite 0x5) unpackedAb).bvalid = false ∧
      (served (.write 0x2000000 0x06) unpackedAb).bvalid = false ∧ (served (.write 0x14 2) unpackedAb).bvalid = false) := by
  decide +kernel

theorem served_step {a : HostAction} {s t : State} (h : step { s with bus := [a] } = .next t) :
    step { s with bus := [a] } = .next (served a s) := by rw [served, h]

theorem step_build (s : State) : step { s with bus := [cmdWrite 0x3] } = .next (served (cmdWrite 0x3) s) := served_step rfl

/-- BUILD changes the tree; GEN on the tree of "abc" changes the codes. -/
theorem witness_TreeAndCodesHaveOneWriter :
    (served (cmdWrite 0x3) disagree).node ≠ disagree.node ∧
    (served (cmdWrite 0x4) disagree).code.entry 0x63 ≠ disagree.code.entry 0x63 := by decide +kernel

theorem witness_StepAlwaysCompletes :
    blk.bus = [] ∧ { blk with bus := [.read 0x8] }.bus = .read 0x8 :: [] ∧
    { blk with bus := [.write 0x8 0] }.bus = .write 0x8 0 :: [] := ⟨rfl, rfl, rfl⟩

/-- A state with a tree, its codes and an unpacked container, in which the host reads STATUS. -/
theorem unpackedAb_inv (b : List HostAction) : BlockInv { unpackedAb with bus := b } := by
  refine ⟨(by show (unpackedAb.cfg).WellFormed; decide), ?_, nodesAb_inv, genTable_codeSetInv nodesAb_inv,
    genTable_length_le nodesAb_inv, fun _ => rfl, fun _ => ?_, ?_⟩
  · show Memory.wf unpackedAb = true
    decide
  · exact ⟨rfl, by show (6#8).toNat ≤ 8 * ([6#8, 64#8].length - 1); decide,
      by show (2#32).toNat = 8 * ([6#8, 64#8].length - 1) - (6#8).toNat; decide⟩
  · show (2#32).toNat < 1073741824
    decide

theorem witness_StepKeepsInvariant :
    BlockInv { unpackedAb with bus := [cmdWrite 0x3] } ∧
    step { unpackedAb with bus := [cmdWrite 0x3] } = .next (served (cmdWrite 0x3) unpackedAb) :=
  ⟨unpackedAb_inv _, step_build _⟩

theorem witness_ResetMeetsInvariant : Config.WellFormed ⟨1, 2⟩ := by decide

/-- A location of each of the kinds named. -/
theorem witness_ResetValues :
    Config.WellFormed ⟨64, 64⟩ ∧ locate ⟨64, 64⟩ 0x10000FC = .ok (.text 63) ∧ locate ⟨64, 64⟩ 0x2000000 = .ok (.cont 0) ∧
    locate ⟨64, 64⟩ 0x8000 = .ok (.node 0 0) ∧ locate ⟨64, 64⟩ 0x400 = .ok (.freq 0) ∧
    locate ⟨64, 64⟩ 0x4FC0 = .ok (.codeLen 255) ∧ locate ⟨64, 64⟩ 0x1020 = .ok (.codeBits 0 0) :=
  ⟨by decide, rfl, rfl, rfl, rfl, rfl, rfl⟩

theorem witness_ResetAction : { unpackedAb with bus := [.reset] }.bus = .reset :: [] := rfl

theorem witness_AddressMap :
    Config.WellFormed ⟨64, 64⟩ ∧ locate ⟨64, 64⟩ 0x2C = .ok (.reg .ccap) ∧ (Loc.reg .ccap).valid ⟨64, 64⟩ = true ∧
    (Loc.reg .ccap).addr = 0x2C := ⟨by decide, rfl, rfl, rfl⟩

/-- A read and a write of each side: TEXT[0] of an empty text is refused, STATUS is not; STATUS cannot be written, TEXT[0]
can. -/
theorem witness_BusErrorExactly :
    blk.cfg.WellFormed ∧ ReadRefused blk 0x1000000 ∧ ¬ ReadRefused blk 0x8 ∧ WriteRefused blk 0x8 0 ∧
    ¬ WriteRefused blk 0x1000000 0 := by
  have hw : blk.cfg.WellFormed := by decide
  have e : ∀ (l : Loc) (a : Addr) (l' : Loc), locate blk.cfg a = .ok l → l'.valid blk.cfg = true → l'.addr = a → l' = l := by
    intro l a l' h hv ha
    subst ha
    rw [locate_addr hw hv] at h
    cases h
    rfl
  refine ⟨hw, .inr (.inr ⟨.text 0, rfl, rfl, .inr (.inl ⟨0, rfl, Nat.le_refl 0⟩)⟩), ?_,
    .inr (.inr ⟨.reg .status, rfl, rfl, .inl rfl⟩), ?_⟩
  · rintro (h | h | ⟨l, hv, ha, h⟩)
    · exact h rfl
    · exact h (.reg .status) rfl rfl
    · rw [e (.reg .status) 0x8 l rfl hv ha] at h
      simp at h
  · rintro (h | h | ⟨l, hv, ha, h⟩)
    · exact h rfl
    · exact h (.text 0) rfl rfl
    · rw [e (.text 0) 0x1000000 l rfl hv ha] at h
      simp [Loc.readOnly] at h

/-- TEXT of length 1: index 0 is below, 1 is at, 2 and the last index are above the length. -/
theorem witness_TextWindow :
    let s := { blk with text := [0x61] }
    s.cfg.WellFormed ∧ s.text[0]? = some 0x61 ∧ 0 < s.text.length ∧ 1 = s.text.length ∧ s.text.length < 2 ∧
    63 < s.cfg.textCap ∧ s.text.length ≤ 63 := by decide

theorem witness_ContWindow :
    let s := { blk with cont := [0x08] }
    s.cfg.WellFormed ∧ s.cont[0]? = some 0x08 ∧ 0 < s.cont.length ∧ 1 = s.cont.length ∧ s.cont.length < 2 ∧
    63 < s.cfg.contCap ∧ s.cont.length ≤ 63 := by decide

/-- A length equal to the present one, and one above it. -/
theorem witness_LengthRegisters :
    let s := { blk with text := [0x61], cont := [0x08] }
    (1 : Word).toNat ≤ s.text.length ∧ s.text.length < (2 : Word).toNat ∧ (1 : Word).toNat ≤ s.cont.length ∧
    s.cont.length < (2 : Word).toNat := by decide

theorem witness_FreqWindow :
    { blk with bus := [.write 0x7FC 9] }.bus = .write (BitVec.ofNat 26 (0x400 + 4 * (255 : Byte).toNat)) 9 :: [] := rfl

/-- A code of one bit; a leaf at index 0, an internal node at index 2, and the last index, which is above NNODES. -/
theorem witness_CodeAndNodeWindows :
    ((unpackedA [] 0 0).code.entry 0x61).length ≤ 255 ∧ unpackedAb.node[0]? = some (.leaf 0x61 1) ∧
    unpackedAb.node[2]? = some (.internal 2 0 1) ∧ unpackedAb.node.length ≤ 510 := by
  refine ⟨?_, rfl, rfl, by decide⟩
  rw [unpackedA_entry]
  decide

/-- A store to each of the five kinds of location, and another location to read. -/
theorem witness_StoreLeavesOtherLocations :
    unpackedAb.cfg.WellFormed ∧ locate unpackedAb.cfg 0x1000000 = .ok (.text 0) ∧
    locate unpackedAb.cfg 0x2000000 = .ok (.cont 0) ∧ locate unpackedAb.cfg 0x10 = .ok (.reg .tlen) ∧
    locate unpackedAb.cfg 0x14 = .ok (.reg .clen) ∧ locate unpackedAb.cfg 0x400 = .ok (.freq 0) ∧
    locate unpackedAb.cfg 0x2000004 = .ok (.cont 1) ∧ (0x2000004 : Addr) ≠ 0x2000000 ∧
    step { unpackedAb with bus := [.write 0x2000000 7] } = .next (served (.write 0x2000000 7) unpackedAb) :=
  ⟨by decide, rfl, rfl, rfl, rfl, rfl, rfl, by decide, served_step rfl⟩

theorem witness_ContainerBitOrder :
    ([0x06, 0x40] : List Byte)[9 / 8]? = some 0x40 ∧ 1 < unpackedAb.blen.toNat := by decide

end Sys2Proof.Tests
end

namespace Sys2Proof.Machine

/-! ## Inversions

What a successful command step, a whole command and a whole bus step leave, in the form in which a proof about
every step uses it (spec/40_command_execution.md R130 to R135, spec/20_memory.md R62). -/

/-- What a successful PACK step leaves, and when it succeeds (R191 to R194). -/
theorem packState_ok {s t : State} (h : packState s = .ok t) :
    (s.text = [] ∨ 2 + (codesOf s.code s.text).length / 8 ≤ s.cfg.contCap) ∧
      t = { s with
        cont := container (codesOf s.code s.text), blen := BitVec.ofNat 32 (codesOf s.code s.text).length,
        pad := BitVec.ofNat 8 (padding (codesOf s.code s.text).length), bvalid := false } := by
  rcases packState_cases s with ⟨c, hc, -, hfit, rfl⟩ | ⟨f, hf, -⟩
  · exact ⟨hfit, Except.ok.inj (h.symm.trans hc)⟩
  · cases h.symm.trans hf

/-- What a successful UNPACK step leaves, and when it succeeds (R205, R206). -/
theorem unpackState_ok {s t : State} (h : unpackState s = .ok t) :
    ∃ b rest, s.cont = b :: rest ∧ b.toNat ≤ 8 * rest.length ∧
      t = { s with pad := b, blen := BitVec.ofNat 32 (8 * rest.length - b.toNat), bvalid := true } := by
  rcases unpackState_cases s with ⟨-, he⟩ | ⟨_, _, -, -, he⟩ | ⟨b, rest, hcont, hpad, hok⟩
  · cases h.symm.trans he
  · cases h.symm.trans he
  · exact ⟨b, rest, hcont, hpad, Except.ok.inj (h.symm.trans hok)⟩

/-- A successful DECODE step writes the text and nothing else (R215). -/
theorem decodeState_ok {m : Mode} {s t : State} (h : decodeState m s = .ok t) :
    ∃ out, t = { s with text := out } := by
  rcases decodeState_cases m s with ⟨-, he⟩ | ⟨-, _, -, he⟩ | ⟨-, out, -, hok⟩
  · cases h.symm.trans he
  · cases h.symm.trans he
  · exact ⟨out, Except.ok.inj (h.symm.trans hok)⟩

/-! A failing step of a command has an error code of its own, not 0 (R251). -/

theorem packState_error_ne_none {s : State} {f : Failure} (h : packState s = .error f) : f.err ≠ .none := by
  rcases packState_error h with he | he <;> simp [he]

theorem unpackState_error_ne_none {s : State} {f : Failure} (h : unpackState s = .error f) : f.err ≠ .none := by
  simp [unpackState_error h]

theorem decodeState_error_ne_none {m : Mode} {s : State} {f : Failure} (h : decodeState m s = .error f) :
    f.err ≠ .none := by
  rcases decodeState_error h with ⟨-, he⟩ | ⟨-, he | he⟩ <;> simp [he]

/-- DECOMPRESS ends as its UNPACK step fails, or as its DECODE step ends (R236). -/
theorem exec_decompress_next {m : Mode} {s t : State} (h : exec (.decompress m) s = .next t) :
    (∃ f, unpackState s = .error f ∧ t = s.fail (Instr.decompress m).opcode f) ∨
      ∃ u, unpackState s = .ok u ∧ finish (Instr.decompress m).opcode u (decodeState m u) = .next t := by
  rcases execDecompress_cases m s with ⟨f, hf, he⟩ | ⟨u, hu, he⟩
  · exact .inl ⟨f, hf, Host.Outcome.next.inj (h.symm.trans he)⟩
  · exact .inr ⟨u, hu, he.symm.trans h⟩

/-- A command word is executed, or recorded as illegal (R131, R132). -/
theorem issue_next {w : Word} {s t : State} (h : issue w s = .next t) :
    (∃ i, decodeWord w = .ok i ∧ exec i s = .next t) ∨ t = s.illegal w := by
  unfold issue at h
  split at h
  · next i hi => exact .inl ⟨i, hi, h⟩
  · exact .inr (Host.Outcome.next.inj h).symm

/-- A store of the host takes effect and is answered with ok, or only answers buserror (R62). -/
theorem storeTransaction_cases (l : Loc) (v : Word) (s : State) :
    (∃ u, writeLoc s v l = .ok u ∧ storeTransaction l v s = u.respond .ok) ∨
      storeTransaction l v s = s.respond .buserror := by
  cases h : writeLoc s v l with
  | ok u => exact .inl ⟨u, rfl, storeTransaction_ok h⟩
  | error e => exact .inr (storeTransaction_error h)

/-- Everything a step that answers `t` can have done: nothing, a transaction that only answers (a read or a refused write),
a reset, an accepted store, the execution of a command, or the recording of an illegal word. -/
theorem step_next {s t : State} (h : step s = .next t) :
    t = s ∨ ∃ a rest, s.bus = a :: rest ∧
      ((∃ r, t = (s.taken rest).respond r) ∨
       (a = .reset ∧ t = hostReset (s.taken rest)) ∨
       (∃ x v l u, a = .write x v ∧ locate s.cfg x = .ok l ∧ writeLoc (s.taken rest) v l = .ok u ∧ t = u.respond .ok) ∨
       (∃ w i, a = .write 0x4 w ∧ decodeWord w = .ok i ∧ exec i ((s.taken rest).respond .ok) = .next t) ∨
       (∃ w, t = ((s.taken rest).respond .ok).illegal w)) := by
  have answer {u : State} (he : step s = .next u) : t = u := Host.Outcome.next.inj (h.symm.trans he)
  rcases step_cases s with ⟨-, he⟩ | ⟨a, rest, hbus, hcase⟩
  · exact .inl (answer he)
  refine .inr ⟨a, rest, hbus, ?_⟩
  rcases hcase with ⟨x, -, he⟩ | ⟨ha, he⟩ | ⟨x, v, e, -, -, he⟩ | ⟨x, v, l, ha, hl, -, he⟩ | ⟨w, ha, he⟩
  case inl =>
    obtain ⟨r, hr, -⟩ := readTransaction_cases x (s.taken rest)
    exact .inl ⟨r, (answer he).trans hr⟩
  case inr.inl => exact .inr (.inl ⟨ha, answer he⟩)
  case inr.inr.inl => exact .inl ⟨_, answer he⟩
  case inr.inr.inr.inl =>
    rcases storeTransaction_cases l v (s.taken rest) with ⟨u, hu, hr⟩ | hr
    · exact .inr (.inr (.inl ⟨x, v, l, u, ha, hl, hu, (answer he).trans hr⟩))
    · exact .inl ⟨_, (answer he).trans hr⟩
  case inr.inr.inr.inr =>
    rcases issue_next (he.symm.trans h) with ⟨i, hi, hx⟩ | hx
    · exact .inr (.inr (.inr (.inl ⟨w, i, ha, hi, hx⟩)))
    · exact .inr (.inr (.inr (.inr ⟨w, hx⟩)))

/-! ## The invariants of the block

The invariants of R39 hold at reset and every step keeps them: one lemma per operation that writes the state,
then the ten commands, the stores of the host, and the step. -/

theorem emptyTree_inv : TreeInv [] 0 where
  symbols_nodup := List.nodup_nil
  parents := List.Perm.nil
  ordered := by simp
  sums := by simp
  leaves_first := by simp
  root_last := rfl
  length_le := Nat.zero_le _

theorem emptyCode_codeSetInv : CodeSetInv emptyCode := .inl emptyCode_entry

theorem emptyCode_length_le (y : Byte) : (emptyCode.entry y).length ≤ Config.codeMaxLen := by simp

theorem blockInv_resetWith {c : Config} (hc : c.WellFormed) : BlockInv (State.resetWith c) where
  cfg := hc
  memory := wf_resetWith c
  tree := emptyTree_inv
  codes := emptyCode_codeSetInv
  code_length := emptyCode_length_le
  einfo := fun _ => rfl
  unpacked := by simp
  blen := by simp

/-- A number within a bound stays within it as BLEN. -/
theorem toNat_ofNat_lt {w n m : Nat} (h : n < m) : (BitVec.ofNat w n).toNat < m := by
  rw [BitVec.toNat_ofNat]
  exact (Nat.mod_le _ _).trans_lt h

section Updates

variable {s : State} (h : BlockInv s)
include h

/-! What a transaction, the end of a command and a reset write keeps the invariants. -/

theorem BlockInv.taken (rest : List HostAction) : BlockInv (s.taken rest) := { h with }

theorem BlockInv.respond (r : Response) : BlockInv (s.respond r) := { h with }

theorem BlockInv.succeed (op : Byte) : BlockInv (s.succeed op) := { h with einfo := fun _ => rfl }

theorem BlockInv.fail (op : Byte) {f : Failure} (hf : f.err ≠ .none) : BlockInv (s.fail op f) :=
  { h with einfo := fun he => absurd he hf }

theorem BlockInv.illegal (w : Word) : BlockInv (s.illegal w) := h.fail _ (f := ⟨.illegalCmd, w⟩) nofun

theorem BlockInv.hostReset : BlockInv (hostReset s) := { blockInv_resetWith h.cfg with }

/-! The steps of the commands. -/

theorem BlockInv.clrState : BlockInv (clrState s) := { blockInv_resetWith h.cfg with einfo := h.einfo }

theorem BlockInv.countState : BlockInv (countState s) := { h with }

theorem BlockInv.buildState : BlockInv (buildState s) := { h with tree := buildTree_inv s.freq }

theorem BlockInv.genState : BlockInv (genState s) :=
  { h with codes := genTable_codeSetInv h.tree, code_length := genTable_length_le h.tree }

theorem BlockInv.tablesState : BlockInv (tablesState s) := h.countState.buildState.genState

/-- A container of at most CONT_CAP bytes holds fewer than 2^30 bits (R5, R29). -/
theorem BlockInv.packState {t : State} (ht : packState s = .ok t) : BlockInv t := by
  have hwf := wf_packState h.cfg h.memory ht
  obtain ⟨hfit, rfl⟩ := packState_ok ht
  have hlen : (codesOf s.code s.text).length < 1073741824 := by
    rcases hfit with hnil | hle
    · simp [hnil]
    · have := h.cfg.2.2
      omega
  exact { h with memory := hwf, unpacked := nofun, blen := toNat_ofNat_lt hlen }

/-- The bits after the header and the padding are fewer than 2^30, since CLEN is at most CONT_CAP (R5, R29). -/
theorem BlockInv.unpackState {t : State} (ht : unpackState s = .ok t) : BlockInv t := by
  have hwf := wf_unpackState h.memory ht
  have hcap := (wf_iff.1 h.memory).2
  have hmax := h.cfg.2.2
  obtain ⟨b, rest, hcont, hpad, rfl⟩ := unpackState_ok ht
  rw [hcont, List.length_cons] at hcap
  have hlen : 8 * rest.length - b.toNat < 1073741824 := by omega
  refine { h with memory := hwf, unpacked := fun _ => ?_, blen := toNat_ofNat_lt hlen }
  simpa [UnpackedInv, hcont] using ⟨hpad, hlen.trans (by decide)⟩

theorem BlockInv.decodeState {m : Mode} {t : State} (ht : decodeState m s = .ok t) : BlockInv t := by
  have hwf := wf_decodeState h.memory ht
  obtain ⟨out, rfl⟩ := decodeState_ok ht
  exact { h with memory := hwf }

/-- A command keeps the invariants when what its step writes does, and its failure is a failure (R133, R134). -/
theorem BlockInv.finish {op : Byte} {r : Except Failure State} {t : State} (ht : finish op s r = .next t)
    (hok : ∀ {u}, r = .ok u → BlockInv u) (herr : ∀ {f}, r = .error f → f.err ≠ .none) : BlockInv t := by
  rcases finish_next ht with ⟨u, hu, rfl⟩ | ⟨f, hf, rfl⟩
  · exact (hok hu).succeed op
  · exact h.fail op (herr hf)

/-- Every command keeps the invariants. -/
theorem BlockInv.exec {i : Instr} {t : State} (ht : exec i s = .next t) : BlockInv t := by
  cases i with
  | nop => cases ht; exact h.succeed _
  | clr => cases ht; exact h.clrState.succeed _
  | count => cases ht; exact h.countState.succeed _
  | build => cases ht; exact h.buildState.succeed _
  | gen => cases ht; exact h.genState.succeed _
  | pack => exact h.finish ht h.packState packState_error_ne_none
  | unpack => exact h.finish ht h.unpackState unpackState_error_ne_none
  | decode m => exact h.finish ht h.decodeState decodeState_error_ne_none
  | compress => exact h.tablesState.finish ht h.tablesState.packState packState_error_ne_none
  | decompress m =>
    rcases exec_decompress_next ht with ⟨f, hf, rfl⟩ | ⟨u, hu, hfin⟩
    · exact h.fail _ (unpackState_error_ne_none hf)
    · have hinv := h.unpackState hu
      exact hinv.finish hfin hinv.decodeState decodeState_error_ne_none

/-- Every store of the host to a location that exists keeps the invariants: it writes FREQ, TEXT, or CONT with BVALID
cleared (R25). -/
theorem BlockInv.writeLoc {v : Word} {l : Loc} {t : State} (hv : l.valid s.cfg = true) (ht : writeLoc s v l = .ok t) :
    BlockInv t := by
  have hwf := wf_writeLoc hv h.memory ht
  rcases writeLoc_ok ht with ⟨-, rfl⟩ | ⟨y, -, rfl⟩ | ⟨b, -, rfl⟩ | ⟨b, -, rfl⟩
  · exact h
  · exact { h with }
  · exact { h with memory := hwf }
  · exact { h with memory := hwf, unpacked := nofun }

/-- Every step keeps the invariants (R39). -/
theorem BlockInv.step {t : State} (ht : step s = .next t) : BlockInv t := by
  rcases step_next ht with rfl | ⟨a, rest, -, hcase⟩
  · exact h
  have hs := h.taken rest
  rcases hcase with ⟨r, rfl⟩ | ⟨-, rfl⟩ | ⟨x, v, l, u, -, hl, hu, rfl⟩ | ⟨w, i, -, -, hx⟩ | ⟨w, rfl⟩
  · exact hs.respond r
  · exact hs.hostReset
  · obtain ⟨-, hvalid, -⟩ := locate_some hl
    exact (hs.writeLoc hvalid hu).respond .ok
  · exact (hs.respond .ok).exec hx
  · exact (hs.respond .ok).illegal w

end Updates

/-- Settles O46: each kind of step of `step_next` is one of the operations that keep the invariants. -/
theorem stepKeepsInvariant : Obligations.StepKeepsInvariant := fun _ _ h ht => h.step ht

/-- Settles O47: the empty tables and buffers meet the invariants for any parameters, so for those of the chip. -/
theorem resetMeetsInvariant : Obligations.ResetMeetsInvariant :=
  ⟨fun _ hc => blockInv_resetWith hc, blockInv_resetWith chip_wellFormed⟩

/-! ## Who writes BVALID, the tree and the code table

What one command and one store do to each of these fields, then the two statements about a step. -/

/-! ### BVALID (R25) -/

/-- The end of a command leaves BVALID as its rule wrote it, which takes a success, or as it was. -/
theorem finish_bvalid {op : Byte} {s t : State} {r : Except Failure State} (h : finish op s r = .next t) :
    t.bvalid = s.bvalid ∨ ∃ u, r = .ok u ∧ t.bvalid = u.bvalid ∧ t.err = .none := by
  rcases finish_next h with ⟨u, hu, rfl⟩ | ⟨f, -, rfl⟩
  · exact .inr ⟨u, hu, rfl, rfl⟩
  · exact .inl rfl

/-- PACK and COMPRESS clear BVALID where they succeed, and keep it where they fail. -/
theorem finish_pack_bvalid {op : Byte} {s t : State} (h : finish op s (packState s) = .next t) :
    t.bvalid = s.bvalid ∨ t.bvalid = false ∧ t.err = .none := by
  rcases finish_bvalid h with hkeep | ⟨u, hu, hb, he⟩
  · exact .inl hkeep
  · obtain ⟨-, rfl⟩ := packState_ok hu
    exact .inr ⟨hb, he⟩

/-- The end of DECODE's step keeps BVALID, and its failures are not UNPACK's (R219). -/
theorem finish_decode_bvalid {op : Byte} {m : Mode} {s t : State} (h : finish op s (decodeState m s) = .next t) :
    t.bvalid = s.bvalid ∧ t.err ≠ .malformedContainer := by
  rcases finish_next h with ⟨u, hu, rfl⟩ | ⟨f, hf, rfl⟩
  · obtain ⟨out, rfl⟩ := decodeState_ok hu
    exact ⟨rfl, nofun⟩
  · refine ⟨rfl, ?_⟩
    rcases decodeState_error hf with ⟨-, he⟩ | ⟨-, he | he⟩ <;> simp [he]

/-- What a command does to BVALID: it keeps it, sets it or clears it, the latter two as R25 says. -/
theorem exec_bvalid {i : Instr} {s t : State} (h : exec i s = .next t) :
    t.bvalid = s.bvalid ∨
    (t.bvalid = true ∧ (i = .unpack ∧ t.err = .none ∨ ∃ m, i = .decompress m ∧ t.err ≠ .malformedContainer)) ∨
    (t.bvalid = false ∧ (i = .clr ∨ (i = .pack ∨ i = .compress) ∧ t.err = .none)) := by
  cases i with
  | nop | count | build | gen => cases h; exact .inl rfl
  | clr => cases h; exact .inr (.inr ⟨rfl, .inl rfl⟩)
  | pack => exact (finish_pack_bvalid h).imp_right fun ⟨hb, he⟩ => .inr ⟨hb, .inr ⟨.inl rfl, he⟩⟩
  | compress =>
    exact (finish_pack_bvalid (s := tablesState s) h).imp_right fun ⟨hb, he⟩ => .inr ⟨hb, .inr ⟨.inr rfl, he⟩⟩
  | decode m => exact .inl (finish_decode_bvalid h).1
  | unpack =>
    rcases finish_bvalid h with hkeep | ⟨u, hu, hb, he⟩
    · exact .inl hkeep
    · obtain ⟨_, _, -, -, rfl⟩ := unpackState_ok hu
      exact .inr (.inl ⟨hb, .inl ⟨rfl, he⟩⟩)
  | decompress m =>
    rcases exec_decompress_next h with ⟨f, -, rfl⟩ | ⟨u, hu, hfin⟩
    · exact .inl rfl
    · obtain ⟨_, _, -, -, rfl⟩ := unpackState_ok hu
      obtain ⟨hb, he⟩ := finish_decode_bvalid hfin
      exact .inr (.inl ⟨hb, .inr ⟨m, rfl, he⟩⟩)

/-- A store keeps BVALID unless it is one to CLEN or to the CONT window, which clears it. -/
theorem writeLoc_bvalid {s t : State} {v : Word} {l : Loc} (h : writeLoc s v l = .ok t) :
    t.bvalid = s.bvalid ∨ t.bvalid = false ∧ (l = .reg .clen ∨ ∃ i, l = .cont i) := by
  rcases writeLoc_ok h with ⟨-, rfl⟩ | ⟨y, -, rfl⟩ | ⟨b, -, rfl⟩ | ⟨b, hl, rfl⟩
  · exact .inl rfl
  · exact .inl rfl
  · exact .inl rfl
  · exact .inr ⟨rfl, hl.imp And.left fun ⟨i, hi, _⟩ => ⟨i, hi⟩⟩

/-- The addresses of CLEN and of the CONT window (R61). -/
theorem locate_container_addr {c : Config} {x : Addr} {l : Loc} (h : locate c x = .ok l)
    (hl : l = .reg .clen ∨ ∃ i, l = .cont i) : x = 0x14 ∨ 0x2000000 ≤ x.toNat := by
  obtain ⟨-, -, hoff⟩ := locate_some h
  rcases hl with rfl | ⟨i, rfl⟩
  · exact .inl (BitVec.eq_of_toNat_eq hoff.symm)
  · exact .inr (hoff ▸ Nat.le_add_right _ _)

/-- A step that keeps BVALID neither sets nor clears it. -/
theorem bvalid_kept {a b : Bool} {P Q : Prop} (h : b = a) : (a = false → b = true → P) ∧ (a = true → b = false → Q) := by
  subst h
  exact ⟨fun h0 h1 => (nomatch h0.symm.trans h1), fun h1 h0 => (nomatch h1.symm.trans h0)⟩

/-- Settles O43: by the kinds of step of `step_next`; only a reset, a command and an accepted store write BVALID. -/
theorem whatChangesBvalid : Obligations.WhatChangesBvalid := by
  intro s t h
  rcases step_next h with rfl | ⟨a, rest, hbus, hcase⟩
  · exact bvalid_kept rfl
  rcases hcase with ⟨r, rfl⟩ | ⟨ha, rfl⟩ | ⟨x, v, l, u, ha, hl, hu, rfl⟩ | ⟨w, i, ha, hi, hx⟩ | ⟨w, rfl⟩
  case inl => exact bvalid_kept rfl
  case inr.inl => exact ⟨nofun, fun _ _ => ⟨a, rest, hbus, .inl ha⟩⟩
  case inr.inr.inl =>
    rcases writeLoc_bvalid hu with hkeep | ⟨hb, hcont⟩
    · exact bvalid_kept hkeep
    · refine ⟨fun _ ht => (nomatch hb.symm.trans ht), fun _ _ => ⟨a, rest, hbus, .inr (.inr ⟨x, v, ha, rfl, ?_⟩)⟩⟩
      exact locate_container_addr hl hcont
  case inr.inr.inr.inl =>
    rcases exec_bvalid hx with hkeep | ⟨hb, hset⟩ | ⟨hb, hclear⟩
    · exact bvalid_kept hkeep
    · refine ⟨fun _ _ => ⟨w, rest, ha ▸ hbus, ?_⟩, fun _ ht => (nomatch hb.symm.trans ht)⟩
      rcases hset with ⟨rfl, he⟩ | ⟨m, rfl, he⟩
      · exact .inl ⟨hi, he⟩
      · exact .inr ⟨m, hi, he⟩
    · refine ⟨fun _ ht => (nomatch hb.symm.trans ht), fun _ _ => ⟨a, rest, hbus, .inr (.inl ⟨w, ha, ?_⟩)⟩⟩
      rcases hclear with rfl | ⟨rfl | rfl, he⟩
      · exact .inl hi
      · exact .inr ⟨.inl hi, he⟩
      · exact .inr ⟨.inr hi, he⟩
  case inr.inr.inr.inr => exact bvalid_kept rfl

/-! ### The tree and the code table (R32 to R34) -/

/-- NODE, ROOT and CODE of `t` are those of `s`. -/
def SameTables (s t : State) : Prop := (t.node = s.node ∧ t.root = s.root) ∧ t.code = s.code

theorem SameTables.refl (s : State) : SameTables s s := ⟨⟨rfl, rfl⟩, rfl⟩

theorem SameTables.trans {s t u : State} (h : SameTables s t) (h' : SameTables t u) : SameTables s u := by
  obtain ⟨⟨hnode, hroot⟩, hcode⟩ := h
  obtain ⟨⟨hnode', hroot'⟩, hcode'⟩ := h'
  exact ⟨⟨hnode'.trans hnode, hroot'.trans hroot⟩, hcode'.trans hcode⟩

/-- The end of a command keeps the tables when what its rule wrote does. -/
theorem finish_sameTables {op : Byte} {s t : State} {r : Except Failure State} (h : finish op s r = .next t)
    (hr : ∀ {u}, r = .ok u → SameTables s u) : SameTables s t := by
  rcases finish_next h with ⟨u, hu, rfl⟩ | ⟨f, -, rfl⟩
  · exact (hr hu).trans (.refl _)
  · exact .refl _

theorem packState_sameTables {s t : State} (h : packState s = .ok t) : SameTables s t := by
  obtain ⟨-, rfl⟩ := packState_ok h
  exact .refl _

theorem unpackState_sameTables {s t : State} (h : unpackState s = .ok t) : SameTables s t := by
  obtain ⟨_, _, -, -, rfl⟩ := unpackState_ok h
  exact .refl _

theorem decodeState_sameTables {m : Mode} {s t : State} (h : decodeState m s = .ok t) : SameTables s t := by
  obtain ⟨_, rfl⟩ := decodeState_ok h
  exact .refl _

theorem writeLoc_sameTables {s t : State} {v : Word} {l : Loc} (h : writeLoc s v l = .ok t) : SameTables s t := by
  rcases writeLoc_ok h with ⟨-, rfl⟩ | ⟨_, -, rfl⟩ | ⟨_, -, rfl⟩ | ⟨_, -, rfl⟩ <;> exact .refl _

/-- What a command does to the tree and to the code table: it keeps each, or is one of its three writers. -/
theorem exec_tables {i : Instr} {s t : State} (h : exec i s = .next t) :
    ((t.node = s.node ∧ t.root = s.root) ∨ i = .build ∨ i = .compress ∨ i = .clr) ∧
    (t.code = s.code ∨ i = .gen ∨ i = .compress ∨ i = .clr) := by
  have keeps (hs : SameTables s t) {P Q : Prop} : ((t.node = s.node ∧ t.root = s.root) ∨ P) ∧ (t.code = s.code ∨ Q) :=
    hs.imp .inl .inl
  cases i with
  | nop | count => cases h; exact keeps (.refl _)
  | build => cases h; exact ⟨.inr (.inl rfl), .inl rfl⟩
  | gen => cases h; exact ⟨.inl ⟨rfl, rfl⟩, .inr (.inl rfl)⟩
  | compress => exact ⟨.inr (.inr (.inl rfl)), .inr (.inr (.inl rfl))⟩
  | clr => exact ⟨.inr (.inr (.inr rfl)), .inr (.inr (.inr rfl))⟩
  | pack => exact keeps (finish_sameTables h packState_sameTables)
  | unpack => exact keeps (finish_sameTables h unpackState_sameTables)
  | decode m => exact keeps (finish_sameTables h decodeState_sameTables)
  | decompress m =>
    rcases exec_decompress_next h with ⟨f, -, rfl⟩ | ⟨u, hu, hfin⟩
    · exact keeps (.refl _)
    · exact keeps ((unpackState_sameTables hu).trans (finish_sameTables hfin decodeState_sameTables))

/-- A step keeps the tree and the code table unless it is a reset or executes a command. -/
theorem step_tables {s t : State} (h : step s = .next t) :
    SameTables s t ∨ ∃ a rest, s.bus = a :: rest ∧ (a = .reset ∨
      ∃ w i, a = .write 0x4 w ∧ decodeWord w = .ok i ∧ exec i ((s.taken rest).respond .ok) = .next t) := by
  rcases step_next h with rfl | ⟨a, rest, hbus, hcase⟩
  · exact .inl (.refl _)
  rcases hcase with ⟨r, rfl⟩ | ⟨ha, -⟩ | ⟨x, v, l, u, -, -, hu, rfl⟩ | ⟨w, i, hcmd⟩ | ⟨w, rfl⟩
  · exact .inl (.refl _)
  · exact .inr ⟨a, rest, hbus, .inl ha⟩
  · have hstore := writeLoc_sameTables hu
    exact .inl (hstore.trans (.refl _))
  · exact .inr ⟨a, rest, hbus, .inr ⟨w, i, hcmd⟩⟩
  · exact .inl (.refl _)

/-- Settles O44: a step that is no reset changes the tables as its command does. -/
theorem treeAndCodesHaveOneWriter : Obligations.TreeAndCodesHaveOneWriter := by
  intro s t h
  rcases step_tables h with ⟨⟨hnode, hroot⟩, hcode⟩ | ⟨a, rest, hbus, hreset | ⟨w, i, ha, hi, hx⟩⟩
  · exact ⟨fun hne => hne.elim (absurd hnode) (absurd hroot), fun hne => absurd hcode hne⟩
  · exact ⟨fun _ => ⟨a, rest, hbus, .inl hreset⟩, fun _ => ⟨a, rest, hbus, .inl hreset⟩⟩
  · obtain ⟨htree, hcode⟩ := exec_tables hx
    refine ⟨fun hne => ⟨a, rest, hbus, .inr ⟨w, ha, ?_⟩⟩, fun hne => ⟨a, rest, hbus, .inr ⟨w, ha, ?_⟩⟩⟩
    · rcases htree with ⟨hnode, hroot⟩ | rfl | rfl | rfl
      · exact hne.elim (absurd hnode) (absurd hroot)
      all_goals simp [hi]
    · rcases hcode with hcode | rfl | rfl | rfl
      · exact absurd hcode hne
      all_goals simp [hi]

/-! ## What the host reads of the registers and after reset -/

/-- A register is read at its own address, whatever the parameters (R61, R67). -/
theorem busRead_reg (s : State) (r : Reg) : busRead s (Loc.reg r).addr = .ok (readReg s r) :=
  busRead_of (locate_reg s.cfg r)

/-- Settles O52: each register by `busRead_reg`; PAD and ROOT are narrower than the bus word. -/
theorem registerReads : Obligations.RegisterReads := fun s =>
  ⟨busRead_reg s .id, busRead_reg s .cmd, busRead_reg s .einfo, busRead_reg s .tlen, busRead_reg s .clen,
    busRead_reg s .blen, (busRead_reg s .pad).trans (congrArg _ (BitVec.ofNat_toNat ..).symm), busRead_reg s .nnodes,
    (busRead_reg s .root).trans (congrArg _ (BitVec.ofNat_toNat ..).symm), busRead_reg s .tcap, busRead_reg s .ccap⟩

/-! ### STATUS (R25, R251) -/

/-- A bit of a word is read off the word's number. -/
theorem getLsbD_of_div_mod {w k : Nat} {x : BitVec w} {b : Bool} (h : x.toNat / 2 ^ k % 2 = b.toNat) :
    x.getLsbD k = b := by
  rw [← BitVec.testBit_toNat, Nat.testBit_eq_decide_div_mod_eq, h]
  cases b <;> rfl

/-- STATUS as one number: LASTOP in 15:8, BVALID in 5, ESTICKY in 4, ERR in 3:0 (R25). -/
theorem statusWord_toNat (s : State) : s.statusWord.toNat =
    256 * s.lastop.toNat + 32 * s.bvalid.toNat + 16 * s.esticky.toNat + s.err.code.toNat := by
  simp only [State.statusWord, toNat_append_add, BitVec.toNat_ofBool, BitVec.toNat_ofNat]
  omega

theorem statusWord_resetWith (c : Config) : (State.resetWith c).statusWord = 0 :=
  BitVec.eq_of_toNat_eq (statusWord_toNat _)

/-- Settles O53: the fields are read off `statusWord_toNat`. -/
theorem statusLayout : Obligations.StatusLayout := by
  intro s
  have hword := statusWord_toNat s
  have herr := s.err.code.isLt
  have hlast := s.lastop.isLt
  have hsticky := s.esticky.toNat_lt
  have hbv := s.bvalid.toNat_lt
  refine ⟨s.statusWord, busRead_reg s .status, ?_, ?_, ?_, by omega, by omega, by omega⟩
  · have hcode : s.statusWord.toNat % 16 = s.err.code.toNat := by omega
    rw [hcode]
    cases s.err <;> rfl
  · exact getLsbD_of_div_mod (by omega)
  · exact getLsbD_of_div_mod (by omega)

/-! ### Reset (R40) -/

/-- After reset a location is read as what the reset state holds there. -/
theorem busRead_resetWith {c : Config} {a : Addr} {l : Loc} (h : locate c a = .ok l) :
    busRead (State.resetWith c) a = readLoc (State.resetWith c) l :=
  busRead_of (s := State.resetWith c) h

/-- No entry of NODE, TEXT or CONT is valid after reset (R40). -/
theorem readLoc_resetWith_invalid (c : Config) {l : Loc}
    (h : l.isText = true ∨ l.isCont = true ∨ ∃ i f, l = .node i f) :
    readLoc (State.resetWith c) l = .error .outOfRange := by
  cases l with
  | text i => rfl
  | cont i => rfl
  | node i f => rfl
  | reg | freq | codeLen | codeBits => simp [Loc.isText, Loc.isCont] at h

/-- The entries of FREQ and CODE read 0 after reset (R40). -/
theorem readLoc_resetWith_zero (c : Config) {l : Loc}
    (h : (∃ y, l = .freq y) ∨ (∃ y, l = .codeLen y) ∨ ∃ y w, l = .codeBits y w) :
    readLoc (State.resetWith c) l = .ok 0 := by
  rcases h with ⟨y, rfl⟩ | ⟨y, rfl⟩ | ⟨y, w, rfl⟩ <;> simp [readLoc]

/-- Settles O48: the registers by `busRead_reg`, the windows by what `readLoc` gives in the reset state. -/
theorem resetValues : Obligations.ResetValues := by
  intro c _ s
  refine ⟨busRead_reg s .id, busRead_reg s .cmd, (busRead_reg s .status).trans (congrArg _ (statusWord_resetWith c)),
    busRead_reg s .einfo, busRead_reg s .tlen, busRead_reg s .clen, busRead_reg s .blen, busRead_reg s .pad,
    busRead_reg s .nnodes, busRead_reg s .root, busRead_reg s .tcap, busRead_reg s .ccap, fun a l hl => ?_⟩
  exact ⟨fun h => (busRead_resetWith hl).trans (readLoc_resetWith_invalid c h),
    fun h => (busRead_resetWith hl).trans (readLoc_resetWith_zero c h)⟩

end Sys2Proof.Machine

namespace Sys2Proof.Machine

/-! ## The windows of the bus

What a read of each window returns and what one write does, through the address map (spec/20_memory.md R61 to R75). -/

/-- Settles O50: `locate_some` and `locate_addr` are the two directions. -/
theorem addressMap : Obligations.AddressMap := by
  intro c a l hc
  constructor
  · intro h
    obtain ⟨-, hvalid, hoff⟩ := locate_some h
    exact ⟨hvalid, by rw [l.addr_eq, hoff, BitVec.ofNat_toNat, BitVec.setWidth_eq]⟩
  · rintro ⟨hvalid, rfl⟩
    exact locate_addr hc hvalid

/-! ### One write -/

/-- A store that the location accepts takes effect and is answered with ok (R62). -/
theorem step_store_ok {s u : State} {a : Addr} {v : Word} {rest : List HostAction} {l : Loc}
    (hbus : s.bus = .write a v :: rest) (hl : locate s.cfg a = .ok l) (hcmd : l ≠ .reg .cmd)
    (hw : writeLoc (s.taken rest) v l = .ok u) : step s = .next (u.respond .ok) := by
  rw [step_store hbus hl hcmd, storeTransaction_ok hw]

/-- A store that the location refuses only answers buserror (R62). -/
theorem step_store_error {s : State} {a : Addr} {v : Word} {rest : List HostAction} {l : Loc} {e : BusError}
    (hbus : s.bus = .write a v :: rest) (hl : locate s.cfg a = .ok l) (hcmd : l ≠ .reg .cmd)
    (hw : writeLoc (s.taken rest) v l = .error e) : step s = .next ((s.taken rest).respond .buserror) := by
  rw [step_store hbus hl hcmd, storeTransaction_error hw]

/-! ### Buffers (R68, R72, R73) -/

theorem bufferRead_valid {buf : List Byte} {i : Nat} {b : Byte} (h : buf[i]? = some b) :
    bufferRead buf i = .ok (b.setWidth 32) := by
  rw [bufferRead, h]

theorem bufferRead_outOfRange {buf : List Byte} {i : Nat} (h : buf.length ≤ i) :
    bufferRead buf i = .error .outOfRange := by
  rw [bufferRead, List.getElem?_eq_none h]

theorem bufferWrite_modify {buf : List Byte} {i : Nat} (b : Byte) (h : i < buf.length) :
    bufferWrite buf i b = .ok (buf.take i ++ b :: buf.drop (i + 1)) := by
  rw [bufferWrite, if_pos h, List.set_eq_take_append_cons_drop, if_pos h]

theorem bufferWrite_append {buf : List Byte} {i : Nat} (b : Byte) (h : i = buf.length) :
    bufferWrite buf i b = .ok (buf ++ [b]) := by
  rw [bufferWrite, if_neg h.not_lt, if_pos h]

theorem bufferWrite_outOfRange {buf : List Byte} {i : Nat} (b : Byte) (h : buf.length < i) :
    bufferWrite buf i b = .error .outOfRange := by
  rw [bufferWrite, if_neg h.le.not_gt, if_neg h.ne']

theorem lengthWrite_truncate {buf : List Byte} {v : Word} (h : v.toNat ≤ buf.length) :
    lengthWrite buf v = .ok (buf.take v.toNat) := if_pos h

theorem lengthWrite_tooLarge {buf : List Byte} {v : Word} (h : buf.length < v.toNat) :
    lengthWrite buf v = .error .lengthTooLarge := if_neg h.not_ge

/-- Settles O54: TEXT[i] is read and written as position i of the text. -/
theorem textWindow : Obligations.TextWindow := by
  intro s i rest hc hi a
  have hl : locate s.cfg a = .ok (.text i) := locate_addr (l := .text i) hc (decide_eq_true hi)
  refine ⟨fun b hb => (busRead_of hl).trans (bufferRead_valid hb),
    fun hlen => (busRead_of hl).trans (bufferRead_outOfRange hlen), fun v hbus => ⟨fun h => ?_, fun h => ?_, fun h => ?_⟩⟩
  · exact step_store_ok hbus hl nofun (congrArg (s.taken rest).withText (bufferWrite_modify _ h))
  · exact step_store_ok hbus hl nofun (congrArg (s.taken rest).withText (bufferWrite_append _ h))
  · exact step_store_error hbus hl nofun (congrArg (s.taken rest).withText (bufferWrite_outOfRange _ h))

/-- Settles O55: CONT[i] is read and written as position i of the container, and `withCont` clears BVALID. -/
theorem contWindow : Obligations.ContWindow := by
  intro s i rest hc hi a
  have hl : locate s.cfg a = .ok (.cont i) := locate_addr (l := .cont i) hc (decide_eq_true hi)
  refine ⟨fun b hb => (busRead_of hl).trans (bufferRead_valid hb),
    fun hlen => (busRead_of hl).trans (bufferRead_outOfRange hlen), fun v hbus => ⟨fun h => ?_, fun h => ?_, fun h => ?_⟩⟩
  · exact step_store_ok hbus hl nofun (congrArg (s.taken rest).withCont (bufferWrite_modify _ h))
  · exact step_store_ok hbus hl nofun (congrArg (s.taken rest).withCont (bufferWrite_append _ h))
  · exact step_store_error hbus hl nofun (congrArg (s.taken rest).withCont (bufferWrite_outOfRange _ h))

/-- Settles O56: TLEN and CLEN are written by `lengthWrite`. -/
theorem lengthRegisters : Obligations.LengthRegisters := by
  intro s v rest
  have htlen := locate_reg s.cfg .tlen
  have hclen := locate_reg s.cfg .clen
  refine ⟨fun hbus => ⟨fun h => ?_, fun h => ?_⟩, fun hbus => ⟨fun h => ?_, fun h => ?_⟩⟩
  · exact step_store_ok hbus htlen nofun (congrArg (s.taken rest).withText (lengthWrite_truncate h))
  · exact step_store_error hbus htlen nofun (congrArg (s.taken rest).withText (lengthWrite_tooLarge h))
  · exact step_store_ok hbus hclen nofun (congrArg (s.taken rest).withCont (lengthWrite_truncate h))
  · exact step_store_error hbus hclen nofun (congrArg (s.taken rest).withCont (lengthWrite_tooLarge h))

/-! ### FREQ, CODE and NODE (R69 to R71) -/

/-- Settles O57: the write is `Table.put`, which sets one entry. -/
theorem freqWindow : Obligations.FreqWindow := by
  intro s y a
  have hl : locate s.cfg a = .ok (.freq y) := locate_freq s.cfg y
  refine ⟨busRead_of hl, fun v rest hbus => ⟨s.freq.put y v, step_store_ok hbus hl nofun rfl, ?_, fun z hz => ?_⟩⟩
  · exact Table.entry_put_self ..
  · exact Table.entry_put_ne _ _ hz

/-- Word `w` of CODE[y].BITS is read at its address (R61). -/
theorem busRead_codeBits (s : State) (y : Byte) {w : Nat} (hw : w < 8) :
    busRead s (BitVec.ofNat 26 (0x1000 + 0x40 * y.toNat + 0x20 + 4 * w)) = .ok (codeWord (s.code.entry y) w) := by
  have e : (BitVec.ofNat 3 w).toNat = w := Nat.mod_eq_of_lt hw
  have h := busRead_of (locate_codeBits s.cfg y (BitVec.ofNat 3 w))
  rwa [Loc.addr, readLoc, e] at h

/-- Word `f` of NODE[i] is read at its address, where the node is valid (R61, R71). -/
theorem busRead_node (s : State) {i f : Nat} (hi : i < 511) (hf : f < 4) :
    busRead s (BitVec.ofNat 26 (0x8000 + 0x10 * i + 4 * f)) =
      (s.node[i]?.elim (.error .outOfRange) fun n => .ok (nodeWord n (BitVec.ofNat 2 f))) := by
  have ei : (BitVec.ofNat 9 i).toNat = i := Nat.mod_eq_of_lt (by omega)
  have ef : (BitVec.ofNat 2 f).toNat = f := Nat.mod_eq_of_lt hf
  have h := busRead_of (locate_node s.cfg (BitVec.ofNat 2 f) (ei.symm ▸ hi))
  rw [Loc.addr, ei, ef, readLoc, nodeAt, ei] at h
  rw [h]
  cases s.node[i]? <;> rfl

theorem busRead_node_valid (s : State) {i f : Nat} {n : Node} (hi : i < 511) (hf : f < 4) (hn : s.node[i]? = some n) :
    busRead s (BitVec.ofNat 26 (0x8000 + 0x10 * i + 4 * f)) = .ok (nodeWord n (BitVec.ofNat 2 f)) := by
  rw [busRead_node s hi hf, hn, Option.elim_some]

/-- Words 1 and 2 of a node hold the low 32 and the high 8 bits of its frequency (R71). -/
theorem nodeWord_freq (n : Node) : (nodeWord n 1).toNat + 4294967296 * (nodeWord n 2).toNat = n.freq.toNat := by
  have hf := n.freq.isLt
  have h1 : (nodeWord n 1).toNat = n.freq.toNat >>> 0 % 4294967296 := BitVec.extractLsb'_toNat ..
  have h2 : (nodeWord n 2).toNat = n.freq.toNat >>> 32 % 256 := by
    rw [show nodeWord n 2 = 0#24 ++ n.freq.extractLsb' 32 8 from rfl, toNat_append_add, BitVec.extractLsb'_toNat]
    simp
  rw [h1, h2, Nat.shiftRight_eq_div_pow, Nat.shiftRight_eq_div_pow]
  omega

/-- Word 0 of a leaf holds its symbol (R71). -/
theorem nodeWord_leaf_zero (y : Byte) (f : NodeFreq) : (nodeWord (.leaf y f) 0).toNat = y.toNat := by
  rw [show nodeWord (.leaf y f) 0 = 0#23 ++ BitVec.ofBool false ++ y from rfl, toNat_append_add]
  simp

/-- Word 0 of an internal node holds its kind alone (R71). -/
theorem nodeWord_internal_zero (f : NodeFreq) (l r : NodeIdx) : nodeWord (.internal f l r) 0 = 0x100 := by
  show 0#23 ++ BitVec.ofBool true ++ (0 : Byte) = 0x100
  decide

/-- A leaf has no children, so word 3 holds 0 (R71). -/
theorem nodeWord_leaf_three (y : Byte) (f : NodeFreq) : nodeWord (.leaf y f) 3 = 0 := by
  show 0#7 ++ (0 : NodeIdx) ++ 0#7 ++ (0 : NodeIdx) = 0
  decide

/-- Word 3 of an internal node holds LEFT in its low half and RIGHT in its high half (R71). -/
theorem nodeWord_internal_three (f : NodeFreq) (l r : NodeIdx) :
    (nodeWord (.internal f l r) 3).toNat = l.toNat + 65536 * r.toNat := by
  rw [show nodeWord (.internal f l r) 3 = 0#7 ++ r ++ 0#7 ++ l from rfl]
  simp only [toNat_append_add, BitVec.toNat_ofNat]
  omega

/-- Settles O58: the words of an entry are `codeWord` and `nodeWord`. -/
theorem codeAndNodeWindows : Obligations.CodeAndNodeWindows := by
  refine ⟨fun s y hlen => ⟨?_, fun w hw => ?_⟩, fun s i hi => ⟨fun n hn => ?_, fun hlen f hf => ?_⟩⟩
  · refine (busRead_of (locate_codeLen s.cfg y)).trans (congrArg Except.ok (BitVec.eq_of_toNat_eq ?_))
    simp only [BitVec.toNat_setWidth, BitVec.toNat_ofNat]
    omega
  · exact ⟨_, busRead_codeBits s y hw, fun b hb => codeWord_getLsbD _ _ hb⟩
  · refine ⟨nodeWord n 0, nodeWord n 1, nodeWord n 2, nodeWord n 3, busRead_node_valid s hi (f := 0) (by decide) hn,
      busRead_node_valid s hi (f := 1) (by decide) hn, busRead_node_valid s hi (f := 2) (by decide) hn,
      busRead_node_valid s hi (f := 3) (by decide) hn, nodeWord_freq n, ?_, ?_⟩
    · rintro y f rfl
      exact ⟨nodeWord_leaf_zero y f, nodeWord_leaf_three y f⟩
    · rintro f l r rfl
      exact ⟨nodeWord_internal_zero f l r, nodeWord_internal_three f l r⟩
  · rw [busRead_node s hi hf, List.getElem?_eq_none hlen, Option.elim_none]

/-! ### Bytes and their bits (R80, R82) -/

/-- Eight bits are worth less than 256, so the byte holds their value (R80). -/
theorem byteOfBits_toNat (b0 b1 b2 b3 b4 b5 b6 b7 : Bool) : (byteOfBits b0 b1 b2 b3 b4 b5 b6 b7).toNat =
    b0.toNat * 128 + b1.toNat * 64 + b2.toNat * 32 + b3.toNat * 16 + b4.toNat * 8 + b5.toNat * 4 + b6.toNat * 2 +
      b7.toNat := by
  have := b0.toNat_lt
  have := b1.toNat_lt
  have := b2.toNat_lt
  have := b3.toNat_lt
  have := b4.toNat_lt
  have := b5.toNat_lt
  have := b6.toNat_lt
  have := b7.toNat_lt
  rw [byteOfBits, BitVec.toNat_ofNat]
  omega

/-- Settles O60: a byte is worth its bits, and the bits of bytes are indexed by `bitsOfBytes_getElem?`. -/
theorem containerBitOrder : Obligations.ContainerBitOrder := by
  refine ⟨fun b0 b1 b2 b3 b4 b5 b6 b7 => ⟨bitsOfBytes_bytesOfBits _ (by simp), ?_⟩, fun bs t b hb => ?_, fun s j hj => ?_⟩
  · exact congrArg (fun n => [n]) (byteOfBits_toNat b0 b1 b2 b3 b4 b5 b6 b7)
  · rw [bitsOfBytes_getElem?, hb, Option.map_some]
  · rw [encodedBits, List.getElem?_take_of_lt hj, List.getElem?_drop]

/-! ## Every step completes (R62, R310)

A command touches neither the parameters nor what the host sees of its own transactions. -/

/-- The parameters, the actions to come and the last response of `t` are those of `s`. -/
def SameHostSide (s t : State) : Prop := t.cfg = s.cfg ∧ t.bus = s.bus ∧ t.resp = s.resp

theorem SameHostSide.refl (s : State) : SameHostSide s s := ⟨rfl, rfl, rfl⟩

theorem SameHostSide.trans {s t u : State} (h : SameHostSide s t) (h' : SameHostSide t u) : SameHostSide s u := by
  obtain ⟨hcfg, hbus, hresp⟩ := h
  obtain ⟨hcfg', hbus', hresp'⟩ := h'
  exact ⟨hcfg'.trans hcfg, hbus'.trans hbus, hresp'.trans hresp⟩

/-- The end of a command keeps the host's side when what its rule wrote does. -/
theorem finish_sameHostSide {op : Byte} {s t : State} {r : Except Failure State} (h : finish op s r = .next t)
    (hr : ∀ {u}, r = .ok u → SameHostSide s u) : SameHostSide s t := by
  rcases finish_next h with ⟨u, hu, rfl⟩ | ⟨f, -, rfl⟩
  · exact (hr hu).trans (.refl _)
  · exact .refl _

theorem packState_sameHostSide {s t : State} (h : packState s = .ok t) : SameHostSide s t := by
  obtain ⟨-, rfl⟩ := packState_ok h
  exact .refl _

theorem unpackState_sameHostSide {s t : State} (h : unpackState s = .ok t) : SameHostSide s t := by
  obtain ⟨_, _, -, -, rfl⟩ := unpackState_ok h
  exact .refl _

theorem decodeState_sameHostSide {m : Mode} {s t : State} (h : decodeState m s = .ok t) : SameHostSide s t := by
  obtain ⟨_, rfl⟩ := decodeState_ok h
  exact .refl _

theorem writeLoc_sameHostSide {s t : State} {v : Word} {l : Loc} (h : writeLoc s v l = .ok t) : SameHostSide s t := by
  rcases writeLoc_ok h with ⟨-, rfl⟩ | ⟨_, -, rfl⟩ | ⟨_, -, rfl⟩ | ⟨_, -, rfl⟩ <;> exact .refl _

/-- Every command keeps the host's side. -/
theorem exec_sameHostSide {i : Instr} {s t : State} (h : exec i s = .next t) : SameHostSide s t := by
  cases i with
  | nop | clr | count | build | gen => cases h; exact .refl _
  | pack => exact finish_sameHostSide h packState_sameHostSide
  | compress => exact finish_sameHostSide (s := tablesState s) h packState_sameHostSide
  | unpack => exact finish_sameHostSide h unpackState_sameHostSide
  | decode m => exact finish_sameHostSide h decodeState_sameHostSide
  | decompress m =>
    rcases exec_decompress_next h with ⟨f, -, rfl⟩ | ⟨u, hu, hfin⟩
    · exact .refl _
    · exact (unpackState_sameHostSide hu).trans (finish_sameHostSide hfin decodeState_sameHostSide)

/-- A command word, legal or not, is served completely, and the host's side is kept (R130, R132). -/
theorem issue_keeps_hostSide (w : Word) (s : State) : ∃ t, issue w s = .next t ∧ SameHostSide s t := by
  unfold issue
  split
  · next i _ =>
    obtain ⟨t, ht⟩ := exec_total i s
    exact ⟨t, ht, exec_sameHostSide ht⟩
  · exact ⟨_, rfl, .refl _⟩

/-- A write is answered with ok or buserror, and the parameters and the later actions stand (R62). -/
theorem step_write_answers {s : State} {a : Addr} {v : Word} {rest : List HostAction}
    (hbus : s.bus = .write a v :: rest) :
    ∃ t, step s = .next t ∧ t.cfg = s.cfg ∧ t.bus = rest ∧ (t.resp = some .ok ∨ t.resp = some .buserror) := by
  cases hl : locate s.cfg a with
  | error e => exact ⟨_, step_unmapped hbus hl, rfl, rfl, .inr rfl⟩
  | ok l =>
    by_cases hcmd : l = .reg .cmd
    · subst hcmd
      have hstep : step s = issue v ((s.taken rest).respond .ok) := by
        obtain ⟨-, -, hoff⟩ := locate_some hl
        obtain rfl : a = 0x4 := BitVec.eq_of_toNat_eq hoff.symm
        exact step_cmd hbus
      obtain ⟨t, ht, hcfg, htail, hresp⟩ := issue_keeps_hostSide v ((s.taken rest).respond .ok)
      exact ⟨t, hstep.trans ht, hcfg, htail, .inl hresp⟩
    · have hstep := step_store hbus hl hcmd
      rcases storeTransaction_cases l v (s.taken rest) with ⟨u, hu, hr⟩ | hr
      · obtain ⟨hcfg, htail, -⟩ := writeLoc_sameHostSide hu
        exact ⟨_, hstep.trans (congrArg _ hr), hcfg, htail, .inl rfl⟩
      · exact ⟨_, hstep.trans (congrArg _ hr), rfl, rfl, .inr rfl⟩

/-- Settles O45: by the host's oldest action, if there is one. -/
theorem stepAlwaysCompletes : Obligations.StepAlwaysCompletes := by
  intro s
  cases hbus : s.bus with
  | nil => exact ⟨s, step_idle hbus, rfl, fun _ => rfl, nofun, nofun⟩
  | cons a rest =>
    cases a with
    | reset => exact ⟨_, step_reset hbus, rfl, nofun, nofun, nofun⟩
    | read x =>
      obtain ⟨r, hr, hkind⟩ := readTransaction_cases x (s.taken rest)
      refine ⟨_, (step_read hbus).trans (congrArg _ hr), rfl, nofun, ?_, nofun⟩
      rintro _ _ ⟨⟩
      exact ⟨rfl, hkind.imp (fun ⟨d, hd⟩ => ⟨d, congrArg some hd⟩) (congrArg some)⟩
    | write x v =>
      obtain ⟨t, ht, hcfg, hanswer⟩ := step_write_answers hbus
      refine ⟨t, ht, hcfg, nofun, nofun, ?_⟩
      rintro _ _ _ ⟨⟩
      exact hanswer

/-! ## What a store leaves unread (R74)

One lemma per update of the state says which reads it keeps; then one per kind of stored location. -/

/-- The later actions and the response are read at no location. -/
theorem readLoc_host (s : State) (b : List HostAction) (r : Option Response) (k : Loc) :
    readLoc { s with bus := b, resp := r } k = readLoc s k := by
  cases k with
  | reg r => cases r <;> rfl
  | freq | codeLen | codeBits | node | text | cont => rfl

/-- A new text is read at TLEN and in the TEXT window only. -/
theorem readLoc_text (s : State) {text : List Byte} {k : Loc} (hlen : k ≠ .reg .tlen)
    (hpos : ∀ i, k = .text i → text[i]? = s.text[i]?) : readLoc { s with text := text } k = readLoc s k := by
  cases k with
  | reg r => cases r with
    | tlen => exact absurd rfl hlen
    | _ => rfl
  | text i => rw [readLoc, readLoc, bufferRead, bufferRead, hpos i rfl]
  | freq | codeLen | codeBits | node | cont => rfl

/-- A new container is read at CLEN, in the CONT window and, by its BVALID, at STATUS only. -/
theorem readLoc_contChanged (s : State) {cont : List Byte} {k : Loc} (hlen : k ≠ .reg .clen) (hstatus : k ≠ .reg .status)
    (hpos : ∀ i, k = .cont i → cont[i]? = s.cont[i]?) : readLoc (s.contChanged cont) k = readLoc s k := by
  cases k with
  | reg r => cases r with
    | clen => exact absurd rfl hlen
    | status => exact absurd rfl hstatus
    | _ => rfl
  | cont i => rw [readLoc, readLoc, bufferRead, bufferRead, State.contChanged_cont, hpos i rfl]
  | freq | codeLen | codeBits | node | text => rfl

/-- A new entry of FREQ is read at its own location only. -/
theorem readLoc_freq (s : State) {y : Byte} (v : Word) {k : Loc} (hk : k ≠ .freq y) :
    readLoc { s with freq := s.freq.put y v } k = readLoc s k := by
  cases k with
  | reg r => cases r <;> rfl
  | freq z =>
    have hz : z ≠ y := fun e => hk (congrArg Loc.freq e)
    exact congrArg Except.ok (s.freq.entry_put_ne v hz)
  | codeLen | codeBits | node | text | cont => rfl

/-- A write to a buffer keeps every other position. -/
theorem bufferWrite_getElem?_ne {buf new : List Byte} {i j : Nat} {b : Byte} (h : bufferWrite buf i b = .ok new) (hj : j ≠ i) :
    new[j]? = buf[j]? := by
  rcases bufferWrite_cases buf i b with ⟨-, he⟩ | ⟨hi, he⟩ | ⟨-, he⟩ <;> cases h.symm.trans he
  · exact List.getElem?_set_ne hj.symm
  · subst hi
    rcases Nat.lt_or_gt_of_ne hj with hlt | hgt
    · exact List.getElem?_append_left hlt
    · rw [List.getElem?_eq_none (by simpa using hgt), List.getElem?_eq_none hgt.le]

/-- A shorter length keeps every position below it. -/
theorem lengthWrite_getElem? {buf new : List Byte} {v : Word} {j : Nat} (h : lengthWrite buf v = .ok new) (hj : j < v.toNat) :
    new[j]? = buf[j]? := by
  rcases lengthWrite_cases buf v with ⟨-, he⟩ | ⟨-, he⟩ <;> cases h.symm.trans he
  exact List.getElem?_take_of_lt hj

theorem withText_ok {s u : State} {r : Except BusError (List Byte)} (h : s.withText r = .ok u) :
    ∃ text, r = .ok text ∧ u = { s with text := text } := by
  cases r with
  | ok text => cases h; exact ⟨text, rfl, rfl⟩
  | error e => cases h

theorem withCont_ok {s u : State} {r : Except BusError (List Byte)} (h : s.withCont r = .ok u) :
    ∃ cont, r = .ok cont ∧ u = s.contChanged cont := by
  cases r with
  | ok cont => cases h; exact ⟨cont, rfl, rfl⟩
  | error e => cases h

section Stores

variable {s u : State} {v : Word} {k : Loc}

theorem readLoc_store_text {i : Nat} (h : writeLoc s v (.text i) = .ok u) (hk : k ≠ .text i) (hlen : k ≠ .reg .tlen) :
    readLoc u k = readLoc s k := by
  obtain ⟨text, hw, rfl⟩ := withText_ok h
  exact readLoc_text s hlen fun j hj => bufferWrite_getElem?_ne hw fun e => hk (e ▸ hj)

theorem readLoc_store_cont {i : Nat} (h : writeLoc s v (.cont i) = .ok u) (hk : k ≠ .cont i) (hlen : k ≠ .reg .clen)
    (hstatus : k ≠ .reg .status) : readLoc u k = readLoc s k := by
  obtain ⟨cont, hw, rfl⟩ := withCont_ok h
  exact readLoc_contChanged s hlen hstatus fun j hj => bufferWrite_getElem?_ne hw fun e => hk (e ▸ hj)

theorem readLoc_store_tlen (h : writeLoc s v (.reg .tlen) = .ok u) (hlen : k ≠ .reg .tlen)
    (hpos : ∀ i, k = .text i → i < v.toNat) : readLoc u k = readLoc s k := by
  obtain ⟨text, hw, rfl⟩ := withText_ok h
  exact readLoc_text s hlen fun j hj => lengthWrite_getElem? hw (hpos j hj)

theorem readLoc_store_clen (h : writeLoc s v (.reg .clen) = .ok u) (hlen : k ≠ .reg .clen) (hstatus : k ≠ .reg .status)
    (hpos : ∀ i, k = .cont i → i < v.toNat) : readLoc u k = readLoc s k := by
  obtain ⟨cont, hw, rfl⟩ := withCont_ok h
  exact readLoc_contChanged s hlen hstatus fun j hj => lengthWrite_getElem? hw (hpos j hj)

theorem readLoc_store_freq {y : Byte} (h : writeLoc s v (.freq y) = .ok u) (hk : k ≠ .freq y) :
    readLoc u k = readLoc s k := by
  cases h
  exact readLoc_freq s v hk

/-- A read-only location accepts no store (R66). -/
theorem writeLoc_readOnly {l : Loc} (s : State) (v : Word) (hl : l.readOnly = true) :
    writeLoc s v l = .error .readOnly := by
  cases l with
  | reg r => cases r with
    | cmd | tlen | clen => cases hl
    | _ => rfl
  | codeLen | codeBits | node => rfl
  | freq | text | cont => cases hl

/-- After a store's step a location is read as before, when the store, if it is accepted, keeps it. -/
theorem busRead_step_store {t : State} {a b : Addr} {rest : List HostAction} {l : Loc} (hbus : s.bus = .write a v :: rest)
    (hl : locate s.cfg a = .ok l) (hcmd : l ≠ .reg .cmd) (hk : locate s.cfg b = .ok k) (ht : step s = .next t)
    (hkeep : ∀ u, writeLoc (s.taken rest) v l = .ok u → readLoc u k = readLoc (s.taken rest) k) :
    busRead t b = busRead s b := by
  obtain rfl : t = storeTransaction l v (s.taken rest) :=
    Host.Outcome.next.inj (ht.symm.trans (step_store hbus hl hcmd))
  rw [busRead_of hk]
  rcases storeTransaction_cases l v (s.taken rest) with ⟨u, hu, hr⟩ | hr
  · obtain ⟨hcfg, -, -⟩ := writeLoc_sameHostSide hu
    have hku : locate (u.respond .ok).cfg b = .ok k := (congrArg (locate · b) hcfg).trans hk
    calc busRead (storeTransaction l v (s.taken rest)) b
        = readLoc (u.respond .ok) k := by rw [hr, busRead_of hku]
      _ = readLoc u k := readLoc_host u u.bus _ k
      _ = readLoc (s.taken rest) k := hkeep u hu
      _ = readLoc s k := readLoc_host s rest s.resp k
  · rw [hr]
    exact (busRead_of hk).trans (readLoc_host s rest (some .buserror) k)

end Stores

/-- Two locations at different addresses are different (R61). -/
theorem locate_ne {c : Config} {a b : Addr} {l k : Loc} (ha : locate c a = .ok l) (hb : locate c b = .ok k) (hne : b ≠ a) :
    k ≠ l := by
  rintro rfl
  obtain ⟨-, -, hoff⟩ := locate_some ha
  obtain ⟨-, -, hoff'⟩ := locate_some hb
  exact hne (BitVec.eq_of_toNat_eq (hoff'.symm.trans hoff))

/-- Settles O59: one kind of stored location after the other, each by its lemma. -/
theorem storeLeavesOtherLocations : Obligations.StoreLeavesOtherLocations := by
  intro s t a b v rest l k _ hbus hl hcmd hk hne ht
  have hkl := locate_ne hl hk hne
  have keep := busRead_step_store hbus hl hcmd hk ht
  refine ⟨fun h hlen => keep fun u hu => ?_, fun h hlen hstatus => keep fun u hu => ?_, fun h hpos => keep fun u hu => ?_,
    fun h hstatus hpos => keep fun u hu => ?_, fun h => keep fun u hu => ?_⟩
  · cases l with
    | text i => exact readLoc_store_text hu hkl hlen
    | _ => cases h
  · cases l with
    | cont i => exact readLoc_store_cont hu hkl hlen hstatus
    | _ => cases h
  · subst h
    exact readLoc_store_tlen hu hkl hpos
  · subst h
    exact readLoc_store_clen hu hkl hstatus hpos
  · rcases h with ⟨y, rfl⟩ | h
    · exact readLoc_store_freq hu hkl
    · cases (writeLoc_readOnly _ v h).symm.trans hu

end Sys2Proof.Machine

namespace Sys2Proof

/-! ## Command words

A word decodes to a command exactly when it is the command's own word (spec/30_encoding.md R100 to R103). -/

/-- The fields of every command's word. -/
theorem encodeFields : ∀ i : Instr, Laws.EncodeFields.Statement i
  | .nop => Laws.EncodeFields.nop
  | .clr => Laws.EncodeFields.clr
  | .count => Laws.EncodeFields.count
  | .build => Laws.EncodeFields.build
  | .gen => Laws.EncodeFields.gen
  | .pack => Laws.EncodeFields.pack
  | .unpack => Laws.EncodeFields.unpack
  | .decode m => Laws.EncodeFields.decode m
  | .compress => Laws.EncodeFields.compress
  | .decompress m => Laws.EncodeFields.decompress m

@[simp] theorem opField_encode (i : Instr) : opField (encode i) = i.opcode := (encodeFields i).1

@[simp] theorem zeroField_encode (i : Instr) : zeroField (encode i) = 0 := (encodeFields i).2.1

theorem modeBit_eq_true (i : Instr) : i.modeBit = true ↔ i = .decode .tree ∨ i = .decompress .tree := by
  cases i with
  | decode m | decompress m => cases m <;> decide
  | _ => decide

@[simp] theorem modeField_encode (i : Instr) : modeField (encode i) = i.modeBit :=
  Bool.eq_iff_iff.mpr ((encodeFields i).2.2.trans (modeBit_eq_true i).symm)

@[simp] theorem Mode.bit_ofBit (b : Bool) : (Mode.ofBit b).bit = b := by cases b <;> rfl

theorem withoutMode_eq_ok {mode : Bool} {i j : Instr} : withoutMode mode i = .ok j ↔ mode = false ∧ i = j := by
  cases mode <;> simp [withoutMode]

/-- The opcode map reads a command back from its opcode and its MODE bit (R101, R102). -/
theorem decodeOp_opcode (i : Instr) : decodeOp i.opcode.toNat i.modeBit = .ok i := by
  cases i with
  | decode m | decompress m => cases m <;> rfl
  | _ => rfl

/-- Only a command's own opcode and MODE bit are mapped to it: a command without MODE is refused with MODE = 1 (R101,
R103). -/
theorem decodeOp_eq_ok {op : Nat} {mode : Bool} {i : Instr} (h : decodeOp op mode = .ok i) :
    op = i.opcode.toNat ∧ mode = i.modeBit := by
  unfold decodeOp at h
  split at h
  -- the two commands with MODE
  case h_8 | h_10 =>
    cases h
    exact ⟨rfl, (Mode.bit_ofBit mode).symm⟩
  case h_11 => cases h
  all_goals
    obtain ⟨rfl, rfl⟩ := withoutMode_eq_ok.mp h
    exact ⟨rfl, rfl⟩

/-- A word is its three fields, ZERO, MODE, OP from the top (R100). -/
theorem eq_append_fields (w : Word) : w = zeroField w ++ BitVec.ofBool (modeField w) ++ opField w := by
  unfold zeroField modeField opField
  refine BitVec.eq_of_getLsbD_eq (w := 23 + 1 + 8) fun k hk => ?_
  rw [BitVec.getLsbD_append, BitVec.getLsbD_append]
  obtain hop | rfl | hzero : k < 8 ∨ k = 8 ∨ 8 < k := by omega
  · simp [hop]
  · simp
  · have hk8 : k - 8 ≠ 0 := by omega
    have hback : 9 + (k - 8 - 1) = k := by omega
    have hin : k - 8 - 1 < 23 := by omega
    simp [hzero.le.not_gt, hk8, hback, hin]

theorem decodeWord_encode (i : Instr) : decodeWord (encode i) = .ok i := by
  simp [decodeWord, decodeOp_opcode]

/-- The encoding is the only one: what decodes to a command is the command's word. -/
theorem eq_encode_of_decodeWord {w : Word} {i : Instr} (h : decodeWord w = .ok i) : w = encode i := by
  unfold decodeWord at h
  split at h
  case isTrue hzero =>
    obtain ⟨hop, hmode⟩ := decodeOp_eq_ok h
    calc w = zeroField w ++ BitVec.ofBool (modeField w) ++ opField w := eq_append_fields w
      _ = encode i := by rw [hzero, hmode, BitVec.eq_of_toNat_eq hop]; rfl
  case isFalse => cases h

theorem decodeWord_eq_ok_iff {w : Word} {i : Instr} : decodeWord w = .ok i ↔ w = encode i :=
  ⟨eq_encode_of_decodeWord, fun h => h ▸ decodeWord_encode i⟩

/-- Settles O1: no command needs to be left out, since every one is well formed. -/
theorem decodeOfEncode : Obligations.DecodeOfEncode := fun i _ => decodeWord_encode i

/-- Every command, in each of its modes, in the order of the opcode map (R101). -/
def commands : List Instr :=
  [.nop, .clr, .count, .build, .gen, .pack, .unpack, .decode .table, .decode .tree, .compress, .decompress .table,
    .decompress .tree]

theorem mem_commands (i : Instr) : i ∈ commands := by
  cases i with
  | decode m | decompress m => cases m <;> decide
  | _ => decide

theorem mem_commandWords {w : Word} {i : Instr} : (w, i) ∈ commands.map (fun j => (encode j, j)) ↔ w = encode i := by
  simp [mem_commands, eq_comm]

/-- Settles O2: a word decodes to a command exactly when it is the command's own, and the twelve pairs are the commands with
their own words. -/
theorem legalWordsAreExactlyTwelve : Obligations.LegalWordsAreExactlyTwelve :=
  fun _ _ => decodeWord_eq_ok_iff.trans mem_commandWords.symm

/-- Settles O3: each word is its command's own. -/
theorem sampleCommandWordsDecode : Obligations.SampleCommandWordsDecode :=
  ⟨decodeWord_encode .nop, decodeWord_encode .clr, decodeWord_encode .count, decodeWord_encode .build,
    decodeWord_encode .gen, decodeWord_encode .pack, decodeWord_encode .unpack, decodeWord_encode (.decode .table),
    decodeWord_encode (.decode .tree), decodeWord_encode .compress, decodeWord_encode (.decompress .table),
    decodeWord_encode (.decompress .tree)⟩

end Sys2Proof

namespace Sys2Proof.Machine

/-! ## Command execution

A write to CMD decodes its word and executes it, or records it as illegal (spec/40_command_execution.md R130 to R132). Every
command ends with one status update, made where the last step it tries began (R133 to R135), and none of its steps reads the
status (R136). -/

/-! ### The issue of a command word -/

theorem opField_eq_setWidth (w : Word) : opField w = w.setWidth 8 := by
  simp [opField, BitVec.setWidth_eq_extractLsb']

/-- None of the three reasons of R103 holds of a command's own word. -/
theorem encode_legal (i : Instr) : (encode i).toNat % 256 ≤ 9 ∧ (encode i).toNat / 512 = 0 ∧
    ((encode i).toNat / 256 % 2 = 1 → (encode i).toNat % 256 = 7 ∨ (encode i).toNat % 256 = 9) := by
  cases i with
  | decode m | decompress m => cases m <;> decide
  | _ => decide

theorem issue_of_decodeWord_ok {w : Word} {i : Instr} (h : decodeWord w = .ok i) (s : State) : issue w s = exec i s := by
  rw [issue, h]

theorem issue_of_decodeWord_error {w : Word} {e : Illegal} (h : decodeWord w = .error e) (s : State) :
    issue w s = .next (s.illegal w) := by
  rw [issue, h]

/-- Settles O6: a word that decodes is a command's own, of which no reason of R103 holds. -/
theorem illegalWordIsRecorded : Obligations.IllegalWordIsRecorded := by
  intro s w rest hbus hw
  cases hdec : decodeWord w with
  | ok i =>
    obtain rfl := eq_encode_of_decodeWord hdec
    obtain ⟨hop, hzero, hmode⟩ := encode_legal i
    omega
  | error e =>
    rw [step_cmd hbus, issue_of_decodeWord_error hdec, ← opField_eq_setWidth]
    rfl

/-- Settles O4: the write issues its word, and a command keeps the host's side, the response ok among it. -/
theorem stepRunsDecodedCommand : Obligations.StepRunsDecodedCommand := by
  intro s w rest i hbus hdec
  have hstep : step s = exec i { s with bus := rest, resp := some .ok } :=
    (step_cmd hbus).trans (issue_of_decodeWord_ok hdec _)
  obtain ⟨t, ht⟩ := exec_total i { s with bus := rest, resp := some .ok }
  obtain ⟨-, htail, hresp⟩ := exec_sameHostSide ht
  exact ⟨hstep, t, hstep.trans ht, hresp, htail⟩

theorem decodeWord_of_decodeTableWord {n w : Nat} {i : Instr} (h : decodeTableWord n w = some i) :
    decodeWord (BitVec.ofNat 32 (w % 2 ^ n)) = .ok i := by
  unfold decodeTableWord at h
  dsimp only at h
  split at h
  · split at h
    · next hdec => exact hdec.trans (congrArg _ (Option.some.inj h))
    · cases h
  · cases h

/-- Settles O5: the word stands first in the queue, as a write to CMD. -/
theorem fetchWordIsNextCommand : Obligations.FetchWordIsNextCommand := by
  intro s w i h
  obtain ⟨hstep, -⟩ :=
    stepRunsDecodedCommand (s.withFetchWord 32 w) _ s.bus i rfl (decodeWord_of_decodeTableWord h)
  exact hstep

/-! ### The last step of a command -/

/-- The state in which a command tries its last step: a composite has then kept what its earlier steps wrote (R235, R236). -/
def lastStepStart : Instr → State → State
  | .compress, s => tablesState s
  | .decompress _, s =>
    match unpackState s with
    | .ok u => u
    | .error _ => s
  | _, s => s

/-- What the last step that a command tries writes, or its failure. -/
def lastStepResult : Instr → State → Except Failure State
  | .nop, s => .ok s
  | .clr, s => .ok (clrState s)
  | .count, s => .ok (countState s)
  | .build, s => .ok (buildState s)
  | .gen, s => .ok (genState s)
  | .pack, s => packState s
  | .unpack, s => unpackState s
  | .decode m, s => decodeState m s
  | .compress, s => packState (tablesState s)
  | .decompress m, s =>
    match unpackState s with
    | .ok u => decodeState m u
    | .error f => .error f

theorem lastStepStart_decompress_ok {m : Mode} {s u : State} (h : unpackState s = .ok u) :
    lastStepStart (.decompress m) s = u := by
  rw [lastStepStart, h]

theorem lastStepStart_decompress_error {m : Mode} {s : State} {f : Failure} (h : unpackState s = .error f) :
    lastStepStart (.decompress m) s = s := by
  rw [lastStepStart, h]

theorem lastStepResult_decompress_ok {m : Mode} {s u : State} (h : unpackState s = .ok u) :
    lastStepResult (.decompress m) s = decodeState m u := by
  rw [lastStepResult, h]

theorem lastStepResult_decompress_error {m : Mode} {s : State} {f : Failure} (h : unpackState s = .error f) :
    lastStepResult (.decompress m) s = .error f := by
  rw [lastStepResult, h]

/-- Every command is its last step and one status update (R133, R134). -/
theorem exec_eq_finish (i : Instr) (s : State) : exec i s = finish i.opcode (lastStepStart i s) (lastStepResult i s) := by
  cases i with
  | decompress m =>
    rcases execDecompress_cases m s with ⟨f, hf, he⟩ | ⟨u, hu, he⟩
    · rw [lastStepStart_decompress_error hf, lastStepResult_decompress_error hf]
      exact he
    · rw [lastStepStart_decompress_ok hu, lastStepResult_decompress_ok hu]
      exact he
  | _ => rfl

theorem lastStepResult_error_ne_none {i : Instr} {s : State} {f : Failure} (h : lastStepResult i s = .error f) :
    f.err ≠ .none := by
  cases i with
  | nop | clr | count | build | gen => cases h
  | pack | compress => exact packState_error_ne_none h
  | unpack => exact unpackState_error_ne_none h
  | decode m => exact decodeState_error_ne_none h
  | decompress m =>
    cases hu : unpackState s with
    | ok u => exact decodeState_error_ne_none ((lastStepResult_decompress_ok hu).symm.trans h)
    | error g =>
      obtain rfl : g = f := Except.error.inj ((lastStepResult_decompress_error hu).symm.trans h)
      exact unpackState_error_ne_none hu

/-- A command that fails has only recorded the failure, where its last step began (R134, R135). -/
theorem exec_failed {i : Instr} {s t : State} (h : exec i s = .next t) (ht : t.err ≠ .none) :
    ∃ f, t = (lastStepStart i s).fail i.opcode f := by
  rw [exec_eq_finish] at h
  rcases finish_next h with ⟨u, -, rfl⟩ | ⟨f, -, rfl⟩
  · exact absurd rfl ht
  · exact ⟨f, rfl⟩

/-! ### The failure of a command (R135) -/

/-- UNPACK, on its own, leaves BLEN, PAD and BVALID as they are when DECOMPRESS begins its last step, and that step begins
with all other data as it was. -/
theorem lastStepStart_decompress (m : Mode) (s : State) : ∃ a, exec .unpack s = .next a ∧
    lastStepStart (.decompress m) s = { s with blen := a.blen, pad := a.pad, bvalid := a.bvalid } := by
  cases hu : unpackState s with
  | error f => exact ⟨_, congrArg (finish Instr.unpack.opcode s) hu, lastStepStart_decompress_error hu⟩
  | ok u =>
    refine ⟨_, congrArg (finish Instr.unpack.opcode s) hu, (lastStepStart_decompress_ok hu).trans ?_⟩
    obtain ⟨_, _, -, -, rfl⟩ := unpackState_ok hu
    rfl

/-- Settles O40: by the state in which the failed step began. -/
theorem failedCommandKeepsEverything : Obligations.FailedCommandKeepsEverything := by
  intro i s t h ht
  obtain ⟨f, rfl⟩ := exec_failed h ht
  cases i with
  | compress =>
    exact ⟨⟨rfl, rfl⟩, fun _ => ⟨rfl, rfl, rfl⟩, absurd rfl, fun _ => ⟨_, _, _, rfl, rfl, rfl, rfl, rfl, rfl, rfl⟩, nofun⟩
  | decompress m =>
    obtain ⟨a, ha, hstart⟩ := lastStepStart_decompress m s
    rw [hstart]
    exact ⟨⟨rfl, rfl⟩, fun hm => absurd rfl (hm m), fun _ => ⟨rfl, rfl, rfl, rfl⟩, nofun, fun _ _ => ⟨a, ha, rfl, rfl, rfl⟩⟩
  | _ => exact ⟨⟨rfl, rfl⟩, fun _ => ⟨rfl, rfl, rfl⟩, fun _ => ⟨rfl, rfl, rfl, rfl⟩, nofun, nofun⟩

/-! ### The status fields are not read (R136) -/

/-- `s` with the given ERR, ESTICKY, LASTOP and EINFO. -/
def State.withStatus (e : ErrCode) (b : Bool) (l : Byte) (x : Word) (s : State) : State :=
  { s with err := e, esticky := b, lastop := l, einfo := x }

/-- `s` with the container that PACK makes of the bitstream `bits`, and with the lengths that describe it (R192, R193). -/
def State.packed (s : State) (bits : Bits) : State :=
  { s with
    cont := container bits, blen := BitVec.ofNat 32 bits.length, pad := BitVec.ofNat 8 (padding bits.length),
    bvalid := false }

/-- PACK's step reads TEXT, CODE and CONT_CAP. -/
theorem packState_eq_map (s : State) :
    packState s = (packBits s.code s.cfg.contCap 0 [] s.text).map s.packed := by
  unfold packState
  cases packBits s.code s.cfg.contCap 0 [] s.text <;> rfl

section Status

variable (e : ErrCode) (b : Bool) (l : Byte) (x : Word)

theorem packState_withStatus (s : State) :
    packState (s.withStatus e b l x) = (packState s).map (State.withStatus e b l x) := by
  rw [packState_eq_map, packState_eq_map, State.withStatus]
  cases packBits s.code s.cfg.contCap 0 [] s.text <;> rfl

theorem unpackState_withStatus (s : State) :
    unpackState (s.withStatus e b l x) = (unpackState s).map (State.withStatus e b l x) := by
  unfold unpackState State.withStatus
  cases s.cont with
  | nil => rfl
  | cons h rest => dsimp only; split <;> rfl

theorem decodeState_withStatus (m : Mode) (s : State) :
    decodeState m (s.withStatus e b l x) = (decodeState m s).map (State.withStatus e b l x) := by
  have hbits : decodeBits m (s.withStatus e b l x) = decodeBits m s := by cases m <;> rfl
  have hbvalid : (s.withStatus e b l x).bvalid = s.bvalid := rfl
  rw [decodeState, decodeState, hbits, hbvalid]
  cases s.bvalid with
  | false => rfl
  | true => cases decodeBits m s <;> rfl

theorem lastStepStart_withStatus (i : Instr) (s : State) :
    lastStepStart i (s.withStatus e b l x) = (lastStepStart i s).withStatus e b l x := by
  cases i with
  | decompress m =>
    rw [lastStepStart, lastStepStart, unpackState_withStatus]
    cases unpackState s <;> rfl
  | _ => rfl

/-- CLR aside, which clears ESTICKY (R238), what a command's last step writes has the status it began with. -/
theorem lastStepResult_withStatus {i : Instr} (hi : i ≠ .clr) (s : State) :
    lastStepResult i (s.withStatus e b l x) = (lastStepResult i s).map (State.withStatus e b l x) := by
  cases i with
  | clr => exact absurd rfl hi
  | nop | count | build | gen => rfl
  | pack => exact packState_withStatus e b l x s
  | unpack => exact unpackState_withStatus e b l x s
  | decode m => exact decodeState_withStatus e b l x m s
  | compress => exact packState_withStatus e b l x (tablesState s)
  | decompress m =>
    rw [lastStepResult, lastStepResult, unpackState_withStatus]
    cases unpackState s with
    | ok u => exact decodeState_withStatus e b l x m u
    | error f => rfl

/-- The status update reads none of the four fields, and of them keeps ESTICKY at most. -/
theorem finish_withStatus {op : Byte} {s t : State} {r : Except Failure State} (h : finish op s r = .next t) :
    ∃ b', finish op (s.withStatus e b l x) (r.map (State.withStatus e b l x)) = .next { t with esticky := b' } := by
  rcases finish_next h with ⟨u, rfl, rfl⟩ | ⟨f, rfl, rfl⟩
  · exact ⟨b, rfl⟩
  · exact ⟨true, rfl⟩

end Status

/-- Settles O41: CLR writes ESTICKY; of every other command the last step has the status it began with, and the status update
keeps ESTICKY of it at most. -/
theorem commandsIgnoreStatus : Obligations.CommandsIgnoreStatus := by
  intro i s t e b l x h
  by_cases hi : i = .clr
  · subst hi
    cases h
    exact ⟨false, rfl⟩
  · rw [exec_eq_finish] at h
    obtain ⟨b', hb'⟩ := finish_withStatus e b l x h
    rw [← lastStepStart_withStatus, ← lastStepResult_withStatus e b l x hi, ← exec_eq_finish] at hb'
    exact ⟨b', hb'⟩

/-! ### The status after a command (R133, R134) -/

theorem lastStepResult_esticky {i : Instr} (hi : i ≠ .clr) {s u : State} (h : lastStepResult i s = .ok u) :
    u.esticky = s.esticky := by
  have hsame : lastStepResult i s = (lastStepResult i s).map (State.withStatus s.err s.esticky s.lastop s.einfo) :=
    lastStepResult_withStatus s.err s.esticky s.lastop s.einfo hi s
  rw [h] at hsame
  rw [Except.ok.inj hsame]
  rfl

/-- Settles O39: by the status update that ends the command. -/
theorem statusAfterCommand : Obligations.StatusAfterCommand := by
  intro i s
  obtain ⟨t, ht⟩ := exec_total i s
  have hop : (encode i).setWidth 8 = i.opcode := by rw [← opField_eq_setWidth, opField_encode]
  have hhost := exec_sameHostSide ht
  have hend := ht
  rw [exec_eq_finish] at hend
  refine ⟨t, ht, ?_⟩
  rw [hop]
  rcases finish_next hend with ⟨u, hu, rfl⟩ | ⟨f, hf, rfl⟩
  · have hkeep (hi : i ≠ .clr) : u.esticky = s.esticky := lastStepResult_esticky hi hu
    have hclr (hi : i = .clr) : u.esticky = false := by
      subst hi
      cases hu
      rfl
    exact ⟨rfl, fun _ => ⟨rfl, hkeep, hclr⟩, absurd rfl, hhost⟩
  · exact ⟨rfl, fun he => absurd he (lastStepResult_error_ne_none hf), fun _ => rfl, hhost⟩

/-! ### COMPRESS is a function of the text (R138) -/

/-- COMPRESS is the tables of the text, and the packing of the bitstream they give, which only TEXT and CONT_CAP enter
(R235). -/
theorem exec_compress_eq (s : State) : exec .compress s = finish Instr.compress.opcode (tablesState s)
    ((packBits (tablesState s).code s.cfg.contCap 0 [] s.text).map (tablesState s).packed) :=
  congrArg (finish Instr.compress.opcode (tablesState s)) (packState_eq_map (tablesState s))

/-- Settles O38: texts and parameters being equal, so are the tables and the outcome of the packing. -/
theorem sameTextSameContainer : Obligations.SameTextSameContainer := by
  intro s s' t t' htext hcfg ht ht'
  rw [exec_compress_eq] at ht ht'
  have hcode : (tablesState s').code = (tablesState s).code := by simp [htext]
  rw [hcode, ← htext, ← hcfg] at ht'
  cases hpack : packBits (tablesState s).code s.cfg.contCap 0 [] s.text with
  | error f =>
    have hpacked : packState (tablesState s) = .error f := by
      rw [packState_eq_map]
      exact congrArg _ hpack
    rw [hpack] at ht ht'
    cases ht
    cases ht'
    simp [htext, packState_error_ne_none hpacked]
  | ok bits =>
    rw [hpack] at ht ht'
    cases ht
    cases ht'
    simp [htext, State.packed]

end Sys2Proof.Machine

namespace Sys2Proof.Machine

/-! ## COUNT (R150 to R152)

The table is `countText` of the text; no count wraps, since TLEN is at most TEXT_CAP (R5, R6). -/

/-- A text within TEXT_CAP has fewer than 2^32 positions (R5, R6). -/
theorem text_length_lt {s : State} (hc : s.cfg.WellFormed) (hm : Memory.wf s = true) : s.text.length < 4294967296 := by
  have hcap := hc.1.2
  have hlen := (wf_iff.1 hm).1
  omega

/-- The entries of a table that counts a text sum to the text's length (R151). -/
theorem sum_entries_eq_length {f : Table Word} {text : List Byte} (h : ∀ y, (f.entry y).toNat = text.count y) :
    (symbols.map fun y => (f.entry y).toNat).sum = text.length := by
  rw [funext h, sum_count_eq_length]

/-- Settles O9: the table is that of `countText`, whose entries are the counts and sum to TLEN. -/
theorem countResult : Obligations.CountResult := fun s hc hm =>
  have hcount := countText_entry_toNat (text_length_lt hc hm)
  ⟨countText s.text, rfl, hcount, sum_entries_eq_length hcount⟩

/-- Settles O10: `countText` is the same table for permuted texts. -/
theorem countOrderIndependent : Obligations.CountOrderIndependent := fun s t h =>
  ⟨countText s.text, rfl, by rw [countText_perm h]; rfl⟩

/-! ## COMPRESS where the worst case fits (R308)

Every symbol of the text has a code in the table made of it, and a code has at most 255 bits. -/

/-- The table that BUILD and GEN make of a text's counts codes every symbol of the text (R161, R184). -/
theorem allCoded_tablesState {s : State} (h : s.text.length < 4294967296) : AllCoded (tablesState s).code s.text := by
  intro y hy
  rw [tablesState_code, genTable_ne_nil (buildTree_inv _), buildTree_leafSymbols, mem_keySymbols]
  exact (countText_entry_ne_zero h y).2 hy

/-- A bitstream is no longer than its symbols times the longest code. -/
theorem codesOf_length_le {code : Table Bits} {n : Nat} (h : ∀ y, (code.entry y).length ≤ n) (text : List Byte) :
    (codesOf code text).length ≤ n * text.length := by
  induction text with
  | nil => simp
  | cons y text ih =>
    have hy := h y
    simp only [codesOf_cons, List.length_append, List.length_cons, Nat.mul_succ]
    omega

/-- The bitstream COMPRESS makes has at most 255 bits per symbol (R184 (e), R308). -/
theorem codesOf_tablesState_length_le (s : State) :
    (codesOf (tablesState s).code s.text).length ≤ 255 * s.text.length :=
  codesOf_length_le (fun y => genTable_length_le (buildTree_inv _) y) s.text

/-- COMPRESS where every symbol has a code and the container fits (R235). -/
theorem exec_compress_fits {s : State} (hcoded : AllCoded (tablesState s).code s.text)
    (hfit : 2 + (codesOf (tablesState s).code s.text).length / 8 ≤ s.cfg.contCap) :
    exec .compress s = .next (((tablesState s).packed (codesOf (tablesState s).code s.text)).succeed 0x08) :=
  congrArg (finish Instr.compress.opcode (tablesState s)) (packState_fits (s := tablesState s) hcoded (.inr hfit))

/-- After the header byte the container holds the bits and PAD zeros (R193, R82). -/
theorem container_bits_drop (bits : Bits) : (bitsOfBytes (container bits)).drop 8 =
    bits ++ List.replicate (BitVec.ofNat 8 (padding bits.length)).toNat false := by
  rw [padding_toNat, ← container_bits]
  exact bitsOfBytes_cons_drop _ _

/-- Settles O34: by `exec_compress_fits`, whose hypotheses the worst case gives. -/
theorem compressCompletes : Obligations.CompressCompletes := by
  intro s hc hm hworst
  have hlen := text_length_lt hc hm
  have hcoded := allCoded_tablesState hlen
  have hbits := codesOf_tablesState_length_le s
  have hfit : 2 + (codesOf (tablesState s).code s.text).length / 8 ≤ s.cfg.contCap :=
    (Nat.add_le_add_left (Nat.div_le_div_right hbits) 2).trans hworst
  have hblen : (codesOf (tablesState s).code s.text).length < 2 ^ 32 := by
    have hcap := hc.2.2
    omega
  refine ⟨_, exec_compress_fits hcoded hfit, ?_⟩
  dsimp only [State.succeed, State.packed]
  exact ⟨rfl, rfl, rfl, tablesState_esticky s, rfl, tablesState_cfg s, tablesState_text s, tablesState_bus s,
    tablesState_resp s, countText_entry_toNat hlen, buildTree_inv (countText s.text), rfl, hcoded,
    (BitVec.toNat_ofNat _ _).trans (Nat.mod_eq_of_lt hblen), container_bits_drop _, rfl⟩

/-! ## The frame of the commands

What a command that is none of their writers leaves of TEXT, CONT and FREQ, beside `exec_tables` for NODE and CODE; then
what that says of the host's reads. -/

theorem finish_pack_keeps {op : Byte} {s t : State} (h : finish op s (packState s) = .next t) :
    t.text = s.text ∧ t.freq = s.freq := by
  rcases finish_next h with ⟨u, hu, rfl⟩ | ⟨f, -, rfl⟩
  · obtain ⟨-, rfl⟩ := packState_ok hu
    exact ⟨rfl, rfl⟩
  · exact ⟨rfl, rfl⟩

theorem finish_unpack_keeps {op : Byte} {s t : State} (h : finish op s (unpackState s) = .next t) :
    t.text = s.text ∧ t.cont = s.cont ∧ t.freq = s.freq := by
  rcases finish_next h with ⟨u, hu, rfl⟩ | ⟨f, -, rfl⟩
  · obtain ⟨_, _, -, -, rfl⟩ := unpackState_ok hu
    exact ⟨rfl, rfl, rfl⟩
  · exact ⟨rfl, rfl, rfl⟩

theorem finish_decode_keeps {op : Byte} {m : Mode} {s t : State} (h : finish op s (decodeState m s) = .next t) :
    t.cont = s.cont ∧ t.freq = s.freq := by
  rcases finish_next h with ⟨u, hu, rfl⟩ | ⟨f, -, rfl⟩
  · obtain ⟨_, rfl⟩ := decodeState_ok hu
    exact ⟨rfl, rfl⟩
  · exact ⟨rfl, rfl⟩

/-- What a command does to the buffers and to the counts: it keeps each, or is one of its writers (R150, R190, R215, R235 to
R238). -/
theorem exec_buffers_freq {i : Instr} {s t : State} (h : exec i s = .next t) :
    (t.text = s.text ∨ i = .clr ∨ ∃ m, i = .decode m ∨ i = .decompress m) ∧
    (t.cont = s.cont ∨ i = .clr ∨ i = .pack ∨ i = .compress) ∧
    (t.freq = s.freq ∨ i = .clr ∨ i = .count ∨ i = .compress) := by
  cases i with
  | nop | build | gen => cases h; exact ⟨.inl rfl, .inl rfl, .inl rfl⟩
  | count => cases h; exact ⟨.inl rfl, .inl rfl, .inr (.inr (.inl rfl))⟩
  | clr => exact ⟨.inr (.inl rfl), .inr (.inl rfl), .inr (.inl rfl)⟩
  | pack =>
    obtain ⟨htext, hfreq⟩ := finish_pack_keeps h
    exact ⟨.inl htext, .inr (.inr (.inl rfl)), .inl hfreq⟩
  | compress =>
    obtain ⟨htext, -⟩ := finish_pack_keeps (s := tablesState s) h
    exact ⟨.inl (htext.trans (tablesState_text s)), .inr (.inr (.inr rfl)), .inr (.inr (.inr rfl))⟩
  | unpack =>
    obtain ⟨htext, hcont, hfreq⟩ := finish_unpack_keeps h
    exact ⟨.inl htext, .inl hcont, .inl hfreq⟩
  | decode m =>
    obtain ⟨hcont, hfreq⟩ := finish_decode_keeps h
    exact ⟨.inr (.inr ⟨m, .inl rfl⟩), .inl hcont, .inl hfreq⟩
  | decompress m =>
    refine ⟨.inr (.inr ⟨m, .inr rfl⟩), ?_⟩
    rcases exec_decompress_next h with ⟨f, -, rfl⟩ | ⟨u, hu, hfin⟩
    · exact ⟨.inl rfl, .inl rfl⟩
    · obtain ⟨_, _, -, -, rfl⟩ := unpackState_ok hu
      obtain ⟨hcont, hfreq⟩ := finish_decode_keeps hfin
      exact ⟨.inl hcont, .inl hfreq⟩

/-! ### What a read of a window depends on (R69 to R73) -/

section Windows

variable {s t : State} {l : Loc}

theorem readLoc_of_text_eq (hl : l.isText = true) (h : t.text = s.text) : readLoc t l = readLoc s l := by
  cases l with
  | text i => exact congrArg (bufferRead · i) h
  | _ => cases hl

theorem readLoc_of_cont_eq (hl : l.isCont = true) (h : t.cont = s.cont) : readLoc t l = readLoc s l := by
  cases l with
  | cont i => exact congrArg (bufferRead · i) h
  | _ => cases hl

/-- A location of the tables is read as before where its own table is kept. -/
theorem readLoc_of_table_eq (hl : l.isTable = true) (hfreq : t.freq = s.freq ∨ ∀ y, l ≠ .freq y)
    (hnode : t.node = s.node ∨ ∀ j f, l ≠ .node j f)
    (hcode : t.code = s.code ∨ (∀ y, l ≠ .codeLen y) ∧ ∀ y w, l ≠ .codeBits y w) : readLoc t l = readLoc s l := by
  cases l with
  | freq y =>
    have hkeep := hfreq.resolve_right fun hne => hne y rfl
    simp only [readLoc, hkeep]
  | node j f =>
    have hkeep := hnode.resolve_right fun hne => hne j f rfl
    simp only [readLoc, hkeep]
  | codeLen y =>
    have hkeep := hcode.resolve_right fun hne => hne.1 y rfl
    simp only [readLoc, hkeep]
  | codeBits y w =>
    have hkeep := hcode.resolve_right fun hne => hne.2 y w rfl
    simp only [readLoc, hkeep]
  | reg | text | cont => cases hl

end Windows

/-- After a command an address is read as before when its location is, since the parameters are kept (R9). -/
theorem busRead_exec {i : Instr} {s t : State} {a : Addr} {l : Loc} (h : exec i s = .next t)
    (hl : locate s.cfg a = .ok l) (hkeep : readLoc t l = readLoc s l) : busRead t a = busRead s a := by
  obtain ⟨hcfg, -, -⟩ := exec_sameHostSide h
  have hlt : locate t.cfg a = .ok l := (congrArg (locate · a) hcfg).trans hl
  rw [busRead_of hlt, busRead_of hl, hkeep]

/-- Settles O42: a command of each clause is none of the writers that `exec_buffers_freq` and `exec_tables` name for the
windows the clause reads. -/
theorem commandStoresNothingElse : Obligations.CommandStoresNothingElse := by
  intro i s t a l h hl
  have keep := busRead_exec h hl
  obtain ⟨htext, hcont, hfreq⟩ := exec_buffers_freq h
  obtain ⟨htree, hcode⟩ := exec_tables h
  refine ⟨?_, ?_, ?_, ?_, ?_, ?_, ?_⟩
  · intro hi hw
    have htext := htext.resolve_right (by rintro (rfl | ⟨m, rfl | rfl⟩) <;> simp at hi)
    have hcont := hcont.resolve_right (by rintro (rfl | rfl | rfl) <;> simp at hi)
    exact keep (hw.elim (readLoc_of_text_eq · htext) (readLoc_of_cont_eq · hcont))
  · rintro rfl hw
    simp only [reduceCtorEq, or_self, exists_false, or_false] at htext hfreq htree hcode
    exact keep (hw.elim (readLoc_of_text_eq · htext)
      (readLoc_of_table_eq · (.inl hfreq) (.inl htree.1) (.inl hcode)))
  · rintro m (rfl | rfl) hw
    all_goals
      simp only [reduceCtorEq, or_self, or_false] at hcont hfreq htree hcode
      exact keep (hw.elim (readLoc_of_cont_eq · hcont)
        (readLoc_of_table_eq · (.inl hfreq) (.inl htree.1) (.inl hcode)))
  · rintro rfl hw
    simp only [reduceCtorEq, or_self, exists_false, or_false] at htext
    exact keep (readLoc_of_text_eq hw htext)
  · rintro rfl hw hne
    simp only [reduceCtorEq, or_self, or_false] at htree hcode
    exact keep (readLoc_of_table_eq hw (.inr hne) (.inl htree.1) (.inl hcode))
  · rintro rfl hw hne
    simp only [reduceCtorEq, or_self, or_false] at hfreq hcode
    exact keep (readLoc_of_table_eq hw (.inl hfreq) (.inr hne) (.inl hcode))
  · rintro rfl hw hlen hbits
    simp only [reduceCtorEq, or_self, or_false] at hfreq htree
    exact keep (readLoc_of_table_eq hw (.inl hfreq) (.inl htree.1) (.inr ⟨hlen, hbits⟩))

end Sys2Proof.Machine

namespace Sys2Proof.Machine

/-! ## BUILD (R160 to R169)

What `buildTree_forest` and `buildTree_inv` say of the tree, read in the terms of the statements; then that the merge
rules leave no choice of a node. -/

/-- BUILD writes the tree of the frequency table, with ROOT its last node (R160). -/
theorem exec_build (s : State) : exec .build s = .next { s with
    node := buildTree s.freq, root := rootOf (buildTree s.freq), lastop := 0x03, err := .none, einfo := 0 } := rfl

/-- The nodes below n, and only these, are the leaves (R161, R165). -/
theorem buildTree_kind {freq : Table Word} {k : Nat} {n : Node} (hn : (buildTree freq)[k]? = some n) :
    n.kind = false ↔ k < (keySymbols freq).length := by
  obtain ⟨q, hforest, -, -⟩ := buildTree_forest freq
  rw [← leavesOf_length]
  exact hforest.kinds k n hn

/-- Settles O11: the first n nodes are `leavesOf`, and `buildTree_kind` says that the others are no leaves. -/
theorem buildLeavesAscending : Obligations.BuildLeavesAscending := fun s =>
  ⟨_, _, exec_build s, buildTree_leaves s.freq, fun _ _ hk hn =>
    eq_true_of_ne_false fun hleaf => hk.not_gt ((buildTree_kind hn).1 hleaf)⟩

/-- Every node is internal or carries a symbol. -/
theorem length_filter_kind_add_leafSymbols (nodes : List Node) :
    (nodes.filter Node.kind).length + (leafSymbols nodes).length = nodes.length := by
  induction nodes with
  | nil => rfl
  | cons n nodes ih =>
    cases n with
    | leaf y f => exact congrArg Nat.succ ih
    | internal f l r => exact (Nat.succ_add _ _).trans (congrArg Nat.succ ih)

theorem buildTree_internal_length (freq : Table Word) :
    ((buildTree freq).filter Node.kind).length = (keySymbols freq).length - 1 := by
  have hsplit := length_filter_kind_add_leafSymbols (buildTree freq)
  rw [buildTree_leafSymbols, buildTree_length] at hsplit
  omega

/-- `l` and `r` are the smallest key and the smallest of the others in the collection from which node `k` is made (R162 to
R164); `MergesTwoSmallest` says it of the children of every internal node. -/
def TwoSmallestAt (nodes : List Node) (k : Nat) (l r : NodeIdx) : Prop :=
  LiveAt nodes k l.toNat ∧ LiveAt nodes k r.toNat ∧ l ≠ r ∧
    (∀ i, LiveAt nodes k i → i ≠ l.toNat → KeyLt nodes l.toNat i) ∧
    (∀ i, LiveAt nodes k i → i ≠ l.toNat → i ≠ r.toNat → KeyLt nodes r.toNat i)

theorem MergesTwoSmallest.twoSmallestAt {nodes : List Node} (h : MergesTwoSmallest nodes) {k : Nat} {f : NodeFreq}
    {l r : NodeIdx} (hk : nodes[k]? = some (.internal f l r)) : TwoSmallestAt nodes k l r := h k f l r hk

theorem KeyLt.freq_le {nodes : List Node} {i j : Nat} (h : KeyLt nodes i j) : freqAt nodes i ≤ freqAt nodes j :=
  h.elim Nat.le_of_lt fun heq => heq.1.le

theorem TwoSmallestAt.freq_le {nodes : List Node} {k : Nat} {l r : NodeIdx} (h : TwoSmallestAt nodes k l r) :
    freqAt nodes l.toNat ≤ freqAt nodes r.toNat := by
  obtain ⟨-, hr, hne, hleft, -⟩ := h
  exact (hleft _ hr fun heq => hne (BitVec.eq_of_toNat_eq heq.symm)).freq_le

theorem TreeInv.freqAt_internal {nodes : List Node} {root : NodeIdx} (h : TreeInv nodes root) {k : Nat} {f : NodeFreq}
    {l r : NodeIdx} (hk : nodes[k]? = some (.internal f l r)) :
    f.toNat = freqAt nodes l.toNat + freqAt nodes r.toNat := by
  obtain ⟨a, b, ha, hb, hsum⟩ := h.sums k f l r hk
  rw [freqAt_of_nodeAt ha, freqAt_of_nodeAt hb, hsum]

/-- Settles O12: the merge loop keeps the merge rules, and of two live nodes the smaller key has the smaller FREQ. -/
theorem buildMergesTwoSmallest : Obligations.BuildMergesTwoSmallest := fun s =>
  ⟨_, _, exec_build s, buildTree_merges s.freq, buildTree_internal_length s.freq, fun _ _ _ _ hk =>
    ⟨(buildTree_inv s.freq).freqAt_internal hk, ((buildTree_merges s.freq).twoSmallestAt hk).freq_le⟩⟩

/-- Settles O13: NNODES by `buildTree_length`, all else but the root's FREQ by the invariant of the tree. -/
theorem buildTotals : Obligations.BuildTotals := by
  intro s
  refine ⟨_, _, exec_build s, fun hn => ?_⟩
  have hinv := buildTree_inv s.freq
  have hlen : (buildTree s.freq).length = 2 * (keySymbols s.freq).length - 1 := buildTree_length s.freq
  have hlast : (buildTree s.freq).length - 1 = 2 * (keySymbols s.freq).length - 2 := by rw [hlen, Nat.sub_sub]
  have hne : buildTree s.freq ≠ [] := by
    have hpos : 1 ≤ (keySymbols s.freq).length := hn
    exact List.ne_nil_of_length_pos (by omega)
  obtain ⟨m, hm⟩ := hinv.root_some hne
  exact ⟨hlen, hinv.root_last.trans hlast, fun _ _ => buildTree_kind,
    (freqAt_of_nodeAt hm).trans (buildTree_root_freq s.freq m hm), hlast ▸ hinv.parents, hinv.ordered⟩

/-! ### One key or none (R166, R167) -/

theorem keySymbols_eq_singleton {freq : Table Word} {y : Byte} (hy : freq.entry y ≠ 0)
    (hothers : ∀ z, z ≠ y → freq.entry z = 0) : keySymbols freq = [y] := by
  refine List.perm_singleton.1 ((List.perm_ext_iff_of_nodup (keySymbols_nodup freq) (List.nodup_singleton y)).2 fun z => ?_)
  rw [mem_keySymbols, List.mem_singleton]
  exact ⟨fun hz => of_not_not (mt (hothers z) hz), fun hz => hz ▸ hy⟩

theorem keySymbols_eq_nil {freq : Table Word} (h : ∀ y, freq.entry y = 0) : keySymbols freq = [] :=
  List.eq_nil_iff_forall_not_mem.2 fun y hy => mem_keySymbols.1 hy (h y)

/-- With one key or none there is nothing to merge. -/
theorem buildTree_eq_leavesOf {freq : Table Word} (h : (keySymbols freq).length ≤ 1) :
    buildTree freq = leavesOf freq := by
  have hlen := buildTree_length freq
  rw [← buildTree_leaves freq, List.take_of_length_le (by omega)]

/-- BUILD of one key or none leaves the leaves, with ROOT = 0. -/
theorem exec_build_leaves {s : State} (h : (keySymbols s.freq).length ≤ 1) :
    exec .build s = .next { s with
      node := leavesOf s.freq, root := 0, lastop := 0x03, err := .none, einfo := 0 } := by
  have hroot : rootOf (leavesOf s.freq) = 0 := by
    rw [rootOf, leavesOf_length, Nat.sub_eq_zero_of_le h]
    rfl
  rw [exec_build, buildTree_eq_leavesOf h, hroot]

/-- Settles O14: the one key's leaf, or no leaf, is all of the tree. -/
theorem buildOneOrNoSymbol : Obligations.BuildOneOrNoSymbol := by
  refine ⟨fun s y hy hothers => ?_, fun s hzero => ?_⟩
  · have hkeys := keySymbols_eq_singleton hy hothers
    rw [exec_build_leaves (hkeys ▸ Nat.le_refl 1), leavesOf, hkeys]
    rfl
  · have hkeys := keySymbols_eq_nil hzero
    rw [exec_build_leaves (hkeys ▸ Nat.zero_le 1), leavesOf, hkeys]
    rfl

/-- Settles O15: the invariant of the tree, its leaves, and the depth that the number of nodes allows. -/
theorem buildShape : Obligations.BuildShape := by
  intro s
  have hinv := buildTree_inv s.freq
  refine ⟨_, _, exec_build s, hinv, fun y => ?_, fun p j hp => ?_⟩
  · rw [buildTree_leafSymbols, mem_keySymbols]
  · have hdepth := hinv.depth_le hp
    rw [buildTree_length] at hdepth
    rw [buildTree_leafSymbols]
    omega

/-! ### The merge rules leave no choice (R169)

The collection from which node `k` is made, and the keys in it, depend on the nodes before `k` only. Two node memories that
obey the rules agree on their leaves, and node by node on the two smallest keys. -/

section AgreeBelow

variable {xs ys : List Node} {k : Nat} (h : xs.take k = ys.take k)
include h

theorem getElem?_congr_of_take {i : Nat} (hi : i < k) : xs[i]? = ys[i]? := by
  rw [← List.getElem?_take_of_lt hi, h, List.getElem?_take_of_lt hi]

theorem liveAt_congr (i : Nat) : LiveAt xs k i ↔ LiveAt ys k i := by rw [LiveAt, LiveAt, h]

theorem keyLt_congr {i j : Nat} (hi : i < k) (hj : j < k) : KeyLt xs i j ↔ KeyLt ys i j := by
  have hfreq {m : Nat} (hm : m < k) : freqAt xs m = freqAt ys m := by
    rw [freqAt, freqAt, getElem?_congr_of_take h hm]
  rw [KeyLt, KeyLt, hfreq hi, hfreq hj]

theorem TwoSmallestAt.congr {l r : NodeIdx} (hlr : TwoSmallestAt xs k l r) : TwoSmallestAt ys k l r := by
  obtain ⟨hl, hr, hne, hleft, hright⟩ := hlr
  refine ⟨(liveAt_congr h _).1 hl, (liveAt_congr h _).1 hr, hne, fun i hi hil => ?_, fun i hi hil hir => ?_⟩
  · exact (keyLt_congr h hl.1 hi.1).1 (hleft i ((liveAt_congr h i).2 hi) hil)
  · exact (keyLt_congr h hr.1 hi.1).1 (hright i ((liveAt_congr h i).2 hi) hil hir)

end AgreeBelow

theorem KeyLt.asymm {nodes : List Node} {i j : Nat} (h : KeyLt nodes i j) : ¬ KeyLt nodes j i := by
  unfold KeyLt at *
  omega

/-- Of the nodes with a property one only has the smallest key. -/
theorem smallest_unique {nodes : List Node} {P : Nat → Prop} {a b : NodeIdx} (ha : P a.toNat) (hb : P b.toNat)
    (hmina : ∀ i, P i → i ≠ a.toNat → KeyLt nodes a.toNat i) (hminb : ∀ i, P i → i ≠ b.toNat → KeyLt nodes b.toNat i) :
    a = b := by
  by_contra hne
  have hne : a.toNat ≠ b.toNat := mt BitVec.eq_of_toNat_eq hne
  exact (hmina _ hb hne.symm).asymm (hminb _ ha hne)

theorem TwoSmallestAt.unique {nodes : List Node} {k : Nat} {l r l' r' : NodeIdx} (h : TwoSmallestAt nodes k l r)
    (h' : TwoSmallestAt nodes k l' r') : l = l' ∧ r = r' := by
  obtain ⟨hl, hr, hne, hleft, hright⟩ := h
  obtain ⟨hl', hr', hne', hleft', hright'⟩ := h'
  obtain rfl : l = l' := smallest_unique hl hl' hleft hleft'
  have apart {a : NodeIdx} (ha : l ≠ a) : a.toNat ≠ l.toNat := fun heq => ha (BitVec.eq_of_toNat_eq heq.symm)
  exact ⟨rfl, smallest_unique (P := fun i => LiveAt nodes k i ∧ i ≠ l.toNat) ⟨hr, apart hne⟩ ⟨hr', apart hne'⟩
    (fun i hi => hright i hi.1 hi.2) (fun i hi => hright' i hi.1 hi.2)⟩

/-- Two node memories that obey the rules and agree on the nodes before `k` agree on node `k`. -/
theorem GreedyTree.getElem?_unique {freq : Table Word} {xs ys : List Node} (hx : GreedyTree freq xs)
    (hy : GreedyTree freq ys) {k : Nat} (h : xs.take k = ys.take k) : xs[k]? = ys[k]? := by
  have hlen : xs.length = ys.length := hx.length.trans hy.length.symm
  rcases Nat.lt_or_ge k (keySymbols freq).length with hleaf | hinner
  · exact getElem?_congr_of_take (hx.leaves.trans hy.leaves.symm) hleaf
  rcases Nat.lt_or_ge k xs.length with hk | hk
  case inr => rw [List.getElem?_eq_none hk, List.getElem?_eq_none (hlen ▸ hk)]
  have hxk := List.getElem?_eq_getElem hk
  have hyk := List.getElem?_eq_getElem (hlen ▸ hk)
  obtain ⟨l, r, a, b, hla, hrb, hxn⟩ := hx.inner k _ hinner hxk
  obtain ⟨l', r', a', b', hla', hrb', hyn⟩ := hy.inner k _ hinner hyk
  rw [hxn] at hxk
  rw [hyn] at hyk
  have htwo := hx.merges.twoSmallestAt hxk
  obtain ⟨rfl, rfl⟩ := htwo.unique ((hy.merges.twoSmallestAt hyk).congr h.symm)
  obtain ⟨hl, hr, -⟩ := htwo
  obtain rfl : a = a' := Option.some.inj (hla.symm.trans ((getElem?_congr_of_take h hl.1).trans hla'))
  obtain rfl : b = b' := Option.some.inj (hrb.symm.trans ((getElem?_congr_of_take h hr.1).trans hrb'))
  exact hxk.trans hyk.symm

theorem GreedyTree.unique {freq : Table Word} {xs ys : List Node} (hx : GreedyTree freq xs) (hy : GreedyTree freq ys) :
    xs = ys := by
  have htake (k : Nat) : xs.take k = ys.take k := by
    induction k with
    | zero => rfl
    | succ k ih => rw [List.take_add_one, List.take_add_one, ih, hx.getElem?_unique hy ih]
  exact List.ext_getElem? fun k => hx.getElem?_unique hy (htake k)

/-- The node memory BUILD writes obeys the rules it is made by. -/
theorem buildTree_greedyTree (freq : Table Word) : GreedyTree freq (buildTree freq) where
  leaves := buildTree_leaves freq
  merges := buildTree_merges freq
  length := buildTree_length freq
  inner := by
    intro k n hk hn
    cases n with
    | leaf y f => exact absurd ((buildTree_kind hn).1 rfl) hk.not_gt
    | internal f l r =>
      obtain ⟨a, b, ha, hb, hsum⟩ := (buildTree_inv freq).sums k f l r hn
      obtain rfl : f = a.freq + b.freq := by bv_omega
      exact ⟨l, r, a, b, ha, hb, rfl⟩

/-- Settles O16: BUILD writes such a node memory, and there is one only. -/
theorem anyRealisationBuildsTheSameTree : Obligations.AnyRealisationBuildsTheSameTree := by
  intro s nodes h
  obtain rfl := h.unique (buildTree_greedyTree s.freq)
  exact ⟨_, exec_build s⟩

end Sys2Proof.Machine

namespace Sys2Proof.Machine

/-! ## GEN (R180 to R185)

What Laws/CodeTable.lean says of `genTable`, read in the terms of the statements; then that the codes are complete. -/

/-- GEN writes the code table of the tree (R180). -/
theorem exec_gen (s : State) : exec .gen s = .next { s with
    code := genTable s.node s.root, lastop := 0x04, err := .none, einfo := 0 } := rfl

theorem TreeInv.root_internal {nodes : List Node} {root : NodeIdx} (hinv : TreeInv nodes root)
    (h : 2 ≤ nodes.length) : ∃ f l r, nodeAt nodes root = some (.internal f l r) := by
  obtain ⟨n, hn⟩ := hinv.root_some (List.ne_nil_of_length_pos (by omega))
  cases n with
  | leaf y f => exact absurd (hinv.length_of_leaf hn) (by omega)
  | internal f l r => exact ⟨f, l, r, hn⟩

/-- Settles O17: the root is internal, so the codes are the paths `genTable_internal` speaks of. -/
theorem genCodesAreTreePaths : Obligations.GenCodesAreTreePaths := by
  intro s hinv hthree
  obtain ⟨f, l, r, hroot⟩ := hinv.root_internal (Nat.le_of_succ_le hthree)
  exact ⟨_, exec_gen s, genTable_internal hinv hroot⟩

/-- Settles O18: by the cases of `genTable` for a root that is a leaf and for no node. -/
theorem genOneLeafOrNoLeaf : Obligations.GenOneLeafOrNoLeaf := by
  refine ⟨fun s y f hleaf => ⟨_, exec_gen s, ?_, fun z hz => ?_⟩,
    fun s hempty => ⟨_, exec_gen s, fun y => ?_⟩⟩
  · rw [genTable_leaf hleaf, if_pos rfl]
  · rw [genTable_leaf hleaf, if_neg hz]
  · rw [hempty, genTable_empty, emptyCode_entry]

/-! ### Completeness (R184 (d)) -/

theorem leadsTo_cons {nodes : List Node} {i l r : NodeIdx} {f : NodeFreq} (hn : nodeAt nodes i = some (.internal f l r))
    (b : Bool) (p : Bits) (y : Byte) : LeadsTo nodes i (b :: p) y ↔ LeadsTo nodes (branch l r b) p y := by
  rw [LeadsTo, follow, hn]
  rfl

/-- Every internal node has both children, so a walk that any bit sequence steers down the tree ends at a leaf. -/
theorem TreeInv.exists_leadsTo_range_map {nodes : List Node} {root : NodeIdx} (hinv : TreeInv nodes root) {i : NodeIdx}
    (hi : i.toNat < nodes.length) (g : Nat → Bool) : ∃ n y, LeadsTo nodes i ((List.range n).map g) y := by
  induction hk : i.toNat using Nat.strong_induction_on generalizing i g with
  | _ k ih =>
    cases hn : nodes[i.toNat] with
    | leaf y f => exact ⟨0, y, i, f, rfl, List.getElem?_eq_some_iff.2 ⟨hi, hn⟩⟩
    | internal f l r =>
      have hn : nodeAt nodes i = some (.internal f l r) := List.getElem?_eq_some_iff.2 ⟨hi, hn⟩
      have hlt := hinv.ordered i.toNat _ hn _ (branch_mem_children f l r (g 0))
      obtain ⟨n, y, hy⟩ := ih _ (hk ▸ hlt) (hlt.trans hi) (g ∘ Nat.succ) rfl
      refine ⟨n + 1, y, ?_⟩
      rw [List.range_succ_eq_map, List.map_cons, List.map_map, leadsTo_cons hn]
      exact hy

/-- Of the codes of a prefix-free table at most one begins a bit sequence. -/
theorem PrefixFree.eq_of_range_map {code : Table Bits} (h : PrefixFree code) {g : Nat → Bool} {y z : Byte} {m n : Nat}
    (hy : code.entry y = (List.range m).map g) (hz : code.entry z = (List.range n).map g)
    (hyne : code.entry y ≠ []) (hzne : code.entry z ≠ []) : y = z := by
  have hprefix {a b : Nat} (hab : a ≤ b) : (List.range a).map g <+: (List.range b).map g := by
    rw [← Nat.min_eq_left hab, ← List.take_range]
    exact (List.take_prefix a _).map g
  by_contra hne
  rcases Nat.le_total m n with hmn | hnm
  · exact h y z hne hyne (hy ▸ hz ▸ hprefix hmn)
  · exact h z y (Ne.symm hne) hzne (hy ▸ hz ▸ hprefix hnm)

/-- Every infinite bit sequence has exactly one code as a prefix. -/
theorem genTable_complete {nodes : List Node} {root : NodeIdx} (hinv : TreeInv nodes root) (h : 2 ≤ nodes.length)
    (g : Nat → Bool) :
    ∃ y, ((genTable nodes root).entry y ≠ [] ∧
        (genTable nodes root).entry y = (List.range ((genTable nodes root).entry y).length).map g) ∧
      ∀ z, (genTable nodes root).entry z ≠ [] →
        (genTable nodes root).entry z = (List.range ((genTable nodes root).entry z).length).map g → z = y := by
  obtain ⟨f, l, r, hroot⟩ := hinv.root_internal h
  obtain ⟨n, y, hpath⟩ := hinv.exists_leadsTo_range_map (nodeAt_lt hroot) g
  obtain ⟨hy, hne⟩ := (genTable_internal hinv hroot y _).2 hpath
  have hyne : (genTable nodes root).entry y ≠ [] := hy ▸ hne
  refine ⟨y, ⟨hyne, by rw [hy, List.length_map, List.length_range]⟩, fun z hzne hz => ?_⟩
  exact (genTable_codeSetInv hinv).prefixFree.eq_of_range_map hz hy hzne hyne

/-! ### The properties together -/

/-- Where one symbol at most has a code, that code is "0". -/
theorem CodeSetInv.entry_of_subsingleton {code : Table Bits} (h : CodeSetInv code)
    (hone : ∀ y z, code.entry y ≠ [] → code.entry z ≠ [] → y = z) (y : Byte) :
    code.entry y = [] ∨ code.entry y = [false] := by
  rcases h with hnone | ⟨s, hs, hothers⟩ | ⟨⟨s, t, hst, hs, ht⟩, -⟩
  · exact .inl (hnone y)
  · by_cases hy : y = s
    · exact .inr (hy ▸ hs)
    · exact .inl (hothers y hy)
  · exact absurd (hone s t hs ht) hst

theorem genTable_one_leaf {nodes : List Node} {root : NodeIdx} (hinv : TreeInv nodes root)
    (h : (leafSymbols nodes).length = 1) (y : Byte) :
    (genTable nodes root).entry y = [] ∨ (genTable nodes root).entry y = [false] := by
  obtain ⟨s, hs⟩ := List.length_eq_one_iff.1 h
  have hcoded {z : Byte} (hz : (genTable nodes root).entry z ≠ []) : z = s :=
    List.mem_singleton.1 (hs ▸ (genTable_ne_nil hinv z).1 hz)
  exact (genTable_codeSetInv hinv).entry_of_subsingleton (fun a b ha hb => (hcoded ha).trans (hcoded hb).symm) y

/-- Settles O19: one lemma per property; the codes are distinct because none is a prefix of another. -/
theorem genTableProperties : Obligations.GenTableProperties := by
  intro s hinv
  have hpf := (genTable_codeSetInv hinv).prefixFree
  refine ⟨_, exec_gen s, genTable_ne_nil hinv, fun y z hyz hy heq => hyz (hpf.code_unique hy heq.symm).symm,
    fun _ => hpf, fun htwo => genTable_complete hinv (htwo.trans (List.length_filterMap_le _ _)), fun hone y => ?_,
    fun y hy => ⟨List.length_pos_iff.2 hy, genTable_length_le hinv y⟩⟩
  rcases genTable_one_leaf hinv hone y with hy | hy <;> simp [hy]

@[simp] theorem rev_nil (code : Table Bits) : rev code [] = none := rfl

/-- Settles O20: a code names its symbol, and the lookup finds codes only. -/
theorem reverseTableInvertsCodes : Obligations.ReverseTableInvertsCodes := by
  intro s t hinv hgen
  obtain rfl := Host.Outcome.next.inj ((exec_gen s).symm.trans hgen)
  refine ⟨fun y => (genTable_codeSetInv hinv).prefixFree.rev_entry, fun p hp => ?_⟩
  by_cases hnil : p = []
  · rw [hnil, rev_nil]
  · exact (rev_eq_none hnil).2 fun y hy => hp y (hy ▸ hnil) hy

end Sys2Proof.Machine

namespace Sys2Proof.Machine

/-! ## PACK (R190 to R197)

`packState` in its three outcomes, each as what the command leaves; the container is `State.packed` of the text's codes,
whose length the fit bounds, so BLEN does not wrap. -/

/-- PACK where every symbol has a code and the container fits, if there is a symbol at all (R191 to R193). -/
theorem exec_pack_fits {s : State} (hcoded : AllCoded s.code s.text)
    (hfit : s.text = [] ∨ 2 + (codesOf s.code s.text).length / 8 ≤ s.cfg.contCap) :
    exec .pack s = .next ((s.packed (codesOf s.code s.text)).succeed 0x05) :=
  congrArg (finish Instr.pack.opcode s) (packState_fits hcoded hfit)

/-- PACK where the encoding fails (R194): the failure update, and nothing else. -/
theorem exec_pack_fail {s : State} {f : Failure} (h : packBits s.code s.cfg.contCap 0 [] s.text = .error f) :
    exec .pack s = .next (s.fail 0x05 f) := by
  have hpack : packState s = .error f := by
    rw [packState_eq_map, h]
    rfl
  exact congrArg (finish Instr.pack.opcode s) hpack

/-- What a PACK that ended without an error leaves, and what it says of the text (R191 to R193). -/
theorem exec_pack_ok {s t : State} (h : exec .pack s = .next t) (ht : t.err = .none) :
    (s.text = [] ∨ 2 + (codesOf s.code s.text).length / 8 ≤ s.cfg.contCap) ∧
      t = (s.packed (codesOf s.code s.text)).succeed 0x05 := by
  rcases finish_next ((exec_eq_finish _ s).symm.trans h) with ⟨u, hu, rfl⟩ | ⟨f, hf, rfl⟩
  · obtain ⟨hfit, rfl⟩ := packState_ok hu
    exact ⟨hfit, rfl⟩
  · exact absurd ht (packState_error_ne_none hf)

/-- A bitstream whose container fits, or that of the empty text, is short enough for BLEN (R5, R29). -/
theorem codesOf_length_lt {s : State} (hc : s.cfg.WellFormed)
    (hfit : s.text = [] ∨ 2 + (codesOf s.code s.text).length / 8 ≤ s.cfg.contCap) :
    (codesOf s.code s.text).length < 2 ^ 32 := by
  rcases hfit with hnil | hle
  · simp [hnil]
  · have hcap := hc.2.2
    omega

/-- Settles O21: the outcome is `exec_pack_fits`, and the container's bits and length are those of `container`. -/
theorem packResult : Obligations.PackResult := by
  intro s hc hcoded hfit
  refine ⟨_, _, _, exec_pack_fits hcoded (.inr hfit), ?_, padding_toNat _, rfl, ?_, container_length _⟩
  · exact (BitVec.toNat_ofNat _ _).trans (Nat.mod_eq_of_lt (codesOf_length_lt hc (.inr hfit)))
  · exact (container_bits _).trans (by rw [← padding_toNat]; rfl)

/-- EINFO of a failure that names a byte above a smaller number: the two do not overlap (R255). -/
theorem shiftLeft_or_ofNat (y : Byte) {k n : Nat} (hn : n < 2 ^ k) :
    (y.setWidth 32 <<< k) ||| BitVec.ofNat 32 n = BitVec.ofNat 32 (y.toNat * 2 ^ k + n) := by
  have hy : y.setWidth 32 <<< k = BitVec.ofNat 32 (y.toNat <<< k) := by
    apply BitVec.eq_of_toNat_eq
    rw [BitVec.toNat_shiftLeft, BitVec.toNat_setWidth_of_le (by decide), BitVec.toNat_ofNat]
  rw [hy, ← BitVec.ofNat_or, ← Nat.shiftLeft_add_eq_or_of_lt hn, Nat.shiftLeft_eq]

/-- Settles O22: `packBits_missing` and `packBits_overflow` are the failures, `packState_error` says these are all. -/
theorem packFailures : Obligations.PackFailures := by
  refine ⟨fun s pre post y hc hm htext hcoded hfit => ⟨fun hy => ?_, fun hy hover => ?_⟩, fun s t h => ?_⟩
  · have hpre : pre.length < 2 ^ 24 := by
      have hcap := hc.1.2
      have hlen := (wf_iff.1 hm).1
      rw [htext, List.length_append] at hlen
      omega
    rw [exec_pack_fail (htext ▸ packBits_missing hcoded (.inr hfit) hy), shiftLeft_or_ofNat y hpre]
    rfl
  · have hcoded' : AllCoded s.code (pre ++ [y]) := by
      intro z hz
      rcases List.mem_append.1 hz with hz | hz
      · exact hcoded z hz
      · exact List.mem_singleton.1 hz ▸ hy
    exact exec_pack_fail (htext ▸ packBits_overflow hcoded' (.inr hfit) hover)
  · rcases finish_next ((exec_eq_finish _ s).symm.trans h) with ⟨u, -, rfl⟩ | ⟨f, hf, rfl⟩
    · exact .inl rfl
    · exact .inr (packState_error hf)

/-- Settles O24: the container of a successful PACK is that of the text's codes. -/
theorem packContainerBounds : Obligations.PackContainerBounds := by
  intro s t hc h ht
  obtain ⟨hfit, rfl⟩ := exec_pack_ok h ht
  have hlt := codesOf_length_lt hc hfit
  generalize codesOf s.code s.text = bits at hlt
  have hblen : (BitVec.ofNat 32 bits.length).toNat = bits.length :=
    (BitVec.toNat_ofNat _ _).trans (Nat.mod_eq_of_lt hlt)
  have hrange := padding_range bits.length
  dsimp only [State.succeed, State.packed, State.clen]
  rw [hblen, ← List.drop_drop, container_bits_drop, List.drop_left, padding_toNat, container_length]
  refine ⟨rfl, hrange.1, hrange.2, Nat.le_add_right _ _, ?_, rfl⟩
  unfold padding
  omega

/-- Settles O23: no position is encoded, so neither table nor capacity is asked. -/
theorem packEmptyText : Obligations.PackEmptyText := by
  intro s hnil
  have hcodes : codesOf s.code s.text = [] := by rw [hnil, codesOf_nil]
  rw [exec_pack_fits (by simp [AllCoded, hnil]) (.inl hnil), hcodes]
  rfl

/-- Where every symbol has a code, PACK's step fails with E_CONT_OVERFLOW only (R194). -/
theorem packState_error_of_allCoded {s : State} {f : Failure} (hcoded : AllCoded s.code s.text)
    (h : packState s = .error f) : f.err = .contOverflow := by
  rcases packState_cases s with ⟨_, hok, -⟩ | ⟨g, hg, hbits⟩
  · cases h.symm.trans hok
  · cases h.symm.trans hg
    refine (packBits_error 0 [] hbits).resolve_left ?_
    rintro ⟨-, y, hy, hnone⟩
    exact hcoded y hy hnone

/-- Settles O33: every symbol of the text has a code in the table that COMPRESS makes of it. -/
theorem compressOnlyOverflows : Obligations.CompressOnlyOverflows := by
  intro s t hc hm h
  have hcoded := allCoded_tablesState (text_length_lt hc hm)
  rcases finish_next ((exec_eq_finish _ s).symm.trans h) with ⟨u, -, rfl⟩ | ⟨f, hf, rfl⟩
  · exact .inl rfl
  · exact .inr (packState_error_of_allCoded (s := tablesState s) hcoded hf)

end Sys2Proof.Machine

namespace Sys2Proof.Machine

/-! ## UNPACK and DECOMPRESS (R205 to R208, R236)

`unpackState` in its three outcomes, each as what the command leaves. In a container within CONT_CAP, BLEN does not wrap,
so the bitstream that UNPACK leaves is the bits after the header without the last PAD of them; DECOMPRESS decodes
these. -/

/-- `s` with what UNPACK writes of a container with header `h` and then the bytes `rest` (R205). -/
def State.unpacked (s : State) (h : Byte) (rest : List Byte) : State :=
  { s with pad := h, blen := BitVec.ofNat 32 (8 * rest.length - h.toNat), bvalid := true }

section Unpack

variable {s : State} {h : Byte} {rest : List Byte}

/-- UNPACK's step on a container that is too short for its header (R206 (b)). -/
theorem unpackState_overrun (hcont : s.cont = h :: rest) (hover : 8 * rest.length < h.toNat) :
    unpackState s = .error { err := .malformedContainer, info := BitVec.ofNat 32 (h.toNat * 256 + 1) } := by
  have hinfo : (h.setWidth 32 <<< 8) ||| 1 = BitVec.ofNat 32 (h.toNat * 256 + 1) :=
    shiftLeft_or_ofNat h (k := 8) (n := 1) (by decide)
  simp only [unpackState, hcont]
  rw [if_pos hover, hinfo]

/-- UNPACK's step on a container whose header fits (R205). -/
theorem unpackState_fits (hcont : s.cont = h :: rest) (hle : h.toNat ≤ 8 * rest.length) :
    unpackState s = .ok (s.unpacked h rest) := by
  simp only [unpackState, State.unpacked, hcont]
  exact if_neg hle.not_gt

/-- UNPACK where its step fails (R206): the failure update, and nothing else. -/
theorem exec_unpack_fail {f : Failure} (hf : unpackState s = .error f) : exec .unpack s = .next (s.fail 0x06 f) :=
  congrArg (finish Instr.unpack.opcode s) hf

/-- UNPACK where the header fits (R205). -/
theorem exec_unpack_fits (hcont : s.cont = h :: rest) (hle : h.toNat ≤ 8 * rest.length) :
    exec .unpack s = .next ((s.unpacked h rest).succeed 0x06) :=
  congrArg (finish Instr.unpack.opcode s) (unpackState_fits hcont hle)

/-- BLEN holds the bit count of a container within CONT_CAP (R5, R29). -/
theorem unpacked_blen_toNat (hc : s.cfg.WellFormed) (hm : Memory.wf s = true) (hcont : s.cont = h :: rest) :
    (s.unpacked h rest).blen.toNat = 8 * rest.length - h.toNat := by
  have hcap := hc.2.2
  have hlen := (wf_iff.1 hm).2
  rw [hcont, List.length_cons] at hlen
  exact (BitVec.toNat_ofNat _ _).trans (Nat.mod_eq_of_lt (by omega))

/-- The bitstream UNPACK leaves: the bits after the header without the padding (R205, R82). -/
theorem encodedBits_unpacked (hc : s.cfg.WellFormed) (hm : Memory.wf s = true) (hcont : s.cont = h :: rest) :
    encodedBits (s.unpacked h rest) = (bitsOfBytes rest).take (8 * rest.length - h.toNat) := by
  have hdrop : (bitsOfBytes (s.unpacked h rest).cont).drop 8 = bitsOfBytes rest :=
    (congrArg (fun c => (bitsOfBytes c).drop 8) hcont).trans (bitsOfBytes_cons_drop h rest)
  rw [encodedBits, hdrop, unpacked_blen_toNat hc hm hcont]

/-- DECOMPRESS where the header fits and the bitstream decodes (R236). -/
theorem exec_decompress_fits {m : Mode} {text : List Byte} (hcont : s.cont = h :: rest)
    (hle : h.toNat ≤ 8 * rest.length) (hdec : decodeBits m (s.unpacked h rest) = .ok text) :
    exec (.decompress m) s = .next ({ s.unpacked h rest with text := text }.succeed 0x09) := by
  have hunpack := unpackState_fits hcont hle
  have hdecode : decodeState m (s.unpacked h rest) = .ok { s.unpacked h rest with text := text } := by
    rw [decodeState, hdec]
    rfl
  rw [exec_eq_finish, lastStepStart_decompress_ok hunpack, lastStepResult_decompress_ok hunpack, hdecode]
  rfl

end Unpack

/-- Settles O25: the three outcomes of `unpackState`, with the length of a container within CONT_CAP. -/
theorem unpackResult : Obligations.UnpackResult := by
  intro s hc hm
  refine ⟨fun hnil => exec_unpack_fail (by rw [unpackState, hnil]), fun h rest hcont => ⟨fun hover => ?_, fun hle => ?_⟩⟩
  · exact exec_unpack_fail (unpackState_overrun hcont hover)
  · exact ⟨_, unpacked_blen_toNat hc hm hcont, exec_unpack_fits hcont hle⟩

/-- The bytes that PACK puts after the header hold the bits and the padding exactly (R193). -/
theorem container_tail_length (bits : Bits) : 8 * (container bits).tail.length = bits.length + padding bits.length := by
  rw [← bitsOfBytes_length, container_bits, List.length_append, List.length_replicate]

/-- The bitstream that PACK leaves (R192, R193). -/
theorem encodedBits_packed (s : State) {bits : Bits} (hlt : bits.length < 2 ^ 32) : encodedBits (s.packed bits) = bits := by
  have hblen : (s.packed bits).blen.toNat = bits.length := (BitVec.toNat_ofNat _ _).trans (Nat.mod_eq_of_lt hlt)
  rw [encodedBits, hblen]
  exact (congrArg (List.take _) (container_bits_drop bits)).trans List.take_left

/-- UNPACK on the container of a PACK writes the BLEN and PAD that PACK wrote (R208). -/
theorem exec_unpack_packed {s t : State} {bits : Bits} (ht : t = (s.packed bits).succeed 0x05) :
    exec .unpack t = .next ({ t with bvalid := true }.succeed 0x06) := by
  have hlen := container_tail_length bits
  have hcont : t.cont = BitVec.ofNat 8 (padding bits.length) :: (container bits).tail := congrArg State.cont ht
  have hle : (BitVec.ofNat 8 (padding bits.length)).toNat ≤ 8 * (container bits).tail.length := by
    rw [padding_toNat, hlen]
    exact Nat.le_add_left _ _
  have hunpacked : t.unpacked (BitVec.ofNat 8 (padding bits.length)) (container bits).tail = { t with bvalid := true } := by
    rw [State.unpacked, padding_toNat, hlen, Nat.add_sub_cancel, ht]
    rfl
  rw [exec_unpack_fits hcont hle, hunpacked]

/-- Settles O26: UNPACK changes BVALID only, and the bitstream is the one that PACK left. -/
theorem unpackInvertsPack : Obligations.UnpackInvertsPack := by
  intro s t hc h herr
  obtain ⟨hfit, ht⟩ := exec_pack_ok h herr
  refine ⟨_, exec_unpack_packed ht, rfl, rfl, rfl, rfl, ?_⟩
  rw [ht]
  exact encodedBits_packed s (codesOf_length_lt hc hfit)

/-- Table mode decodes the codes of a text that fits (R216). -/
theorem decodeBits_table_codes {s : State} {text : List Byte} (hset : CodeSetInv s.code) (hcoded : AllCoded s.code text)
    (hlen : text.length ≤ s.cfg.textCap) (hbits : encodedBits s = codesOf s.code text) :
    decodeBits .table s = .ok text := by
  have hscan := scanTable_spec hset.prefixFree [] hcoded hlen fun y hy hpre => hy (List.prefix_nil.1 hpre)
  rw [List.append_nil, ← hbits] at hscan
  exact hscan

/-- Tree mode decodes the tree's bit strings of a text that fits, whatever CODE holds (R217). -/
theorem decodeBits_tree_codes {s : State} {text : List Byte} {ps : List Bits} (hinv : TreeInv s.node s.root)
    (hps : List.Forall₂ (TreeCode s.node s.root) ps text) (hlen : text.length ≤ s.cfg.textCap)
    (hbits : encodedBits s = ps.flatten) : decodeBits .tree s = .ok text := by
  have hscan := scanTree_spec hinv [] hps hlen fun p y hp hpre =>
    ((treeCode_iff hinv p y).1 hp).2 (List.prefix_nil.1 hpre)
  rw [List.append_nil, ← hbits] at hscan
  exact hscan

/-- Settles O36: the UNPACK step leaves the bitstream of the hypothesis, which the mode's scan decodes. -/
theorem decompressCompletes : Obligations.DecompressCompletes := by
  intro s h rest text hc hm hcont hle hlen
  have hstream := encodedBits_unpacked hc hm hcont
  refine ⟨fun hset hcoded hbits => ?_, fun ps hinv hps hbits => ?_⟩
  · exact exec_decompress_fits hcont hle (decodeBits_table_codes hset hcoded hlen (hstream.trans hbits))
  · exact exec_decompress_fits hcont hle (decodeBits_tree_codes hinv hps hlen (hstream.trans hbits))

end Sys2Proof.Machine

namespace Sys2Proof.Machine

/-! ## DECODE (R215 to R221)

`exec (.decode m)` once for each outcome of the mode's scan; the scans of the two modes are those of
Laws/SymbolDecoder.lean, and agree where CODE is the table of the tree. For the round trip, UNPACK's step on a container
that PACK made leaves the bitstream of the text in either mode's scan. -/

section Decode

variable {m : Mode} {s : State}

/-- DECODE where the scan succeeds (R215). -/
theorem exec_decode_ok {text : List Byte} (hb : s.bvalid = true) (hscan : decodeBits m s = .ok text) :
    exec (.decode m) s = .next ({ s with text := text }.succeed 0x07) := by
  have hstep : decodeState m s = .ok { s with text := text } := by
    rw [decodeState, if_pos hb, hscan]
  exact congrArg (finish (Instr.decode m).opcode s) hstep

/-- DECODE where the scan fails (R219 (b), (c)): the failure update, and nothing else. -/
theorem exec_decode_fail {f : Failure} (hb : s.bvalid = true) (hscan : decodeBits m s = .error f) :
    exec (.decode m) s = .next (s.fail 0x07 f) := by
  have hstep : decodeState m s = .error f := by
    rw [decodeState, if_pos hb, hscan]
  exact congrArg (finish (Instr.decode m).opcode s) hstep

/-- DECODE of symbols and a leftover from bit `start` on: the text, or E_UNDECODABLE_TAIL (R216, R217, R219 (c)). -/
theorem exec_decode_leftover {text : List Byte} {tail : Bits} {start : Nat} (hb : s.bvalid = true)
    (hscan : decodeBits m s = if tail = [] then .ok text else .error (tailFailure start)) :
    (tail = [] → exec (.decode m) s = .next ({ s with text := text }.succeed 0x07)) ∧
    (tail ≠ [] → exec (.decode m) s = .next (s.fail 0x07 (tailFailure start))) :=
  ⟨fun hnil => exec_decode_ok hb (hscan.trans (if_pos hnil)),
    fun hne => exec_decode_fail hb (hscan.trans (if_neg hne))⟩

end Decode

/-- Settles O28: `scanTable_spec` is what the scan gives, and the command ends as it does. -/
theorem decodeTableResult : Obligations.DecodeTableResult := by
  intro s text tail hb hset hcoded hlen hbits htail
  have hscan := scanTable_spec hset.prefixFree tail hcoded hlen htail
  rw [← hbits] at hscan
  exact exec_decode_leftover (m := .table) hb hscan

/-- Settles O30: as O28, by `scanTree_spec`, which does not speak of CODE. -/
theorem decodeTreeResult : Obligations.DecodeTreeResult := by
  intro s text ps tail hb hinv hps hlen hbits htail
  have hscan := scanTree_spec hinv tail hps hlen htail
  rw [← hbits] at hscan
  exact exec_decode_leftover (m := .tree) hb hscan

/-- Settles O29: the failures of `scanTable_overflow` and `scanTree_overflow`. -/
theorem decodeTextOverflow : Obligations.DecodeTextOverflow := by
  refine ⟨fun s text y rest hb hset hcoded hlen hbits => ?_, fun s text ps y p rest hb hinv hps hp hlen hbits => ?_⟩
  · obtain ⟨htext, hy⟩ := List.forall_mem_append.1 hcoded
    have hscan := scanTable_overflow hset.prefixFree rest htext hlen (hy y (List.mem_singleton_self y))
    rw [← hbits] at hscan
    exact exec_decode_fail (m := .table) hb hscan
  · have hscan := scanTree_overflow hinv rest hps hp hlen
    rw [← hbits] at hscan
    exact exec_decode_fail (m := .tree) hb hscan

/-! ### The two modes (R218) -/

theorem decodeBits_table_eq_tree {s : State} (hinv : TreeInv s.node s.root) (hmatch : CodeMatchesTree s) :
    decodeBits .table s = decodeBits .tree s := by
  rw [decodeBits, hmatch]
  exact scan_agree hinv s.cfg.textCap (encodedBits s)

theorem decodeState_table_eq_tree {s : State} (hinv : TreeInv s.node s.root) (hmatch : CodeMatchesTree s) :
    decodeState .table s = decodeState .tree s := by
  rw [decodeState, decodeBits_table_eq_tree hinv hmatch, decodeState]

/-- Settles O31: both commands end with DECODE's step, for DECOMPRESS on the tables that its UNPACK step kept. -/
theorem decodeModesAgree : Obligations.DecodeModesAgree := by
  intro s hinv hmatch
  refine ⟨congrArg (finish 0x07 s) (decodeState_table_eq_tree hinv hmatch), ?_⟩
  show execDecompress .table s = execDecompress .tree s
  cases hunpack : unpackState s with
  | error f => rw [execDecompress, execDecompress, hunpack]; rfl
  | ok u =>
    obtain ⟨_, _, -, -, rfl⟩ := unpackState_ok hunpack
    rw [execDecompress, execDecompress, hunpack]
    exact congrArg (finish 0x09 _) (decodeState_table_eq_tree hinv hmatch)

/-! ### The round trip (R221) -/

/-- Where CODE is the table of the tree, either mode decodes the codes of a text that fits. -/
theorem decodeBits_matched_codes {s : State} {text : List Byte} (m : Mode) (hinv : TreeInv s.node s.root)
    (hmatch : CodeMatchesTree s) (hcoded : AllCoded s.code text) (hlen : text.length ≤ s.cfg.textCap)
    (hbits : encodedBits s = codesOf s.code text) : decodeBits m s = .ok text := by
  have hset : CodeSetInv s.code := hmatch ▸ genTable_codeSetInv hinv
  have htable := decodeBits_table_codes hset hcoded hlen hbits
  cases m with
  | table => exact htable
  | tree => exact (decodeBits_table_eq_tree hinv hmatch).symm.trans htable

/-- What PACK's step leaves as the last step of a command that ended without an error, and what it says of the text
(R191 to R194). -/
theorem finish_pack_ok {op : Byte} {s t : State} (h : finish op s (packState s) = .next t) (ht : t.err = .none) :
    (s.text = [] ∨ 2 + (codesOf s.code s.text).length / 8 ≤ s.cfg.contCap) ∧
      t = (s.packed (codesOf s.code s.text)).succeed op := by
  rcases finish_next h with ⟨u, hu, rfl⟩ | ⟨f, hf, rfl⟩
  · obtain ⟨hfit, rfl⟩ := packState_ok hu
    exact ⟨hfit, rfl⟩
  · exact absurd ht (packState_error_ne_none hf)

/-- UNPACK on a container that PACK made writes the BLEN and PAD that PACK wrote of the bitstream (R208). -/
theorem unpacked_container {s : State} {bits : Bits} (hcont : s.cont = container bits) :
    s.unpacked (BitVec.ofNat 8 (padding bits.length)) (container bits).tail = { s.packed bits with bvalid := true } := by
  rw [State.unpacked, padding_toNat, container_tail_length, Nat.add_sub_cancel, State.packed, ← hcont]

/-- DECOMPRESS of a container that PACK made of a bitstream decodes that bitstream (R208, R236). -/
theorem exec_decompress_container {m : Mode} {s : State} {bits : Bits} {text : List Byte}
    (hcont : s.cont = container bits) (hdec : decodeBits m { s.packed bits with bvalid := true } = .ok text) :
    exec (.decompress m) s = .next ({ s.packed bits with bvalid := true, text := text }.succeed 0x09) := by
  have hunpacked := unpacked_container hcont
  have hle : (BitVec.ofNat 8 (padding bits.length)).toNat ≤ 8 * (container bits).tail.length := by
    rw [padding_toNat, container_tail_length]
    exact Nat.le_add_left _ _
  have hexec := exec_decompress_fits hcont hle (hunpacked ▸ hdec)
  exact hexec.trans (congrArg (fun u : State => Host.Outcome.next ({ u with text := text }.succeed 0x09)) hunpacked)

/-- Settles O37: the container holds the codes of the text, and the other state has the tables that decode them. -/
theorem roundTrip : Obligations.RoundTrip := by
  intro s t u m hc hm h herr hcfg hcont hcode hnode hroot
  obtain ⟨hfit, rfl⟩ := finish_pack_ok (s := tablesState s) h herr
  have hlt := codesOf_length_lt (s := tablesState s) hc hfit
  have hinv : TreeInv u.node u.root := hnode ▸ hroot ▸ buildTree_inv (countText s.text)
  have hmatch : CodeMatchesTree u := by
    rw [CodeMatchesTree, hcode, hnode, hroot]
    rfl
  have hcoded : AllCoded u.code s.text := hcode ▸ allCoded_tablesState (text_length_lt hc hm)
  have hlen : s.text.length ≤ u.cfg.textCap := hcfg ▸ (wf_iff.1 hm).1
  have hbits := (encodedBits_packed u hlt).trans (congrArg (codesOf · s.text) hcode.symm)
  refine ⟨_, exec_decompress_container (text := s.text) hcont ?_, rfl, rfl, rfl⟩
  exact decodeBits_matched_codes m hinv hmatch hcoded hlen hbits

end Sys2Proof.Machine

namespace Sys2Proof.Machine

/-! ## The control and composite commands (R235 to R238)

A composite differs from its parts in the status updates between them. The status fields are not read (R136), and a success
keeps ESTICKY, so the last part, run after a success, ends as the composite's last step does, but for LASTOP. -/

/-- Settles O7: NOP's step leaves the state as it is, so the success update is all it does. -/
theorem nopResult : Obligations.NopResult := fun _ => rfl

/-- Settles O8: `clrState` and the success update together write every reset value but that of LASTOP. -/
theorem clrResult : Obligations.ClrResult := fun _ => rfl

/-- A command of one step that runs after a success ends as that step does in the state before the status update, but for
the opcode that is recorded. -/
theorem finish_of_exec_succeed {i : Instr} (hi : i ≠ .clr) {op op' : Byte} {s t : State}
    (hstart : lastStepStart i s = s) (h : exec i (s.succeed op) = .next t) :
    finish op' s (lastStepResult i s) = .next { t with lastop := op' } := by
  have hsucceed : s.succeed op = s.withStatus .none s.esticky op 0 := rfl
  rw [exec_eq_finish, hsucceed, lastStepStart_withStatus, hstart, lastStepResult_withStatus _ _ _ _ hi] at h
  cases hstep : lastStepResult i s with
  | ok u =>
    have hsticky : u.esticky = s.esticky := lastStepResult_esticky hi hstep
    rw [hstep] at h
    cases h
    exact congrArg (fun b => Host.Outcome.next { u.succeed op' with esticky := b }) hsticky
  | error f =>
    rw [hstep] at h
    cases h
    rfl

/-- Settles O32: COUNT, BUILD and GEN leave the tables of COMPRESS and a success, and PACK runs after it. -/
theorem compressIsFourCommands : Obligations.CompressIsFourCommands := by
  intro s a b c d hcount hbuild hgen hpack
  cases hcount
  cases hbuild
  cases hgen
  exact finish_of_exec_succeed (i := .pack) (s := tablesState s) nofun rfl hpack

theorem unpackState_bvalid {s u : State} (h : unpackState s = .ok u) : u.bvalid = true := by
  obtain ⟨_, _, -, -, rfl⟩ := unpackState_ok h
  rfl

/-- UNPACK's own step sets BVALID, so the DECODE step of DECOMPRESS never finds it clear (R219 (a), R236). -/
theorem exec_decompress_err_ne_sequence {m : Mode} {s t : State} (h : exec (.decompress m) s = .next t) :
    t.err ≠ .sequence := by
  rcases exec_decompress_next h with ⟨f, hf, rfl⟩ | ⟨u, hu, hfin⟩
  · simp [unpackState_error hf]
  · rcases finish_next hfin with ⟨v, -, rfl⟩ | ⟨f, hf, rfl⟩
    · exact nofun
    · rcases decodeState_error hf with ⟨hb, -⟩ | ⟨-, he | he⟩
      · exact absurd (unpackState_bvalid hu) (by simp [hb])
      · simp [he]
      · simp [he]

/-- Settles O35: by the outcome of UNPACK's step; where it succeeded, DECODE runs after a success. -/
theorem decompressIsUnpackThenDecode : Obligations.DecompressIsUnpackThenDecode := by
  intro s t m hunpack
  refine ⟨fun herr => ?_, fun herr u hdecode => ?_, fun u => exec_decompress_err_ne_sequence⟩
  · rcases finish_next hunpack with ⟨v, -, rfl⟩ | ⟨f, hf, rfl⟩
    · exact absurd rfl herr
    · rw [exec_eq_finish, lastStepResult_decompress_error hf, lastStepStart_decompress_error hf]
      rfl
  · rcases finish_next hunpack with ⟨v, hv, rfl⟩ | ⟨f, hf, rfl⟩
    · rw [exec_eq_finish, lastStepResult_decompress_ok hv, lastStepStart_decompress_ok hv]
      exact finish_of_exec_succeed (i := .decode m) nofun rfl hdecode
    · exact absurd herr (unpackState_error_ne_none hf)

end Sys2Proof.Machine

namespace Sys2Proof.Machine

/-! ## Refused transactions, DECODE without UNPACK, and reset (R257, R262, R290)

`ReadRefused` and `WriteRefused` have one shape: no location has the address, or the location that has it refuses. By the
address map, the transaction is refused exactly when the location found at the address refuses, if one is found. -/

/-- The address `a` is misaligned or unmapped, or the location that has it is one of `P` (R262). -/
def RefusedWhere (c : Config) (a : Addr) (P : Loc → Prop) : Prop :=
  a.toNat % 4 ≠ 0 ∨ (∀ l : Loc, l.valid c = true → l.addr ≠ a) ∨ ∃ l : Loc, l.valid c = true ∧ l.addr = a ∧ P l

theorem refusedWhere_iff {c : Config} (hc : c.WellFormed) (a : Addr) (P : Loc → Prop) :
    RefusedWhere c a P ↔ ∀ l, locate c a = .ok l → P l := by
  constructor
  · intro h l hl
    obtain ⟨halign, -, -⟩ := locate_some hl
    obtain ⟨hvalid, haddr⟩ := (addressMap c a l hc).1 hl
    rcases h with hmis | hunmapped | ⟨k, hk, rfl, hP⟩
    · exact absurd halign hmis
    · exact absurd haddr (hunmapped l hvalid)
    · cases (locate_addr hc hk).symm.trans hl
      exact hP
  · intro h
    cases hl : locate c a with
    | ok l =>
      obtain ⟨hvalid, haddr⟩ := (addressMap c a l hc).1 hl
      exact .inr (.inr ⟨l, hvalid, haddr, h l hl⟩)
    | error e =>
      refine .inr (.inl fun l hvalid haddr => ?_)
      cases hl.symm.trans ((addressMap c a l hc).2 ⟨hvalid, haddr⟩)

/-- A read of location `l` finds nothing valid there (R262 (d), (e)). -/
def ReadLocRefused (s : State) (l : Loc) : Prop :=
  (∃ i f, l = .node i f ∧ s.nnodes ≤ i.toNat) ∨ (∃ i, l = .text i ∧ s.tlen ≤ i) ∨ (∃ i, l = .cont i ∧ s.clen ≤ i)

/-- A write of `v` to location `l` is not accepted (R262 (c), (f), (g)). -/
def WriteLocRefused (s : State) (v : Word) (l : Loc) : Prop :=
  l.readOnly = true ∨ (∃ i, l = .text i ∧ s.tlen < i) ∨ (∃ i, l = .cont i ∧ s.clen < i) ∨
    (l = .reg .tlen ∧ s.tlen < v.toNat) ∨ (l = .reg .clen ∧ s.clen < v.toNat)

theorem readRefused_iff {s : State} (hc : s.cfg.WellFormed) (a : Addr) :
    ReadRefused s a ↔ ∀ l, locate s.cfg a = .ok l → ReadLocRefused s l :=
  refusedWhere_iff hc a (ReadLocRefused s)

theorem writeRefused_iff {s : State} (hc : s.cfg.WellFormed) (a : Addr) (v : Word) :
    WriteRefused s a v ↔ ∀ l, locate s.cfg a = .ok l → WriteLocRefused s v l :=
  refusedWhere_iff hc a (WriteLocRefused s v)

/-! ### Reads -/

theorem readLoc_refused {s : State} {l : Loc} (h : ReadLocRefused s l) : readLoc s l = .error .outOfRange := by
  rcases h with ⟨i, f, rfl, hlen⟩ | ⟨i, rfl, hlen⟩ | ⟨i, rfl, hlen⟩
  · have hnone : nodeAt s.node i = none := List.getElem?_eq_none hlen
    rw [readLoc, hnone]
  · exact bufferRead_outOfRange hlen
  · exact bufferRead_outOfRange hlen

theorem readLoc_accepted {s : State} {l : Loc} (h : ¬ ReadLocRefused s l) : ∃ d, readLoc s l = .ok d := by
  cases l with
  | reg | freq | codeLen | codeBits => exact ⟨_, rfl⟩
  | node i f =>
    have hi : i.toNat < s.node.length := Nat.lt_of_not_le fun hle => h (.inl ⟨i, f, rfl, hle⟩)
    have hsome : nodeAt s.node i = some s.node[i.toNat] := List.getElem?_eq_getElem hi
    exact ⟨nodeWord s.node[i.toNat] f, by rw [readLoc, hsome]⟩
  | text i =>
    have hi : i < s.text.length := Nat.lt_of_not_le fun hle => h (.inr (.inl ⟨i, rfl, hle⟩))
    exact ⟨_, bufferRead_valid (List.getElem?_eq_getElem hi)⟩
  | cont i =>
    have hi : i < s.cont.length := Nat.lt_of_not_le fun hle => h (.inr (.inr ⟨i, rfl, hle⟩))
    exact ⟨_, bufferRead_valid (List.getElem?_eq_getElem hi)⟩

theorem busRead_refused {s : State} {a : Addr} (hc : s.cfg.WellFormed) (h : ReadRefused s a) :
    ∃ e, busRead s a = .error e := by
  cases hl : locate s.cfg a with
  | error e => exact ⟨e, by rw [busRead, hl]⟩
  | ok l => exact ⟨_, (busRead_of hl).trans (readLoc_refused ((readRefused_iff hc a).1 h l hl))⟩

theorem busRead_accepted {s : State} {a : Addr} (hc : s.cfg.WellFormed) (h : ¬ ReadRefused s a) :
    ∃ d, busRead s a = .ok d := by
  rw [readRefused_iff hc] at h
  push Not at h
  obtain ⟨l, hl, hacc⟩ := h
  obtain ⟨d, hd⟩ := readLoc_accepted hacc
  exact ⟨d, (busRead_of hl).trans hd⟩

/-- A read does not depend on the actions that are to come. -/
theorem busRead_taken (s : State) (rest : List HostAction) (a : Addr) : busRead (s.taken rest) a = busRead s a := by
  cases hl : locate s.cfg a with
  | error e =>
    have hl' : locate (s.taken rest).cfg a = .error e := hl
    rw [busRead, busRead, hl, hl']
  | ok l => exact (busRead_of (s := s.taken rest) hl).trans ((readLoc_host s rest s.resp l).trans (busRead_of hl).symm)

/-! ### Writes -/

/-- A write at or below the length of a buffer is accepted (R72, R73). -/
theorem bufferWrite_accepted {buf : List Byte} {i : Nat} (b : Byte) (h : i ≤ buf.length) :
    ∃ new, bufferWrite buf i b = .ok new :=
  h.lt_or_eq.elim (fun hlt => ⟨_, bufferWrite_modify b hlt⟩) (fun heq => ⟨_, bufferWrite_append b heq⟩)

theorem writeLoc_refused {s : State} {v : Word} {l : Loc} (h : WriteLocRefused s v l) :
    ∃ e, writeLoc s v l = .error e := by
  rcases h with hro | ⟨i, rfl, hlen⟩ | ⟨i, rfl, hlen⟩ | ⟨rfl, hlen⟩ | ⟨rfl, hlen⟩
  · exact ⟨_, writeLoc_readOnly s v hro⟩
  · exact ⟨_, congrArg s.withText (bufferWrite_outOfRange _ hlen)⟩
  · exact ⟨_, congrArg s.withCont (bufferWrite_outOfRange _ hlen)⟩
  · exact ⟨_, congrArg s.withText (lengthWrite_tooLarge hlen)⟩
  · exact ⟨_, congrArg s.withCont (lengthWrite_tooLarge hlen)⟩

theorem writeLoc_accepted {s : State} {v : Word} {l : Loc} (h : ¬ WriteLocRefused s v l) :
    ∃ t, writeLoc s v l = .ok t := by
  simp only [WriteLocRefused, not_or] at h
  obtain ⟨hro, htext, hcont, htlen, hclen⟩ := h
  cases l with
  | reg r => cases r with
    | cmd => exact ⟨s, rfl⟩
    | tlen => exact ⟨_, congrArg s.withText (lengthWrite_truncate (Nat.le_of_not_lt fun hlt => htlen ⟨rfl, hlt⟩))⟩
    | clen => exact ⟨_, congrArg s.withCont (lengthWrite_truncate (Nat.le_of_not_lt fun hlt => hclen ⟨rfl, hlt⟩))⟩
    | _ => exact absurd rfl hro
  | freq => exact ⟨_, rfl⟩
  | codeLen | codeBits | node => exact absurd rfl hro
  | text i =>
    obtain ⟨new, hnew⟩ := bufferWrite_accepted (v.setWidth 8) (Nat.le_of_not_lt fun hlt => htext ⟨i, rfl, hlt⟩)
    exact ⟨_, congrArg s.withText hnew⟩
  | cont i =>
    obtain ⟨new, hnew⟩ := bufferWrite_accepted (v.setWidth 8) (Nat.le_of_not_lt fun hlt => hcont ⟨i, rfl, hlt⟩)
    exact ⟨_, congrArg s.withCont hnew⟩

section Write

variable {s : State} {a : Addr} {v : Word} {rest : List HostAction} (hc : s.cfg.WellFormed)
  (hbus : s.bus = .write a v :: rest)

include hc hbus

/-- A refused write only answers buserror; CMD refuses none (R24). -/
theorem step_write_refused (h : WriteRefused s a v) : step s = .next ((s.taken rest).respond .buserror) := by
  cases hl : locate s.cfg a with
  | error e => exact step_unmapped hbus hl
  | ok l =>
    obtain ⟨e, he⟩ := writeLoc_refused (s := s.taken rest) ((writeRefused_iff hc a v).1 h l hl)
    have hcmd : l ≠ .reg .cmd := by
      rintro rfl
      cases he
    exact step_store_error hbus hl hcmd he

/-- Any other write is answered with ok, a write to CMD whatever its command does (R130). -/
theorem step_write_accepted (h : ¬ WriteRefused s a v) : ∃ t, step s = .next t ∧ t.resp = some .ok := by
  rw [writeRefused_iff hc] at h
  push Not at h
  obtain ⟨l, hl, hacc⟩ := h
  by_cases hcmd : l = .reg .cmd
  · subst hcmd
    obtain ⟨-, rfl⟩ := (addressMap s.cfg a _ hc).1 hl
    obtain ⟨t, ht, -, -, hresp⟩ := issue_keeps_hostSide v ((s.taken rest).respond .ok)
    exact ⟨t, (step_cmd hbus).trans ht, hresp⟩
  · obtain ⟨u, hu⟩ := writeLoc_accepted (s := s.taken rest) hacc
    exact ⟨_, step_store_ok hbus hl hcmd hu, rfl⟩

end Write

/-- Settles O51: a transaction is refused exactly when its location, if it has one, refuses it. -/
theorem busErrorExactly : Obligations.BusErrorExactly := by
  intro s a rest hc
  refine ⟨fun hbus => ⟨fun h => ?_, fun h => ?_⟩, fun v hbus => ⟨step_write_refused hc hbus, step_write_accepted hc hbus⟩⟩
  · obtain ⟨e, he⟩ := busRead_refused hc h
    exact (step_read hbus).trans (congrArg _ (readTransaction_error ((busRead_taken s rest a).trans he)))
  · obtain ⟨d, hd⟩ := busRead_accepted hc h
    exact ⟨d, hd, (step_read hbus).trans (congrArg _ (readTransaction_ok ((busRead_taken s rest a).trans hd)))⟩

/-! ### DECODE without UNPACK, and reset -/

/-- DECODE's step fails before the scan when no bitstream is announced (R219 (a)). -/
theorem decodeState_not_bvalid {s : State} (m : Mode) (hb : s.bvalid = false) :
    decodeState m s = .error { err := .sequence, info := 0 } := by
  rw [decodeState, hb, if_neg Bool.false_ne_true]

/-- Settles O27: the command's failure update is that of `decodeState_not_bvalid`. -/
theorem decodeNeedsUnpack : Obligations.DecodeNeedsUnpack := fun s m hb =>
  congrArg (finish (Instr.decode m).opcode s) (decodeState_not_bvalid m hb)

/-- Settles O49: `hostReset` keeps the parameters and the actions that are still to come. -/
theorem resetAction : Obligations.ResetAction := fun _ _ hbus => step_reset hbus

end Sys2Proof.Machine
